-- ==== Sys2Proof/Word.lean ====
section
/-! DEFINITION. The word types of the block (spec/00_scope.md section 5: a byte is 8 bits, an int32 is 32 bits of
two's complement). -/

namespace Sys2Proof

/-- A byte, 0 to 255 (00_scope.md section 5). -/
abbrev Byte := BitVec 8

/-- The 32 bits of an `int32` (00_scope.md section 5): `toInt` is `s32`, `toNat` is `u32`; addition wraps (R163). -/
abbrev Word32 := BitVec 32

end Sys2Proof
end

