-- ==== Sys2Proof/Config.lean ====
section
/-! DEFINITION. What the source or an implementation fixes (R6 to R12), and the free values: opaque constants with no
body, of which nothing can be proved (assumption log 2, 14, 16, 17). -/

namespace Sys2Proof

/-- An asynchronous event that may fall before an interaction with the environment: the deadline alarm (R187) or the
reset input (R211). -/
inductive Event where
  | deadline
  | reset
deriving DecidableEq, Repr, Inhabited

/-- One answer of the environment to one interaction (R29: "free inputs of each step"). An interaction reads the fields
that concern it: a set-parity call `fails` (R48), a write `fails`, `count` and `wired` (R49), a read `fails` and `count`
(R50), a delay none (R51). -/
structure LineAnswer where
  /-- What falls before the interaction is performed (R187, R211). -/
  event : Option Event
  /-- Raw bytes the receiving driver has added to `raw_rx` meanwhile (R50, R173: unconstrained). -/
  arrived : List Byte
  /-- The capability answers `failure`. -/
  fails : Bool
  /-- The integer a write reports, or the size of the chunk a read returns. -/
  count : Int
  /-- How many characters a write whose report does not say it has put on the wire (R49, U11; log 13). -/
  wired : Nat
deriving DecidableEq, Repr, Inhabited

/-- When the host's read loop looks at `rx_done` (R166). -/
inductive RxDoneCheck where
  | perByte
  | perChunk
deriving DecidableEq, Repr, Inhabited

namespace Config

/-- `CAPACITY` (R6). -/
def capacity : Nat := 256

/-- `ESC`, the escape sentinel of the raw stream (R7). -/
def esc : Byte := 0xFF

/-- `MARKCODE`, the escape continuation that means frame start (R7). -/
def markCode : Byte := 0x00

/-- `EXPLEN_DEFAULT` (R8). -/
def expLenDefault : BitVec 9 := 4

/-- The header of a control frame (R12, R70). -/
def controlHeader : List Byte := [0x87, 0x09, 0x03]

/-- `HEX_UPPERCASE` (R12, D19). -/
def hexUppercase : Bool := true

/-- `T_SETTLE` (R9): OPEN, enters no result (log 16). -/
opaque tSettle : Nat

/-- The default of `T_DEADLINE`, in seconds (R10): enters no result (log 16). -/
def tDeadlineDefault : Nat := 2

/-- `RX_CHUNK_MAX - 1` (R11): OPEN (log 17). -/
opaque rxChunkMaxPred : Nat

/-- `RX_CHUNK_MAX`, at least 1 (R11; log 17). -/
def rxChunkMax : Nat := rxChunkMaxPred + 1

/-- `RX_DONE_CHECK` (R166): OPEN (log 17). -/
opaque rxDoneCheck : RxDoneCheck

/-- The default of `RX_DONE_CHECK` (R166). -/
def rxDoneCheckDefault : RxDoneCheck := .perByte

/-- The environment's answer to the `n`-th interaction for which State holds none (R29): free (log 2). -/
opaque lineAnswer : Nat → LineAnswer

/-- The parity bit of the `n`-th character of the wire when it is written while `pmode = UNKNOWN` (R53, U16): free
(log 14). -/
opaque unknownParity : Nat → Bool

end Config

end Sys2Proof
end

