-- ==== Sys2Proof/Syntax.lean ====
section
/-! DEFINITION. The operations of the block: one constructor per row of spec/opcode_table.json. -/

namespace Sys2Proof

/-- Buffer select `s` (R73): `b0` is `B[0]` (TXB), `b1` is `B[1]` (RXB). -/
inductive BufSel where
  | b0
  | b1
deriving DecidableEq, Repr, Inhabited

/-- The 21 rows of the opcode table: 14 host commands (R72), the five cases of `RX.PUSH` (R67) and the two line
characters (R64). -/
inductive Instr where
  /-- `MB.APPEND s, bs` (R93) -/
  | mbAppend (s : BufSel) (bs : List Byte)
  /-- `MB.APPENDB s, b` (R94) -/
  | mbAppendb (s : BufSel) (b : Byte)
  /-- `MB.RESET s` (R95) -/
  | mbReset (s : BufSel)
  /-- `MB.LEN s` (R96) -/
  | mbLen (s : BufSel)
  /-- `MB.CAP s` (R97) -/
  | mbCap (s : BufSel)
  /-- `MB.SETI32 s, v` (R98) -/
  | mbSeti32 (s : BufSel) (v : Word32)
  /-- `MB.GETI32 s` (R99) -/
  | mbGeti32 (s : BufSel)
  /-- `MB.CKSUM s` (R100) -/
  | mbCksum (s : BufSel)
  /-- `MB.SETCTL s, sp` (R101) -/
  | mbSetctl (s : BufSel) (sp : Byte)
  /-- `MB.EQ` (R102) -/
  | mbEq
  /-- `MB.HEX s` (R103) -/
  | mbHex (s : BufSel)
  /-- `TX.SEND s` (R116) -/
  | txSend (s : BufSel)
  /-- `RX.INIT L` (R133) -/
  | rxInit (len : BitVec 16)
  /-- `RX.DROP` (R145) -/
  | rxDrop
  /-- `RAW.ESC`: `RX.PUSH 0xFF` with `rx_escaped = 0` (R138) -/
  | rawEsc
  /-- `RAW.DATA`: `RX.PUSH b`, `b` from 0x00 to 0xFE, with `rx_escaped = 0` (R139) -/
  | rawData (b : Byte)
  /-- `RAW.MARK`: `RX.PUSH 0x00` with `rx_escaped = 1` (R135) -/
  | rawMark
  /-- `RAW.LITFF`: `RX.PUSH 0xFF` with `rx_escaped = 1` (R136) -/
  | rawLitff
  /-- `RAW.BADESC`: `RX.PUSH b`, `b` from 0x01 to 0xFE, with `rx_escaped = 1` (R137) -/
  | rawBadesc (b : Byte)
  /-- `WIRE.MARK`: the line character `(1, d)` (R63, R64) -/
  | wireMark (d : Byte)
  /-- `WIRE.SPACE`: the line character `(0, d)` (R63, R64) -/
  | wireSpace (d : Byte)
deriving DecidableEq, Repr

end Sys2Proof
end

