-- ==== Sys2Proof/WellFormed.lean ====
section
/-! DEFINITION. The operand values an instruction's encoding can hold (R67, R74). -/

namespace Sys2Proof

/-- Whether the operands of an instruction are ones its encoding admits: the count of `MB.APPEND` is 16 bits (R74,
R93), the byte of `RAW.DATA` is 0x00 to 0xFE and that of `RAW.BADESC` 0x01 to 0xFE (R67). Every other operand value is
encodable (`RX.INIT` with `L > 256` too: it is answered `Refused(IllegalOperand)`, R76). -/
def Instr.wf : Instr → Bool
  | .mbAppend _ bs => decide (bs.length < 65536)
  | .mbAppendb _ _ => true
  | .mbReset _ => true
  | .mbLen _ => true
  | .mbCap _ => true
  | .mbSeti32 _ _ => true
  | .mbGeti32 _ => true
  | .mbCksum _ => true
  | .mbSetctl _ _ => true
  | .mbEq => true
  | .mbHex _ => true
  | .txSend _ => true
  | .rxInit _ => true
  | .rxDrop => true
  | .rawEsc => true
  | .rawData b => b != Config.esc
  | .rawMark => true
  | .rawLitff => true
  | .rawBadesc b => b != Config.esc && b != Config.markCode
  | .wireMark _ => true
  | .wireSpace _ => true

end Sys2Proof
end

