-- ==== Sys2Proof/Decode.lean ====
section
/-! DEFINITION. The three alphabets of 30_encoding.md: decoders, total and refusing by name, then the encoder. -/

namespace Sys2Proof

/-! ## Byte order (R43, R74: little-endian) -/

/-- Two bytes as an unsigned 16-bit number, the first the low byte (R74). -/
def le16 (x0 x1 : Byte) : BitVec 16 := x1 ++ x0

/-- Four bytes as 32 bits, byte 0 the least significant (R43, R69, R74). -/
def le32 (x0 x1 x2 x3 : Byte) : Word32 := x3 ++ x2 ++ x1 ++ x0

/-- The two little-endian bytes of a 16-bit number (R74, R78). -/
def bytes16 (v : BitVec 16) : List Byte := [v.extractLsb' 0 8, v.extractLsb' 8 8]

/-- The four little-endian bytes of 32 bits (R69). -/
def bytes32 (v : Word32) : List Byte :=
  [v.extractLsb' 0 8, v.extractLsb' 8 8, v.extractLsb' 16 8, v.extractLsb' 24 8]

/-! ## The command port -/

/-- What a command opcode byte selects (R72). -/
inductive CmdOp where
  | append | appendb | reset | len | cap | seti32 | geti32 | cksum | setctl | eq | hex | send | init | drop
deriving DecidableEq, Repr

/-- A row of the opcode map (R72): an opcode byte `op` selects it when `op and mask = pattern`. -/
structure CmdRow where
  op : CmdOp
  pattern : Byte
  mask : Byte
deriving DecidableEq, Repr

/-- The opcode map (R72). -/
def cmdRows : List CmdRow :=
  [⟨.append, 0x10, 0xFE⟩, ⟨.appendb, 0x12, 0xFE⟩, ⟨.reset, 0x14, 0xFE⟩, ⟨.len, 0x16, 0xFE⟩, ⟨.cap, 0x18, 0xFE⟩,
   ⟨.seti32, 0x1A, 0xFE⟩, ⟨.geti32, 0x1C, 0xFE⟩, ⟨.cksum, 0x1E, 0xFE⟩, ⟨.setctl, 0x20, 0xFE⟩, ⟨.eq, 0x22, 0xFF⟩,
   ⟨.hex, 0x24, 0xFE⟩, ⟨.send, 0x30, 0xFE⟩, ⟨.init, 0x40, 0xFF⟩, ⟨.drop, 0x42, 0xFF⟩]

/-- Whether an opcode byte selects a row (R72). -/
def CmdRow.selects (r : CmdRow) (op : Byte) : Bool := (op &&& r.mask) == r.pattern

/-- The operation an opcode byte selects; none for a reserved opcode (R72, R75). -/
def opcodeOf (op : Byte) : Option CmdOp := (cmdRows.find? (fun r => r.selects op)).map CmdRow.op

/-- The buffer select of an opcode byte, `op[0]` (R73). -/
def selOf (op : Byte) : BufSel := if op.getLsbD 0 then .b1 else .b0

/-- What the decoder of the command port reads from the bytes waiting there. -/
inductive Decoded where
  /-- A whole command and the bytes after it. -/
  | instr (i : Instr) (rest : List Byte)
  /-- A reserved opcode byte, a one-byte command (R75, R81), and the bytes after it. -/
  | illegalCommand (op : Byte) (rest : List Byte)
  /-- The command has not arrived in full (R81). -/
  | incomplete
deriving DecidableEq, Repr

/-- The operands of a command, from the bytes after its opcode byte (R71, R74). -/
def decodeOperands : CmdOp → BufSel → List Byte → Decoded
  | .append, s, lo :: hi :: ps =>
    if ps.length < (le16 lo hi).toNat then .incomplete
    else .instr (.mbAppend s (ps.take (le16 lo hi).toNat)) (ps.drop (le16 lo hi).toNat)
  | .append, _, _ => .incomplete
  | .appendb, s, b :: ps => .instr (.mbAppendb s b) ps
  | .appendb, _, [] => .incomplete
  | .reset, s, ps => .instr (.mbReset s) ps
  | .len, s, ps => .instr (.mbLen s) ps
  | .cap, s, ps => .instr (.mbCap s) ps
  | .seti32, s, x0 :: x1 :: x2 :: x3 :: ps => .instr (.mbSeti32 s (le32 x0 x1 x2 x3)) ps
  | .seti32, _, _ => .incomplete
  | .geti32, s, ps => .instr (.mbGeti32 s) ps
  | .cksum, s, ps => .instr (.mbCksum s) ps
  | .setctl, s, b :: ps => .instr (.mbSetctl s b) ps
  | .setctl, _, [] => .incomplete
  | .eq, _, ps => .instr .mbEq ps
  | .hex, s, ps => .instr (.mbHex s) ps
  | .send, s, ps => .instr (.txSend s) ps
  | .init, _, lo :: hi :: ps => .instr (.rxInit (le16 lo hi)) ps
  | .init, _, _ => .incomplete
  | .drop, _, ps => .instr .rxDrop ps

/-- The decoder of the command port (R71, R72, R75, R81). -/
def decodeCmd : List Byte → Decoded
  | [] => .incomplete
  | op :: ps =>
    match opcodeOf op with
    | none => .illegalCommand op ps
    | some o => decodeOperands o (selOf op) ps

/-! ## The raw stream and the wire -/

/-- The case of `RX.PUSH b` by `rx_escaped` and `b` (R67): total, each pair in one row. -/
def decodeRaw (escaped : Bool) (b : Byte) : Instr :=
  if escaped then
    if b = Config.markCode then .rawMark
    else if b = Config.esc then .rawLitff
    else .rawBadesc b
  else if b = Config.esc then .rawEsc
  else .rawData b

/-- The raw word of the opcode table: bit 8 is `rx_escaped` before the push, bits 7..0 the raw byte. -/
def decodeRawWord (w : BitVec 9) : Instr := decodeRaw (w.getLsbD 8) (w.extractLsb' 0 8)

/-- A line character `ch`: `ch[8]` is `p`, `ch[7:0]` is `d` (R63). -/
def decodeWire (ch : BitVec 9) : Instr :=
  if ch.getLsbD 8 then .wireMark (ch.extractLsb' 0 8) else .wireSpace (ch.extractLsb' 0 8)

/-! ## The encoder -/

/-- The words of an instruction, in the space its row belongs to. -/
inductive Encoded where
  | command (bytes : List Byte)
  | raw (w : BitVec 9)
  | wire (ch : BitVec 9)
deriving DecidableEq, Repr

/-- An opcode byte with its buffer select bit `op[0]` (R72, R73). -/
def opByte (pattern : Byte) : BufSel → Byte
  | .b0 => pattern
  | .b1 => pattern ||| 0x01

/-- A 9-bit word: its bit 8 and its low byte (R63, R67). -/
def word9 (hi : Bool) (b : Byte) : BitVec 9 := BitVec.ofBool hi ++ b

/-- The encoding of an instruction (R63, R67, R71, R72, R74). -/
def encode : Instr → Encoded
  | .mbAppend s bs => .command (opByte 0x10 s :: (bytes16 (BitVec.ofNat 16 bs.length) ++ bs))
  | .mbAppendb s b => .command [opByte 0x12 s, b]
  | .mbReset s => .command [opByte 0x14 s]
  | .mbLen s => .command [opByte 0x16 s]
  | .mbCap s => .command [opByte 0x18 s]
  | .mbSeti32 s v => .command (opByte 0x1A s :: bytes32 v)
  | .mbGeti32 s => .command [opByte 0x1C s]
  | .mbCksum s => .command [opByte 0x1E s]
  | .mbSetctl s sp => .command [opByte 0x20 s, sp]
  | .mbEq => .command [0x22]
  | .mbHex s => .command [opByte 0x24 s]
  | .txSend s => .command [opByte 0x30 s]
  | .rxInit len => .command (0x40 :: bytes16 len)
  | .rxDrop => .command [0x42]
  | .rawEsc => .raw (word9 false Config.esc)
  | .rawData b => .raw (word9 false b)
  | .rawMark => .raw (word9 true Config.markCode)
  | .rawLitff => .raw (word9 true Config.esc)
  | .rawBadesc b => .raw (word9 true b)
  | .wireMark d => .wire (word9 true d)
  | .wireSpace d => .wire (word9 false d)

/-- Decoding in the space the words belong to. -/
def decode : Encoded → Decoded
  | .command bytes => decodeCmd bytes
  | .raw w => .instr (decodeRawWord w) []
  | .wire ch => .instr (decodeWire ch) []

/-! ## The opcode table's own numbering -/

/-- The first `k` bytes of `w`, bit 0 of `w` the least significant bit of the first byte. -/
def tableBytes (k w : Nat) : List Byte := (List.range k).map (fun i => BitVec.ofNat 8 (w / 256 ^ i))

/-- Whether a table word of `nbits` bits (in whole bytes) is one of the 9-bit words of the raw stream. The 9-bit words
of the raw stream and of the wire are the same numbers; a word alone is read as a raw word (assumption log 11). -/
def isRawWidth (nbits : Nat) : Bool := 8 < nbits && nbits ≤ 16

/-- The instruction the decoder reads from a table word: 8 bits are a command's opcode byte, its operand bytes zero
(R71: the longest command with zero operands has 5 bytes); 9 bits are a raw word (log 11). -/
def decodeTableWord (nbits w : Nat) : Option Instr :=
  if isRawWidth nbits then
    if w < 512 then some (decodeRawWord (BitVec.ofNat 9 w)) else none
  else
    match decodeCmd (tableBytes (max 5 ((nbits + 7) / 8)) w) with
    | .instr i _ => some i
    | .illegalCommand _ _ => none
    | .incomplete => none

end Sys2Proof
end

