-- ==== Sys2Proof/Machine/State.lean ====
section
/-! DEFINITION. The state of the block, its ports, the environment and the host (10_state.md), the responses (R78), and
the machine right after reset (R31). -/

namespace Sys2Proof.Machine

/-! ## Responses (R78, R179 to R185) -/

/-- Causes of an IoError (R180). -/
inductive IoCause where
  /-- `Open`: the environment only. -/
  | openLine
  /-- `Configure`: `TX.SEND` steps 1 and 4. -/
  | configure
  /-- `Read`: the host's read loop. -/
  | read
  /-- `Write`: `TX.SEND` steps 2 and 5. -/
  | write
  /-- `Entropy`: the host, step 1 of the handshake. -/
  | entropy
deriving DecidableEq, Repr

/-- Causes of a ProtocolError (R181). -/
inductive ProtoCause where
  | badEscape
  | duplicateMarker
  | missingMarker
  | overrun
deriving DecidableEq, Repr

/-- An error of the source's four kinds, with its cause (R179). -/
inductive ErrCause where
  | io (c : IoCause)
  | protocol (c : ProtoCause)
  | verification
  | timeout
deriving DecidableEq, Repr

/-- A failure: an ordinary return value that changes no state (R184). -/
inductive FailReason where
  | capacityExceeded
  | wrongLength
deriving DecidableEq, Repr

/-- A refusal the block answers, changing no state (R185). -/
inductive RefuseReason where
  | illegalCommand
  | illegalOperand
  | notActive
  | bufferOwned
  | emptyFrame
deriving DecidableEq, Repr

/-- The value of a successful command (R78). -/
inductive Value where
  /-- `MB.LEN`, `MB.CAP` -/
  | u16 (v : BitVec 16)
  /-- `MB.GETI32` -/
  | int32 (v : Word32)
  /-- `MB.CKSUM` -/
  | byte (v : Byte)
  /-- `MB.EQ` -/
  | bool (v : Bool)
  /-- `MB.HEX`: the ASCII characters -/
  | text (cs : List Byte)
deriving DecidableEq, Repr

/-- A response (00_scope.md section 5, R78). -/
inductive Response where
  | ok
  | val (v : Value)
  | fail (r : FailReason)
  | err (c : ErrCause)
  | refused (r : RefuseReason)
deriving DecidableEq, Repr

/-! ## Registers -/

/-- The buffer data space (R13 to R15, R41): each buffer is the list of exactly `len` bytes, so that `B[s].len` is its
length and bytes at or beyond `len` do not exist (U1; assumption log 4). -/
structure Memory where
  b0 : List Byte
  b1 : List Byte
deriving DecidableEq, Repr

/-- The buffers' canonical form: `B[s].len` never exceeds `CAPACITY` (R14). -/
abbrev Memory.wf (m : Memory) : Prop := m.b0.length ≤ Config.capacity ∧ m.b1.length ≤ Config.capacity

/-- `rx_phase` (R22). -/
inductive RxPhase where
  | idle
  | active
  | failed
deriving DecidableEq, Repr

/-- The decoder's flags and control registers (R19 to R24). -/
structure Decoder where
  /-- `rx_marked` (R19) -/
  marked : Bool
  /-- `rx_escaped` (R20) -/
  escaped : Bool
  /-- `rx_explen` (R21) -/
  explen : BitVec 9
  /-- `rx_phase` (R22) -/
  phase : RxPhase
  /-- `rx_err` (R24) -/
  err : Byte
deriving DecidableEq, Repr

/-- `pmode` (R25). -/
inductive PMode where
  | unknown
  | mark
  | space
deriving DecidableEq, Repr

/-- `tx_step` (R26): 0 is `idle`, `k` in 1 to 6 is the step to perform next. -/
inductive TxStep where
  | idle
  | step1
  | step2
  | step3
  | step4
  | step5
  | step6
deriving DecidableEq, Repr

/-- Encoder and line state (R25, R26). -/
structure Encoder where
  /-- `pmode` (R25) -/
  pmode : PMode
  /-- `tx_step` (R26) -/
  txStep : TxStep
  /-- The operand of the `TX.SEND` in progress: the model's own field (log 5). -/
  txSel : BufSel
deriving DecidableEq, Repr

/-! ## The environment (R28) -/

/-- A line character `(p, d)` (R63): `p` is true for mark. -/
structure LineChar where
  p : Bool
  d : Byte
deriving DecidableEq, Repr

/-- A capability operation with its answer, an entry of `line_ops` (R28(b)); `none` is the answer `failure`. -/
inductive LineOp where
  | setParityMark (ok : Bool)
  | setParitySpace (ok : Bool)
  | writeBytes (bs : List Byte) (count : Option Int)
  | readBytes (maxCount : Nat) (chunk : Option (List Byte))
  | delay
deriving DecidableEq, Repr

/-- The deadline alarm (R28(d), R187): one shot. -/
inductive Alarm where
  | off
  | armed
  | fired
deriving DecidableEq, Repr

/-- State of the environment (R28), and the model's own record of its answers (R29; log 2). -/
structure Environment where
  /-- `line_tx` (R28(a)) -/
  lineTx : List LineChar
  /-- `line_ops` (R28(b)) -/
  lineOps : List LineOp
  /-- `raw_rx` (R28(c)) -/
  rawRx : List Byte
  /-- the deadline alarm (R28(d)) -/
  alarm : Alarm
  /-- the environment's answers to the next interactions (log 2) -/
  answers : List LineAnswer
  /-- how many answers were drawn from `Config.lineAnswer` (log 2) -/
  drawn : Nat
deriving DecidableEq, Repr

/-! ## The ports and the host -/

/-- A request from outside the block, in the order the outside makes them (log 3). -/
inductive Move where
  /-- the host has a command taken from the command port (R71) -/
  | cmd
  /-- the host pushes the next byte of the raw-byte port (R67, R134) -/
  | raw
  /-- the line puts one character on the wire outside a `TX.SEND` (R63; log 10) -/
  | wire (ch : BitVec 9)
  /-- the host reads the line once, outside the handshake (R50, R218; log 15) -/
  | readLine
  /-- the host starts HS.RUN; the entropy source's draw, or `none` for its failure (R162) -/
  | hsRun (draw : Option (Word32 × Word32))
  /-- the deadline event (R187) -/
  | deadline
  /-- the reset input (R211) -/
  | reset
deriving DecidableEq, Repr

/-- The ports of the block (R71, R78) and the requests of the outside. -/
structure Ports where
  /-- bytes on the command port not yet taken (R71) -/
  cmdIn : List Byte
  /-- bytes on the raw-byte port not yet taken (R67) -/
  rawIn : List Byte
  /-- what the outside asks for next, in order (log 3) -/
  moves : List Move
  /-- responses returned on the response port, in order (R78) -/
  cmdOut : List Response
  /-- responses returned on the raw-byte port, in order (R78) -/
  rawOut : List Response
deriving DecidableEq, Repr

/-- Where the host stands in a running HS.RUN (R171). -/
inductive HsPoint where
  /-- `MB.SETI32 0, a` -/
  | setA
  /-- the first `TX.SEND 0` -/
  | sendA
  /-- `MB.SETI32 0, b` -/
  | setB
  /-- the second `TX.SEND 0` -/
  | sendB
  /-- `RX.INIT 4` -/
  | init
  /-- the top of the read loop (R165) -/
  | loop
  /-- pushing the rest of a chunk (R165) -/
  | push (chunk : List Byte)
  /-- `MB.GETI32 1` -/
  | get
  /-- the comparison of step 6 (R168) -/
  | compare
  /-- the host waits for an answer the rules do not give it (log 8) -/
  | stalled
deriving DecidableEq, Repr

/-- The result of a handshake (R171). -/
inductive HsResult where
  | success
  | ioError (c : IoCause)
  | protocolError (c : ProtoCause)
  | verificationError (received expected : Word32)
  | timeoutError
deriving DecidableEq, Repr

/-- The host's handshake: none yet, running, or ended (R161 to R171). -/
inductive Hs where
  | idle
  | running (pt : HsPoint)
  | ended (r : HsResult)
deriving DecidableEq, Repr

/-- The host's own variables (R29, R162 to R168). -/
structure HostVars where
  hs : Hs
  a : Word32
  b : Word32
  expectedSum : Word32
  receivedSum : Word32
deriving DecidableEq, Repr

/-- The whole state: the block's registers (`mem`, `rx`, `tx`), the environment, the ports and the host. -/
structure State where
  mem : Memory
  rx : Decoder
  tx : Encoder
  env : Environment
  ports : Ports
  host : HostVars
deriving DecidableEq, Repr

/-! ## Stops -/

/-- The reasons the machine could stop with a fault: none. Every error of the spec is a response after which the
machine goes on (R184, R185, R191), so the type has no constructor (assumption log 1); this is safe, since nothing is
stopped that the spec lets go on. -/
inductive Fault where
deriving DecidableEq, Repr

/-- The reasons an instruction could be given no meaning. -/
inductive Refusal where
  /-- Raised by an arm of `exec` for an instruction that has no meaning yet, and by nothing else; safe. No arm of this
  model raises it. -/
  | notModelled (mnemonic : String)
deriving DecidableEq, Repr

/-! ## Reset -/

/-- The block's decoder after reset (R31). -/
def Decoder.reset : Decoder :=
  { marked := false, escaped := false, explen := Config.expLenDefault, phase := .idle, err := 0x00 }

/-- The machine right after reset (R31, R211): the block's registers at the values of R31; the environment, the ports
and the host as a run begins, with nothing on them (95_test_vectors.md section 7; assumption log 18). -/
def State.reset : State :=
  { mem := { b0 := [], b1 := [] }
    rx := Decoder.reset
    tx := { pmode := .unknown, txStep := .idle, txSel := .b0 }
    env := { lineTx := [], lineOps := [], rawRx := [], alarm := .off, answers := [], drawn := 0 }
    ports := { cmdIn := [], rawIn := [], moves := [], cmdOut := [], rawOut := [] }
    host := { hs := .idle, a := 0, b := 0, expectedSum := 0, receivedSum := 0 } }

end Sys2Proof.Machine
end

