-- ==== Sys2Proof/Machine/Operands.lean ====
section
/-! DEFINITION. Operand forms: the buffer an operand selects (R73), reads and writes of buffer bytes (R42, R46), the
`int32` layout (R69), the control-frame layout (R70), the checksum (R100) and the text form (R103). -/

namespace Sys2Proof.Machine

/-! ## Buffers -/

/-- The bytes `B[s].data[0 .. B[s].len - 1]` (R13, R15, R73). -/
def Memory.buf (m : Memory) : BufSel → List Byte
  | .b0 => m.b0
  | .b1 => m.b1

/-- `B[s]` with a new content; the other buffer is unchanged (R13). -/
def Memory.setBuf (m : Memory) (s : BufSel) (bs : List Byte) : Memory :=
  match s with
  | .b0 => { m with b0 := bs }
  | .b1 => { m with b1 := bs }

/-- `B[s].len` (R14). -/
def Memory.len (m : Memory) (s : BufSel) : Nat := (m.buf s).length

/-- One byte of a buffer: `none` at and beyond `len`, where no value is held (R15). -/
def Memory.read (m : Memory) (s : BufSel) (i : Nat) : Option Byte := (m.buf s)[i]?

/-- The room check of an append of `n` bytes: `CAPACITY - B[s].len >= n` (R46, R93). -/
def Memory.fits (m : Memory) (s : BufSel) (n : Nat) : Bool := decide (m.len s + n ≤ Config.capacity)

/-- `B[s]` after an append that fits (R93). -/
def Memory.append (m : Memory) (s : BufSel) (bs : List Byte) : Memory := m.setBuf s (m.buf s ++ bs)

/-! ## Layouts -/

/-- `MB.GETI32`'s assembly of a buffer content: defined for 4 bytes only (R99). -/
def int32Of : List Byte → Option Word32
  | [x0, x1, x2, x3] => some (le32 x0 x1 x2 x3)
  | _ => none

/-- The 8-bit sum of all bytes but the last; 0 for an empty buffer (R100, D18). -/
def checksum (bs : List Byte) : Byte := bs.dropLast.foldl (· + ·) 0

/-- The first five bytes of a control frame (R70). -/
def controlBody (sp : Byte) : List Byte := Config.controlHeader ++ [sp, sp]

/-- A control frame: the checksum is taken with the sixth byte in place (R70, R101). -/
def controlFrame (sp : Byte) : List Byte := controlBody sp ++ [checksum (controlBody sp ++ [0x00])]

/-- The ASCII code of a hexadecimal digit (R103, R78). -/
def hexDigit (upper : Bool) (d : BitVec 4) : Byte :=
  if d.toNat < 10 then 0x30 + d.setWidth 8
  else (if upper then 0x37 else 0x57) + d.setWidth 8

/-- The two hexadecimal digits of a byte, high nibble first (R103). -/
def hexByte (upper : Bool) (b : Byte) : List Byte :=
  [hexDigit upper (b.extractLsb' 4 4), hexDigit upper (b.extractLsb' 0 4)]

/-- The text form: two digits per byte, one space between bytes, nothing before the first or after the last (R103). -/
def hexText (upper : Bool) : List Byte → List Byte
  | [] => []
  | [b] => hexByte upper b
  | b :: c :: bs => hexByte upper b ++ 0x20 :: hexText upper (c :: bs)

/-! ## Codes of responses (R78, R180 to R185) -/

/-- The code of an IoError's cause (R180). -/
def IoCause.code : IoCause → Byte
  | .openLine => 0x10
  | .configure => 0x11
  | .read => 0x12
  | .write => 0x13
  | .entropy => 0x14

/-- The code of a ProtocolError's cause, the value of `rx_err` (R24, R181). -/
def ProtoCause.code : ProtoCause → Byte
  | .badEscape => 0x20
  | .duplicateMarker => 0x21
  | .missingMarker => 0x22
  | .overrun => 0x23

/-- The code of an error (R180 to R183). -/
def ErrCause.code : ErrCause → Byte
  | .io c => c.code
  | .protocol c => c.code
  | .verification => 0x30
  | .timeout => 0x40

/-- The code of a failure (R184). -/
def FailReason.code : FailReason → Byte
  | .capacityExceeded => 0x01
  | .wrongLength => 0x02

/-- The code of a refusal (R185). -/
def RefuseReason.code : RefuseReason → Byte
  | .illegalCommand => 0xF0
  | .illegalOperand => 0xF1
  | .notActive => 0xF2
  | .bufferOwned => 0xF3
  | .emptyFrame => 0xF4

/-- The value bytes after the status byte (R78). -/
def Value.bytes : Value → List Byte
  | .u16 v => bytes16 v
  | .int32 v => bytes32 v
  | .byte v => [v]
  | .bool v => [if v then 0x01 else 0x00]
  | .text cs => bytes16 (BitVec.ofNat 16 cs.length) ++ cs

/-- The bytes of a response: a status byte, then the value (R78). -/
def Response.bytes : Response → List Byte
  | .ok => [0x00]
  | .val v => 0x00 :: v.bytes
  | .fail r => [r.code]
  | .err c => [c.code]
  | .refused r => [r.code]

end Sys2Proof.Machine
end

