-- ==== Sys2Proof/Machine/Flags.lean ====
section
/-! DEFINITION. The flags computed from the state: `rx_done` (R23), the ownership test (R108) and the status outputs
(R27). -/

namespace Sys2Proof.Machine

/-- `rx_done` (R23, R141). -/
def State.rxDone (s : State) : Bool :=
  decide (s.rx.phase = .active) && decide (s.mem.b1.length = s.rx.explen.toNat)

/-- `refused_by_R108(s)`: the decoder holds `B[1]` (R17, R108). -/
def State.owned (s : State) (sel : BufSel) : Bool :=
  decide (sel = .b1) && decide (s.rx.phase = .active)

/-- The two bits of `rx_phase` (R22). -/
def RxPhase.bits : RxPhase → BitVec 2
  | .idle => 0
  | .active => 1
  | .failed => 2

/-- The two bits of `pmode` (R25). -/
def PMode.bits : PMode → BitVec 2
  | .unknown => 0
  | .mark => 1
  | .space => 2

/-- The three bits of `tx_step` (R26). -/
def TxStep.bits : TxStep → BitVec 3
  | .idle => 0
  | .step1 => 1
  | .step2 => 2
  | .step3 => 3
  | .step4 => 4
  | .step5 => 5
  | .step6 => 6

/-- The status outputs of the block (R27). -/
structure StatusOutputs where
  b0Len : BitVec 9
  b1Len : BitVec 9
  rxPhase : BitVec 2
  rxMarked : Bool
  rxEscaped : Bool
  rxDone : Bool
  rxErr : Byte
  rxExplen : BitVec 9
  pmode : BitVec 2
deriving DecidableEq, Repr

/-- What the block drives on its status outputs (R27). -/
def State.status (s : State) : StatusOutputs :=
  { b0Len := BitVec.ofNat 9 (s.mem.len .b0)
    b1Len := BitVec.ofNat 9 (s.mem.len .b1)
    rxPhase := s.rx.phase.bits
    rxMarked := s.rx.marked
    rxEscaped := s.rx.escaped
    rxDone := s.rxDone
    rxErr := s.rx.err
    rxExplen := s.rx.explen
    pmode := s.tx.pmode.bits }

end Sys2Proof.Machine
end

