-- ==== Sys2Proof/Machine/Ops.lean ====
section
/-! DEFINITION. The named operations every meaning is built from: responses, raising an error (R144, R191) and the way
out of it (R133, R145, R193), reset (R211), the deadline (R187), one interaction with the environment (R29), and the
serial-line capability (R48 to R51). -/

namespace Sys2Proof.Machine

/-! ## Updates of one part of the state -/

/-- `B[s]` gets a new content (R16). -/
def State.setBuf (s : State) (sel : BufSel) (bs : List Byte) : State :=
  { s with mem := s.mem.setBuf sel bs }

/-- The state with other decoder registers (R19 to R24). -/
def State.setRx (s : State) (d : Decoder) : State := { s with rx := d }

/-- `pmode <- m` (R25). -/
def State.setPmode (s : State) (m : PMode) : State := { s with tx := { s.tx with pmode := m } }

/-- `tx_step <- k` (R26). -/
def State.setTxStep (s : State) (k : TxStep) : State := { s with tx := { s.tx with txStep := k } }

/-- One response on the response port (R78). -/
def State.cmdReply (s : State) (r : Response) : State :=
  { s with ports := { s.ports with cmdOut := s.ports.cmdOut ++ [r] } }

/-- One response on the raw-byte port (R78). -/
def State.rawReply (s : State) (r : Response) : State :=
  { s with ports := { s.ports with rawOut := s.ports.rawOut ++ [r] } }

/-- One line character on the wire, after every earlier one (R53, R56). -/
def State.emit (s : State) (c : LineChar) : State :=
  { s with env := { s.env with lineTx := s.env.lineTx ++ [c] } }

/-- An entry of `line_ops` (R28). -/
def State.logOp (s : State) (op : LineOp) : State :=
  { s with env := { s.env with lineOps := s.env.lineOps ++ [op] } }

/-- The handshake's position (R171). -/
def State.setHs (s : State) (h : Hs) : State := { s with host := { s.host with hs := h } }

/-- What a command gives: its response and the state it leaves; `answerCmd` returns the response on the response port. -/
def answerCmd (r : Response × State) : Host.Outcome State Fault Refusal := .next (r.2.cmdReply r.1)

/-- The same for a raw byte: the response goes to the raw-byte port. -/
def answerRaw (r : Response × State) : Host.Outcome State Fault Refusal := .next (r.2.rawReply r.1)

/-! ## Errors: entry and way out (R191 to R193) -/

/-- Raising a ProtocolError: the decoder goes to `FAILED`, `rx_err` takes the cause code, and the push stops there with
`Err(ProtocolError, cause)`; everything else stays as it was at the point of detection (R144, R191, R192). -/
def raiseProtocol (c : ProtoCause) (s : State) : Response × State :=
  (.err (.protocol c), s.setRx { s.rx with phase := .failed, err := c.code })

/-- The way out of `FAILED` that makes a fresh decoder with expected length `len` (R133, R193). -/
def freshDecoder (len : BitVec 9) (s : State) : State :=
  (s.setBuf .b1 []).setRx { marked := false, escaped := false, explen := len, phase := .active, err := 0x00 }

/-- The way out of `FAILED` that discards the decoder (R145, R193). -/
def discardDecoder (s : State) : State := s.setRx { s.rx with phase := .idle, err := 0x00 }

/-! ## The events of the environment -/

/-- The reset input: every register of the block at the value of R31; the wire, `raw_rx` and the alarm are not touched,
and neither are the ports' queues and the host (R211; log 8). -/
def resetBlock (s : State) : State :=
  { s with mem := State.reset.mem, rx := State.reset.rx, tx := State.reset.tx }

/-- Whether the handshake has reached step 4's read loop, after its `RX.INIT` (R165, R169). -/
def HsPoint.inReceive : HsPoint → Bool
  | .setA => false
  | .sendA => false
  | .setB => false
  | .sendB => false
  | .init => false
  | .loop => true
  | .push _ => true
  | .get => true
  | .compare => true
  | .stalled => false

/-- Whether the deadline event ends a running handshake: `rx_done` has not become true in step 4 (R169, R187, C7; log
6). -/
def State.deadlineCuts (s : State) : Bool :=
  match s.env.alarm, s.host.hs with
  | .armed, .running pt => !(pt.inReceive && s.rxDone)
  | _, _ => false

/-- The deadline event: an armed alarm fires, once; when it cuts a handshake the result is `TimeoutError` and an
abandoned `TX.SEND` leaves `tx_step = 0`; no other state of the block changes (R187). -/
def deliverDeadline (s : State) : State :=
  match s.env.alarm with
  | .armed =>
    let fired : State := { s with env := { s.env with alarm := .fired } }
    if s.deadlineCuts then (fired.setHs (.ended .timeoutError)).setTxStep .idle else fired
  | _ => s

/-! ## One interaction with the environment -/

/-- The answer to the next interaction: the first of `answers`, or, when there is none, a free one (R29; log 2). -/
def State.nextAnswer (s : State) : LineAnswer :=
  match s.env.answers with
  | a :: _ => a
  | [] => Config.lineAnswer s.env.drawn

/-- The state with that answer taken, and the raw bytes that arrived meanwhile queued in `raw_rx` (R28, R50). -/
def State.takeAnswer (s : State) : State :=
  match s.env.answers with
  | a :: as => { s with env := { s.env with answers := as, rawRx := s.env.rawRx ++ a.arrived } }
  | [] =>
    { s with env :=
        { s.env with
          drawn := s.env.drawn + 1
          rawRx := s.env.rawRx ++ (Config.lineAnswer s.env.drawn).arrived } }

/-- What an interaction finds: the environment's answer, or an event that cuts the operation before it. -/
inductive Turn where
  /-- The interaction goes on with this answer. -/
  | goesOn (a : LineAnswer) (s : State)
  /-- The operation in progress is abandoned. -/
  | cutOff (s : State)
deriving DecidableEq, Repr

/-- One interaction: the answer is taken, and the event it carries is delivered first (R187: between two line
operations, between two operations, or while a read is blocked; R211). DESIGN CHOICE (log 25): an operation that the
event cuts, a blocked read among them, is not performed and leaves no entry in `line_ops`. -/
def nextTurn (s : State) : Turn :=
  match s.nextAnswer.event with
  | none => .goesOn s.nextAnswer s.takeAnswer
  | some .reset => .cutOff (resetBlock s.takeAnswer)
  | some .deadline =>
    if s.takeAnswer.deadlineCuts then .cutOff (deliverDeadline s.takeAnswer)
    else .goesOn s.nextAnswer (deliverDeadline s.takeAnswer)

/-! ## The serial-line capability -/

/-- The parity bit of a character written now (R53): free while `pmode = UNKNOWN` (log 14). -/
def State.parityBit (s : State) : Bool :=
  match s.tx.pmode with
  | .mark => true
  | .space => false
  | .unknown => Config.unknownParity s.env.lineTx.length

/-- Characters put on the wire one after another with the current parity mode (R49, R53). -/
def emitAll : List Byte → State → State
  | [], s => s
  | d :: ds, s => emitAll ds (s.emit ⟨s.parityBit, d⟩)

/-- `Line.setParityMark()` (R48): on `failure`, `pmode` holds no known value. -/
def lineSetParityMark (a : LineAnswer) (s : State) : Bool × State :=
  (!a.fails, (s.setPmode (if a.fails then .unknown else .mark)).logOp (.setParityMark (!a.fails)))

/-- `Line.setParitySpace()` (R48). -/
def lineSetParitySpace (a : LineAnswer) (s : State) : Bool × State :=
  (!a.fails, (s.setPmode (if a.fails then .unknown else .space)).logOp (.setParitySpace (!a.fails)))

/-- What a write answers: a count, or `failure` (R49). -/
def writeReport (a : LineAnswer) : Option Int := if a.fails then none else some a.count

/-- How many of `n` characters a write puts on the wire: the count reported when it is in `0 .. n`; otherwise a free
number in `0 .. n` (R49, U11; log 13). -/
def onWire (a : LineAnswer) (n : Nat) : Nat :=
  if !a.fails && decide (0 ≤ a.count) && decide (a.count ≤ (n : Int)) then a.count.toNat else min a.wired n

/-- `Line.writeBytes(bs)` (R49): never retried. -/
def lineWriteBytes (bs : List Byte) (a : LineAnswer) (s : State) : Option Int × State :=
  (writeReport a, (emitAll (bs.take (onWire a bs.length)) s).logOp (.writeBytes bs (writeReport a)))

/-- `Line.readBytes(maxCount)` (R50): the first `k` bytes of `raw_rx`, removed; `failure` takes none (log 15). DESIGN
CHOICE (log 25): every read is an entry of `line_ops`, as R28(b) words it, where vector P3 counts the operations of the
sends only. -/
def lineReadBytes (maxCount : Nat) (a : LineAnswer) (s : State) : Option (List Byte) × State :=
  if a.fails then (none, s.logOp (.readBytes maxCount none))
  else
    let chunk := s.env.rawRx.take (min a.count.toNat maxCount)
    let rest := s.env.rawRx.drop (min a.count.toNat maxCount)
    let taken : State := { s with env := { s.env with rawRx := rest } }
    (some chunk, taken.logOp (.readBytes maxCount (some chunk)))

/-- `Line.delay(T_SETTLE)` (R51): a recorded event and nothing else. -/
def lineDelay (s : State) : State := s.logOp .delay

end Sys2Proof.Machine
end

