-- ==== Sys2Proof/Machine/MsgBuf.lean ====
section
/-! DEFINITION. The eleven MessageBuffer operations (40_msgbuf.md): what each gives (response and state), then the
meaning of its command. None touches the line, the decoder's flags or `pmode`. -/

namespace Sys2Proof.Machine

/-- The common first test of the writing operations: a write of `B[1]` while the decoder holds it is refused and changes
no state (R108). -/
def ownerCheck (sel : BufSel) (s : State) (write : Response × State) : Response × State :=
  if s.owned sel then (.refused .bufferOwned, s) else write

/-- An append of `bs`: all of it when it fits, nothing otherwise (R46, R93). -/
def appendBytes (sel : BufSel) (bs : List Byte) (s : State) : Response × State :=
  if s.mem.fits sel bs.length then (.ok, s.setBuf sel (s.mem.buf sel ++ bs)) else (.fail .capacityExceeded, s)

/-- What `MB.SETI32` gives (R98); the host's handshake uses it too (R164). -/
def setInt32 (sel : BufSel) (v : Word32) (s : State) : Response × State :=
  ownerCheck sel s (.ok, s.setBuf sel (bytes32 v))

/-- What `MB.GETI32` gives (R99); the host's handshake uses it too (R167). -/
def getInt32 (sel : BufSel) (s : State) : Response × State :=
  match int32Of (s.mem.buf sel) with
  | some v => (.val (.int32 v), s)
  | none => (.fail .wrongLength, s)

/-- `MB.APPEND s, bs` (R93). -/
def execMbAppend (sel : BufSel) (bs : List Byte) (s : State) : Host.Outcome State Fault Refusal :=
  answerCmd (ownerCheck sel s (appendBytes sel bs s))

/-- `MB.APPENDB s, b`: the append of one byte (R94). -/
def execMbAppendb (sel : BufSel) (b : Byte) (s : State) : Host.Outcome State Fault Refusal :=
  answerCmd (ownerCheck sel s (appendBytes sel [b] s))

/-- `MB.RESET s` (R95): the old bytes are gone, since a buffer holds exactly `len` bytes (log 4). -/
def execMbReset (sel : BufSel) (s : State) : Host.Outcome State Fault Refusal :=
  answerCmd (ownerCheck sel s (.ok, s.setBuf sel []))

/-- `MB.LEN s` (R96). -/
def execMbLen (sel : BufSel) (s : State) : Host.Outcome State Fault Refusal :=
  answerCmd (.val (.u16 (BitVec.ofNat 16 (s.mem.len sel))), s)

/-- `MB.CAP s` (R97): the same for either buffer. -/
def execMbCap (_sel : BufSel) (s : State) : Host.Outcome State Fault Refusal :=
  answerCmd (.val (.u16 (BitVec.ofNat 16 Config.capacity)), s)

/-- `MB.SETI32 s, v` (R98). -/
def execMbSeti32 (sel : BufSel) (v : Word32) (s : State) : Host.Outcome State Fault Refusal :=
  answerCmd (setInt32 sel v s)

/-- `MB.GETI32 s` (R99). -/
def execMbGeti32 (sel : BufSel) (s : State) : Host.Outcome State Fault Refusal :=
  answerCmd (getInt32 sel s)

/-- `MB.CKSUM s` (R100). -/
def execMbCksum (sel : BufSel) (s : State) : Host.Outcome State Fault Refusal :=
  answerCmd (.val (.byte (checksum (s.mem.buf sel))), s)

/-- `MB.SETCTL s, sp` (R101). -/
def execMbSetctl (sel : BufSel) (sp : Byte) (s : State) : Host.Outcome State Fault Refusal :=
  answerCmd (ownerCheck sel s (.ok, s.setBuf sel (controlFrame sp)))

/-- `MB.EQ` (R102): equal lengths and equal bytes. -/
def execMbEq (s : State) : Host.Outcome State Fault Refusal :=
  answerCmd (.val (.bool (decide (s.mem.b0 = s.mem.b1))), s)

/-- `MB.HEX s` (R103). -/
def execMbHex (sel : BufSel) (s : State) : Host.Outcome State Fault Refusal :=
  answerCmd (.val (.text (hexText Config.hexUppercase (s.mem.buf sel))), s)

end Sys2Proof.Machine
end

