-- ==== Sys2Proof/Machine/FrameDecoder.lean ====
section
/-! DEFINITION. The FrameDecoder (42_decoder.md): `RX.INIT`, the five cases of `RX.PUSH`, `RX.DROP`. -/

namespace Sys2Proof.Machine

/-! ## What each operation gives -/

/-- Payload handling of a byte value (R140): the marker test, then the length test, then the append. The buffer's own
bounds check stays underneath; it cannot fail while `rx_explen <= CAPACITY` (R140; log 19). -/
def payload (v : Byte) (s : State) : Response × State :=
  if s.rx.marked = false then raiseProtocol .missingMarker s
  else if s.rx.explen.toNat ≤ s.mem.len .b1 then raiseProtocol .overrun s
  else
    match appendBytes .b1 [v] s with
    | (.ok, t) => (.ok, t)
    | (_, t) => raiseProtocol .overrun t

/-- The phase test every push begins with: outside `ACTIVE` the byte is refused and dropped (R134, R144, R189). -/
def ifActive (s : State) (case : Response × State) : Response × State :=
  if s.rx.phase = .active then case else (.refused .notActive, s)

/-- `RAW.ESC` (R138). -/
def caseEsc (s : State) : Response × State := (.ok, s.setRx { s.rx with escaped := true })

/-- `RAW.DATA` (R139). -/
def caseData (b : Byte) (s : State) : Response × State := payload b s

/-- `RAW.MARK` (R135): the duplicate test comes before anything is written. -/
def caseMark (s : State) : Response × State :=
  if s.rx.marked = true then raiseProtocol .duplicateMarker s
  else (.ok, s.setRx { s.rx with marked := true, escaped := false })

/-- `RAW.LITFF` (R136): `rx_escaped` is cleared before payload handling, also when that raises. -/
def caseLitff (s : State) : Response × State := payload Config.esc (s.setRx { s.rx with escaped := false })

/-- `RAW.BADESC` (R137): nothing is written first; the byte is not taken as data. -/
def caseBadesc (_b : Byte) (s : State) : Response × State := raiseProtocol .badEscape s

/-- `RX.PUSH b`, the whole dispatch (R134): used by the host sequence and the pseudo-operations. -/
def rxPush (b : Byte) (s : State) : Response × State :=
  ifActive s
    (if s.rx.escaped then
      if b = Config.markCode then caseMark s
      else if b = Config.esc then caseLitff s
      else caseBadesc b s
    else if b = Config.esc then caseEsc s
    else caseData b s)

/-- What `RX.INIT L` gives (R133, R76); the host's handshake uses it too (R165). -/
def initDecoder (len : BitVec 16) (s : State) : Response × State :=
  if Config.capacity < len.toNat then (.refused .illegalOperand, s)
  else (.ok, freshDecoder (len.setWidth 9) s)

/-! ## Meanings -/

/-- `RX.INIT L` (R133). -/
def execRxInit (len : BitVec 16) (s : State) : Host.Outcome State Fault Refusal := answerCmd (initDecoder len s)

/-- `RX.DROP` (R145). -/
def execRxDrop (s : State) : Host.Outcome State Fault Refusal := answerCmd (.ok, discardDecoder s)

/-- `RX.PUSH 0xFF` unescaped (R134, R138; log 9). -/
def execRawEsc (s : State) : Host.Outcome State Fault Refusal := answerRaw (ifActive s (caseEsc s))

/-- `RX.PUSH b` unescaped (R134, R139). -/
def execRawData (b : Byte) (s : State) : Host.Outcome State Fault Refusal := answerRaw (ifActive s (caseData b s))

/-- `RX.PUSH 0x00` escaped (R134, R135). -/
def execRawMark (s : State) : Host.Outcome State Fault Refusal := answerRaw (ifActive s (caseMark s))

/-- `RX.PUSH 0xFF` escaped (R134, R136). -/
def execRawLitff (s : State) : Host.Outcome State Fault Refusal := answerRaw (ifActive s (caseLitff s))

/-- `RX.PUSH b` escaped, a bad escape code (R134, R137). -/
def execRawBadesc (b : Byte) (s : State) : Host.Outcome State Fault Refusal := answerRaw (ifActive s (caseBadesc b s))

end Sys2Proof.Machine
end

