-- ==== Sys2Proof/Machine/FrameEncoder.lean ====
section
/-! DEFINITION. The FrameEncoder (41_encoder.md): the six steps of `TX.SEND`, each one interaction with the environment,
so that the deadline or a reset can fall between any two of them (R26, R187; assumption log 5). -/

namespace Sys2Proof.Machine

/-- How a `TX.SEND` ends. -/
inductive SendEnd where
  /-- It returns this response. -/
  | finished (r : Response) (s : State)
  /-- It is abandoned and returns no response (R187, R211; log 22). -/
  | abandoned (s : State)
deriving DecidableEq, Repr

/-- The end of a send: `tx_step` returns to 0 (R26, R116, R123). -/
def endSend (r : Response) (s : State) : SendEnd := .finished r (s.setTxStep .idle)

/-- A step that raises an IoError: no later step is performed (R123, R191). -/
def raiseIo (c : IoCause) (s : State) : SendEnd := endSend (.err (.io c)) s

/-- The start of a step: `tx_step` names it (R26), and the environment gives its turn; `k` is the step itself. -/
def sendStep (pos : TxStep) (s : State) (k : LineAnswer → State → SendEnd) : SendEnd :=
  match nextTurn (s.setTxStep pos) with
  | .cutOff t => .abandoned t
  | .goesOn a t => k a t

/-- The content of the buffer being sent (R116). -/
def State.sending (s : State) : List Byte := s.mem.buf s.tx.txSel

/-- Step 6: the settle delay after the frame, then `Ok` (R122). -/
def sendStep6 (s : State) : SendEnd :=
  sendStep .step6 s fun _ t => endSend .ok (lineDelay t)

/-- Step 5: all remaining bytes in one write, if there is any; any count but `N - 1` is an error (R121, C1). -/
def sendStep5 (s : State) : SendEnd :=
  if 1 < s.sending.length then
    sendStep .step5 s fun a t =>
      let w := lineWriteBytes (s.sending.drop 1) a t
      if w.1 = some ((s.sending.length : Int) - 1) then sendStep6 w.2 else raiseIo .write w.2
  else sendStep6 s

/-- Step 4: space parity (R120, R129). -/
def sendStep4 (s : State) : SendEnd :=
  sendStep .step4 s fun a t =>
    let p := lineSetParitySpace a t
    if p.1 then sendStep5 p.2 else raiseIo .configure p.2

/-- Step 3: the settle delay after the marked byte (R119). -/
def sendStep3 (s : State) : SendEnd :=
  sendStep .step3 s fun _ t => sendStep4 (lineDelay t)

/-- Step 2: exactly the first byte; a count below 1 is an error, a count above 1 is not (R118, D14). -/
def sendStep2 (s : State) : SendEnd :=
  sendStep .step2 s fun a t =>
    let w := lineWriteBytes (s.sending.take 1) a t
    match w.1 with
    | none => raiseIo .write w.2
    | some c => if c < 1 then raiseIo .write w.2 else sendStep3 w.2

/-- Step 1: mark parity (R117, R129). -/
def sendStep1 (s : State) : SendEnd :=
  sendStep .step1 s fun a t =>
    let p := lineSetParityMark a t
    if p.1 then sendStep2 p.2 else raiseIo .configure p.2

/-- The whole of `TX.SEND s`: an empty buffer is refused with no line operation (R116, R124). -/
def sendFrame (sel : BufSel) (s : State) : SendEnd :=
  match s.mem.buf sel with
  | [] => .finished (.refused .emptyFrame) s
  | _ :: _ => sendStep1 { s with tx := { s.tx with txSel := sel } }

/-- A send that stands at one of its steps, from that step on (R26: `tx_step` is the next step to perform). -/
def resumeSend (s : State) : SendEnd :=
  match s.tx.txStep with
  | .idle => .abandoned s
  | .step1 => sendStep1 s
  | .step2 => sendStep2 s
  | .step3 => sendStep3 s
  | .step4 => sendStep4 s
  | .step5 => sendStep5 s
  | .step6 => sendStep6 s

/-- The state a `TX.SEND` leaves: its response on the response port, none for an abandoned one. -/
def SendEnd.state : SendEnd → State
  | .finished r s => s.cmdReply r
  | .abandoned s => s

/-- `TX.SEND s` (R116). -/
def execTxSend (sel : BufSel) (s : State) : Host.Outcome State Fault Refusal := .next (sendFrame sel s).state

end Sys2Proof.Machine
end

