-- ==== Sys2Proof/Machine/Wire.lean ====
section
/-! DEFINITION. The wire (30_encoding.md section 1): the two line characters, the frame of a message (R64), and the
reference definition of the receiving driver (R54). -/

namespace Sys2Proof.Machine

/-- `WIRE.MARK`: the line puts the character `(1, d)` on the wire (R53, R63, R64; log 10). -/
def execWireMark (d : Byte) (s : State) : Host.Outcome State Fault Refusal := .next (s.emit ⟨true, d⟩)

/-- `WIRE.SPACE`: the line puts the character `(0, d)` on the wire (R53, R63, R64; log 10). -/
def execWireSpace (d : Byte) (s : State) : Host.Outcome State Fault Refusal := .next (s.emit ⟨false, d⟩)

/-- The 9-bit number of a line character (R63). -/
def LineChar.word (c : LineChar) : BitVec 9 := word9 c.p c.d

/-- The frame of a message: byte 0 with mark parity, the rest with space parity (R64). -/
def frameOf : List Byte → List LineChar
  | [] => []
  | d :: ds => ⟨true, d⟩ :: ds.map (fun x => ⟨false, x⟩)

/-- How the receiving driver reports a data byte: a literal `0xFF` is doubled (R54, R68). -/
def escapeByte (d : Byte) : List Byte := if d = Config.esc then [Config.esc, Config.esc] else [d]

/-- `raw_of_char` (R54): a reference definition, for loop-back models only. -/
def rawOfChar (c : LineChar) : List Byte :=
  if c.p then Config.esc :: Config.markCode :: escapeByte c.d else escapeByte c.d

/-- `raw_of_chars` (R54). -/
def rawOfChars (cs : List LineChar) : List Byte := cs.flatMap rawOfChar

end Sys2Proof.Machine
end

