-- ==== Sys2Proof/Machine/Dispatch.lean ====
section
/-! DEFINITION. One arm per row of the opcode table. -/

namespace Sys2Proof.Machine

def exec (i : Instr) (s : State) : Host.Outcome State Fault Refusal :=
  match i with
  | .mbAppend sel bs => Sys2Proof.Machine.execMbAppend sel bs s
  | .mbAppendb sel b => Sys2Proof.Machine.execMbAppendb sel b s
  | .mbReset sel => Sys2Proof.Machine.execMbReset sel s
  | .mbLen sel => Sys2Proof.Machine.execMbLen sel s
  | .mbCap sel => Sys2Proof.Machine.execMbCap sel s
  | .mbSeti32 sel v => Sys2Proof.Machine.execMbSeti32 sel v s
  | .mbGeti32 sel => Sys2Proof.Machine.execMbGeti32 sel s
  | .mbCksum sel => Sys2Proof.Machine.execMbCksum sel s
  | .mbSetctl sel sp => Sys2Proof.Machine.execMbSetctl sel sp s
  | .mbEq => Sys2Proof.Machine.execMbEq s
  | .mbHex sel => Sys2Proof.Machine.execMbHex sel s
  | .txSend sel => Sys2Proof.Machine.execTxSend sel s
  | .rxInit len => Sys2Proof.Machine.execRxInit len s
  | .rxDrop => Sys2Proof.Machine.execRxDrop s
  | .rawEsc => Sys2Proof.Machine.execRawEsc s
  | .rawData b => Sys2Proof.Machine.execRawData b s
  | .rawMark => Sys2Proof.Machine.execRawMark s
  | .rawLitff => Sys2Proof.Machine.execRawLitff s
  | .rawBadesc b => Sys2Proof.Machine.execRawBadesc b s
  | .wireMark d => Sys2Proof.Machine.execWireMark d s
  | .wireSpace d => Sys2Proof.Machine.execWireSpace d s

end Sys2Proof.Machine
end

