-- ==== Sys2Proof/Machine/Handshake.lean ====
section
/-! DEFINITION. The handshake HS.RUN, the host's sequence of operations on the block (43_handshake.md). Each step of the
host is one interaction, so that the deadline can fall between any two operations (R169, R187). -/

namespace Sys2Proof.Machine

/-- HS.RUN begins: the two draws, the expected sum by wrapping addition, the alarm armed before the first send (R162,
R163, R169, R171); a failing entropy source ends it with nothing sent (R162). -/
def hsBegin (draw : Option (Word32 × Word32)) (s : State) : State :=
  match draw with
  | none => s.setHs (.ended (.ioError .entropy))
  | some (x, y) =>
    { s with
      host := { s.host with hs := .running .setA, a := x, b := y, expectedSum := x + y }
      env := { s.env with alarm := .armed } }

/-- The host goes to a point of the sequence. -/
def State.hsGoto (s : State) (pt : HsPoint) : State := s.setHs (.running pt)

/-- The handshake ends with a result (R170, R171). -/
def State.hsEnd (s : State) (r : HsResult) : State := s.setHs (.ended r)

/-- The host's variable `receivedSum` (R167). -/
def State.setReceived (s : State) (v : Word32) : State := { s with host := { s.host with receivedSum := v } }

/-- The error a result reports to the caller, with the codes of R78 (R170, R179). -/
def HsResult.error : HsResult → Option ErrCause
  | .success => none
  | .ioError c => some (.io c)
  | .protocolError c => some (.protocol c)
  | .verificationError _ _ => some .verification
  | .timeoutError => some .timeout

/-- A `TX.SEND 0` of the handshake (R164): an error response ends it; an abandoned send gives the host no response to go
on from (R187 has ended it already when the deadline cut it; after a reset the host waits, log 8). DESIGN CHOICE (log 8,
log 23): a reset that falls after the handshake's `MB.SETI32 0` and before the first line operation of its `TX.SEND 0` is
always taken inside the send, which it abandons; it is never taken before the send, which would then find `B[0]` empty
and be refused with `EmptyFrame`. -/
def hsSend (onward : HsPoint) (s : State) : State :=
  match sendFrame .b0 s with
  | .finished (.err (.io c)) t => (t.cmdReply (.err (.io c))).hsEnd (.ioError c)
  | .finished r t => (t.cmdReply r).hsGoto onward
  | .abandoned t =>
    match t.host.hs with
    | .running _ => t.hsGoto .stalled
    | _ => t

/-- A step of the host that is no line operation: an event may fall before it (R187), then `k` is performed. -/
def hsTurn (s : State) (k : State → State) : State :=
  match nextTurn s with
  | .cutOff t => t
  | .goesOn _ t => k t

/-- Where the host goes after a pushed byte that was accepted: out of the loop when it looks at `rx_done` per byte and
finds it true (R165, R166), else to the rest of the chunk. DESIGN CHOICE (log 23): the test stands in one move with the
push before it, so that no reset (R211) falls between the two. -/
def hsAfterPush (chk : RxDoneCheck) (rest : List Byte) (s : State) : State :=
  if chk = .perByte && s.rxDone then s.hsGoto .get
  else match rest with
    | [] => s.hsGoto .loop
    | _ :: _ => s.hsGoto (.push rest)

/-- `RX.PUSH x` of the read loop: a ProtocolError ends the handshake (R165, R170). DESIGN CHOICE (log 23): neither the
deadline nor a reset falls between the push and what the host does on its response. -/
def hsPush (chk : RxDoneCheck) (x : Byte) (rest : List Byte) (s : State) : State :=
  match rxPush x s with
  | (.err (.protocol c), t) => (t.rawReply (.err (.protocol c))).hsEnd (.protocolError c)
  | (r, t) => hsAfterPush chk rest (t.rawReply r)

/-- One read of the loop (R165): `failure` is IoError(Read); an empty chunk goes round again. DESIGN CHOICE (log 25): the
spec does not say whether a read that is blocked when the deadline or a reset cuts it, and so has no answer, appears in
`line_ops`; here the event is delivered before the read, which takes no byte and is not recorded. -/
def hsRead (maxChunk : Nat) (s : State) : State :=
  match nextTurn s with
  | .cutOff t => t
  | .goesOn a t =>
    match lineReadBytes maxChunk a t with
    | (none, u) => u.hsEnd (.ioError .read)
    | (some [], u) => u.hsGoto .loop
    | (some (x :: xs), u) => u.hsGoto (.push (x :: xs))

/-- `receivedSum <- MB.GETI32 1` (R167); without a value the host has nothing to compare (log 8). -/
def hsGet (s : State) : State :=
  match getInt32 .b1 s with
  | (.val (.int32 v), t) =>
    ((t.cmdReply (.val (.int32 v))).setReceived v).hsGoto .compare
  | (r, t) => (t.cmdReply r).hsGoto .stalled

/-- Step 6 (R168). -/
def hsCompare (s : State) : State :=
  if s.host.receivedSum = s.host.expectedSum then s.hsEnd .success
  else s.hsEnd (.verificationError s.host.receivedSum s.host.expectedSum)

/-- A command of the handshake whose response the host does not test. -/
def hsCommand (onward : HsPoint) (r : Response × State) : State := (r.2.cmdReply r.1).hsGoto onward

/-- One step of a running HS.RUN (R171). DESIGN CHOICE (log 23): neither the deadline nor a reset falls before the test of
`rx_done` at the top of the loop when it is true, before the comparison of step 6, before the point `push` with no byte
left, or before a `TX.SEND` of an empty buffer, nor between an operation and what the host does on its response (the
per-byte test of `rx_done` after a push among it), which is one move with it; before every other move of the host, and
between the line operations of a send, either may fall (R187, R211). -/
def hsStep (chk : RxDoneCheck) (maxChunk : Nat) (pt : HsPoint) (s : State) : State :=
  match pt with
  | .setA => hsTurn s fun t => hsCommand .sendA (setInt32 .b0 t.host.a t)
  | .sendA => hsSend .setB s
  | .setB => hsTurn s fun t => hsCommand .sendB (setInt32 .b0 t.host.b t)
  | .sendB => hsSend .init s
  | .init => hsTurn s fun t => hsCommand .loop (initDecoder (Config.expLenDefault.setWidth 16) t)
  | .loop => if s.rxDone then s.hsGoto .get else hsRead maxChunk s
  | .push [] => s.hsGoto .loop
  | .push (x :: rest) => hsTurn s (hsPush chk x rest)
  | .get => hsTurn s hsGet
  | .compare => hsCompare s
  | .stalled => hsTurn s id

end Sys2Proof.Machine
end

