-- ==== Sys2Proof/Machine/Fetch.lean ====
section
/-! DEFINITION. How the block takes an operation from its ports (R18, R71, R75, R134), and how the outside's requests are
served. Step.lean only calls these. -/

namespace Sys2Proof.Machine

/-- The state with the first request of the outside taken. -/
def State.withMoves (s : State) (ms : List Move) : State := { s with ports := { s.ports with moves := ms } }

/-- The state with other bytes waiting on the command port. -/
def State.withCmdIn (s : State) (bs : List Byte) : State := { s with ports := { s.ports with cmdIn := bs } }

/-- The state with other bytes waiting on the raw-byte port. -/
def State.withRawIn (s : State) (bs : List Byte) : State := { s with ports := { s.ports with rawIn := bs } }

/-- A command is taken from the command port and run. A reserved opcode byte is taken alone and answered
`Refused(IllegalCommand)` (R75). A command that has not arrived in full stays on the port (log 12). -/
def takeCommand (s : State) : Host.Outcome State Fault Refusal :=
  match decodeCmd s.ports.cmdIn with
  | .instr i rest => exec i (s.withCmdIn rest)
  | .illegalCommand _ rest => answerCmd (.refused .illegalCommand, s.withCmdIn rest)
  | .incomplete => .next s

/-- A raw byte is taken from the raw-byte port and pushed into the decoder: its case is found from `rx_escaped` (R67,
R134). DESIGN CHOICE (log 12): the spec has no request to push while the raw-byte port holds no byte; here the request is
used up, nothing is pushed, no response is returned and no register changes. -/
def takeRaw (s : State) : Host.Outcome State Fault Refusal :=
  match s.ports.rawIn with
  | [] => .next s
  | b :: rest => exec (decodeRaw s.rx.escaped b) (s.withRawIn rest)

/-- The host reads the line once outside the handshake: the bytes leave `raw_rx` and are the host's (R50, R218; log
15). DESIGN CHOICE (log 15): R50 and R211 do not say what becomes of a read before which a reset falls; here the host's
request is used up and no read is performed, so that no byte leaves `raw_rx` and nothing is recorded. -/
def takeReadLine (s : State) : State :=
  match nextTurn s with
  | .cutOff t => t
  | .goesOn a t => (lineReadBytes Config.rxChunkMax a t).2

/-- One request of the outside, while no handshake and no send is in progress (log 3). -/
def serve (m : Move) (s : State) : Host.Outcome State Fault Refusal :=
  match m with
  | .cmd => takeCommand s
  | .raw => takeRaw s
  | .wire ch => exec (decodeWire ch) s
  | .readLine => .next (takeReadLine s)
  | .hsRun draw => .next (hsBegin draw s)
  | .deadline => .next (deliverDeadline s)
  | .reset => .next (resetBlock s)

/-- One step of the machine: a `TX.SEND` in progress goes on (R26), else a running handshake makes its next move (R161),
else the outside's next request is served; with none, the block waits (R201, R211; log 3). -/
def advance (s : State) : Host.Outcome State Fault Refusal :=
  if s.tx.txStep = .idle then
    match s.host.hs with
    | .running pt => .next (hsStep Config.rxDoneCheck Config.rxChunkMax pt s)
    | _ =>
      match s.ports.moves with
      | [] => .next s
      | m :: ms => serve m (s.withMoves ms)
  else .next (resumeSend s).state

/-- A handshake that is running is taken away, so that the next step serves the outside. -/
def quietHs : Hs → Hs
  | .running _ => .idle
  | .idle => .idle
  | .ended r => .ended r

/-- A table word where the next step fetches (log 11): a command's bytes at the front of the command port and a request
to take a command; a raw word's byte on the raw-byte port, its bit 8 in `rx_escaped`, and a request to push. -/
def placeFetchWord (s : State) (nbits w : Nat) : State :=
  let free : State := (s.setTxStep .idle).setHs (quietHs s.host.hs)
  if isRawWidth nbits then
    ((free.setRx { s.rx with escaped := w.testBit 8 }).withRawIn (BitVec.ofNat 8 w :: s.ports.rawIn)).withMoves
      (.raw :: s.ports.moves)
  else
    (free.withCmdIn (tableBytes (max 5 ((nbits + 7) / 8)) w ++ s.ports.cmdIn)).withMoves (.cmd :: s.ports.moves)

end Sys2Proof.Machine
end

