-- ==== Sys2Proof/Machine/Pseudo.lean ====
section
/-! DEFINITION. The pseudo-operations (R80) and the assembler's writing of an operation (R79). -/

namespace Sys2Proof.Machine

/-- `TX.FRAME32 v` (R80). -/
def txFrame32 (v : Word32) : List Instr := [.mbSeti32 .b0 v, .txSend .b0]

/-- `MB.SET s, bs` (R80). -/
def mbSet (sel : BufSel) (bs : List Byte) : List Instr := [.mbReset sel, .mbAppend sel bs]

/-- The operations of an expansion, one after another (R56). -/
def execAll : List Instr → State → Host.Outcome State Fault Refusal
  | [], s => .next s
  | i :: is, s =>
    match exec i s with
    | .next t => execAll is t
    | .fault f => .fault f
    | .refused r => .refused r

/-- `RX.FEED`: pushes in order, stopping at the first push that is not answered `Ok` (R80). -/
def rxFeed : List Byte → State → State
  | [], s => s
  | b :: bs, s =>
    match rxPush b s with
    | (.ok, t) => rxFeed bs (t.rawReply .ok)
    | (r, t) => t.rawReply r

/-- `RX.FEEDUNTIL`: as `RX.FEED`, stopping also after the first push that leaves `rx_done` true (R80). -/
def rxFeedUntil : List Byte → State → State
  | [], s => s
  | b :: bs, s =>
    match rxPush b s with
    | (.ok, t) => if t.rxDone then t.rawReply .ok else rxFeedUntil bs (t.rawReply .ok)
    | (r, t) => t.rawReply r

/-- `HS.RUN` (R80, R171): its start, then at most `fuel` steps of the host, until it has ended. The read loop has no
bound of its own (R165, R224), so a run may be cut short by `fuel`. -/
def hsRun (chk : RxDoneCheck) (maxChunk : Nat) (draw : Option (Word32 × Word32)) (fuel : Nat) (s : State) : State :=
  (List.range fuel).foldl
    (fun t _ => match t.host.hs with
      | .running pt => hsStep chk maxChunk pt t
      | _ => t)
    (hsBegin draw s)

/-! ## Assembler writing (R79) -/

/-- The mnemonic of an operation as spec/opcode_table.json spells it. -/
def mnemonic : Instr → String
  | .mbAppend _ _ => "MB.APPEND"
  | .mbAppendb _ _ => "MB.APPENDB"
  | .mbReset _ => "MB.RESET"
  | .mbLen _ => "MB.LEN"
  | .mbCap _ => "MB.CAP"
  | .mbSeti32 _ _ => "MB.SETI32"
  | .mbGeti32 _ => "MB.GETI32"
  | .mbCksum _ => "MB.CKSUM"
  | .mbSetctl _ _ => "MB.SETCTL"
  | .mbEq => "MB.EQ"
  | .mbHex _ => "MB.HEX"
  | .txSend _ => "TX.SEND"
  | .rxInit _ => "RX.INIT"
  | .rxDrop => "RX.DROP"
  | .rawEsc => "RAW.ESC"
  | .rawData _ => "RAW.DATA"
  | .rawMark => "RAW.MARK"
  | .rawLitff => "RAW.LITFF"
  | .rawBadesc _ => "RAW.BADESC"
  | .wireMark _ => "WIRE.MARK"
  | .wireSpace _ => "WIRE.SPACE"

/-- A buffer operand (R79). -/
def asmSel : BufSel → String
  | .b0 => "0"
  | .b1 => "1"

/-- A byte operand, written `0x..` with two digits (R79). -/
def asmByte (b : Byte) : String :=
  "0x" ++ String.ofList ((hexByte true b).map (fun d => Char.ofNat d.toNat))

/-- A byte sequence, in braces (characters 123 and 125; R79). -/
def asmBytes (bs : List Byte) : String :=
  String.ofList [Char.ofNat 123] ++ String.intercalate ", " (bs.map asmByte) ++ String.ofList [Char.ofNat 125]

/-- The operation as the assembler writes it (R79): a raw-stream case is the `RX.PUSH` of its byte; a line character,
which is no operation of the host, is its row's name and its data byte. -/
def asm (i : Instr) : String :=
  match i with
  | .mbAppend s bs => mnemonic i ++ " " ++ asmSel s ++ ", " ++ asmBytes bs
  | .mbAppendb s b => mnemonic i ++ " " ++ asmSel s ++ ", " ++ asmByte b
  | .mbReset s => mnemonic i ++ " " ++ asmSel s
  | .mbLen s => mnemonic i ++ " " ++ asmSel s
  | .mbCap s => mnemonic i ++ " " ++ asmSel s
  | .mbSeti32 s v => mnemonic i ++ " " ++ asmSel s ++ ", " ++ toString v.toInt
  | .mbGeti32 s => mnemonic i ++ " " ++ asmSel s
  | .mbCksum s => mnemonic i ++ " " ++ asmSel s
  | .mbSetctl s sp => mnemonic i ++ " " ++ asmSel s ++ ", " ++ asmByte sp
  | .mbEq => mnemonic i
  | .mbHex s => mnemonic i ++ " " ++ asmSel s
  | .txSend s => mnemonic i ++ " " ++ asmSel s
  | .rxInit len => mnemonic i ++ " " ++ toString len.toNat
  | .rxDrop => mnemonic i
  | .rawEsc => "RX.PUSH " ++ asmByte Config.esc
  | .rawData b => "RX.PUSH " ++ asmByte b
  | .rawMark => "RX.PUSH " ++ asmByte Config.markCode
  | .rawLitff => "RX.PUSH " ++ asmByte Config.esc
  | .rawBadesc b => "RX.PUSH " ++ asmByte b
  | .wireMark d => mnemonic i ++ " " ++ asmByte d
  | .wireSpace d => mnemonic i ++ " " ++ asmByte d

end Sys2Proof.Machine
end

