-- ==== Sys2Proof/Safety.lean ====
section
/-! DEFINITION. What statements call a good state and a good answer of the environment, the operation a step performs, and
a fair run. -/

namespace Sys2Proof.Machine

/-- The registers of the block hold legal values: neither buffer is longer than `CAPACITY` (R14); `rx_explen` is at most
`CAPACITY` (R21); no send is in progress between two steps (R26); `rx_err` is a ProtocolError's code in `FAILED` and
`0x00` otherwise (R24); while the decoder is `ACTIVE` the payload is no longer than expected (R140), and before the
start marker it is empty (R140). -/
def State.Good (s : State) : Prop :=
  s.mem.wf ∧ s.rx.explen.toNat ≤ Config.capacity ∧ s.tx.txStep = .idle ∧
    (s.rx.phase = .failed → ∃ c : ProtoCause, s.rx.err = c.code) ∧
    (s.rx.phase ≠ .failed → s.rx.err = 0x00) ∧
    (s.rx.phase = .active → s.mem.b1.length ≤ s.rx.explen.toNat) ∧
    (s.rx.phase = .active → s.rx.marked = false → s.mem.b1 = [])

/-- The host's side of a handshake: while it runs the expected sum is the wrapping sum of the operands (R163) and the
alarm has been armed (R169); it has succeeded only on equal sums, and a verification failure names two unequal values
(R168). -/
def State.HandshakeSound (s : State) : Prop :=
  match s.host.hs with
  | .idle => True
  | .running _ => s.host.expectedSum = s.host.a + s.host.b ∧ s.env.alarm ≠ .off
  | .ended .success => s.host.receivedSum = s.host.expectedSum ∧ s.host.expectedSum = s.host.a + s.host.b
  | .ended (.verificationError r e) =>
      r = s.host.receivedSum ∧ e = s.host.expectedSum ∧ r ≠ e ∧ s.host.expectedSum = s.host.a + s.host.b
  | .ended _ => True

/-- The block is free for a request of the outside: no send is in progress and no handshake runs (R18, R26, R161). -/
def State.Free (s : State) : Prop := s.tx.txStep = .idle ∧ ∀ pt, s.host.hs ≠ .running pt

/-- An answer that brings nothing: no event before the interaction, no byte arriving. -/
def quietAnswer (fails : Bool) (count : Int) (wired : Nat) : LineAnswer :=
  { event := none, arrived := [], fails := fails, count := count, wired := wired }

/-- The answers of an environment that is favourable to a frame of `n` bytes (95_test_vectors.md section 3: every
set-parity answers `ok`, every write the count requested), no event falling and no byte arriving. -/
def favourable (n : Nat) : List LineAnswer :=
  [quietAnswer false 0 0, quietAnswer false 1 0, quietAnswer false 0 0, quietAnswer false 0 0] ++
    (if 1 < n then [quietAnswer false ((n : Int) - 1) 0] else []) ++ [quietAnswer false 0 0]

/-- The state with these answers of the environment coming next. -/
def State.withAnswers (s : State) (as : List LineAnswer) : State := { s with env := { s.env with answers := as } }

/-- The block's own registers: all but the environment, the ports and the host (R31, R211). -/
def State.block (s : State) : Memory × Decoder × Encoder := (s.mem, s.rx, s.tx)

/-! ## What statements say of two states -/

/-- The other buffer. -/
def otherBuf : BufSel → BufSel
  | .b0 => .b1
  | .b1 => .b0

/-- `t` has one response more than `s` on the response port, and no other difference on the ports. -/
def State.RepliesCmd (s t : State) (r : Response) : Prop :=
  t.ports = { s.ports with cmdOut := s.ports.cmdOut ++ [r] }

/-- `t` has one response more than `s` on the raw-byte port, and no other difference on the ports. -/
def State.RepliesRaw (s t : State) (r : Response) : Prop :=
  t.ports = { s.ports with rawOut := s.ports.rawOut ++ [r] }

/-- Every byte of a buffer reads in `t` as in `s` (so its length is the same too). -/
def State.KeepsBuf (s t : State) (sel : BufSel) : Prop := ∀ i, t.mem.read sel i = s.mem.read sel i

/-- The encoder, the line and the rest of the environment, and the host are the same in `t` as in `s`. -/
def State.KeepsOutside (s t : State) : Prop := t.tx = s.tx ∧ t.env = s.env ∧ t.host = s.host

/-- The decoder holds `B[1]` and the command would write it (R108). -/
def State.HeldByDecoder (s : State) (sel : BufSel) : Prop := sel = .b1 ∧ s.rx.phase = .active

/-- The five cases of `RX.PUSH` (R67). -/
def isPush : Instr → Bool
  | .rawEsc => true
  | .rawData _ => true
  | .rawMark => true
  | .rawLitff => true
  | .rawBadesc _ => true
  | .mbAppend _ _ => false
  | .mbAppendb _ _ => false
  | .mbReset _ => false
  | .mbLen _ => false
  | .mbCap _ => false
  | .mbSeti32 _ _ => false
  | .mbGeti32 _ => false
  | .mbCksum _ => false
  | .mbSetctl _ _ => false
  | .mbEq => false
  | .mbHex _ => false
  | .txSend _ => false
  | .rxInit _ => false
  | .rxDrop => false
  | .wireMark _ => false
  | .wireSpace _ => false

/-- Whether an operation is one of R16's writers of a given buffer. -/
def writesBuffer (sel : BufSel) : Instr → Bool
  | .mbAppend s _ => decide (s = sel)
  | .mbAppendb s _ => decide (s = sel)
  | .mbReset s => decide (s = sel)
  | .mbSeti32 s _ => decide (s = sel)
  | .mbSetctl s _ => decide (s = sel)
  | .rxInit _ => decide (sel = .b1)
  | .rawData _ => decide (sel = .b1)
  | .rawLitff => decide (sel = .b1)
  | .mbLen _ => false
  | .mbCap _ => false
  | .mbGeti32 _ => false
  | .mbCksum _ => false
  | .mbEq => false
  | .mbHex _ => false
  | .txSend _ => false
  | .rxDrop => false
  | .rawEsc => false
  | .rawMark => false
  | .rawBadesc _ => false
  | .wireMark _ => false
  | .wireSpace _ => false

/-! ## The operation a step performs -/

/-- The operation of the block that the host of a running handshake performs at a point of the sequence (R171); none
where it reads the line, compares, or waits. -/
def State.hostOperation (s : State) : HsPoint → Option Instr
  | .setA => some (.mbSeti32 .b0 s.host.a)
  | .sendA => some (.txSend .b0)
  | .setB => some (.mbSeti32 .b0 s.host.b)
  | .sendB => some (.txSend .b0)
  | .init => some (.rxInit 4)
  | .loop => none
  | .push [] => none
  | .push (x :: _) => some (decodeRaw s.rx.escaped x)
  | .get => some (.mbGeti32 .b1)
  | .compare => none
  | .stalled => none

/-- The operation a request of the outside asks for: the command decoded from the command port, the case of the next raw
byte, a line character; none for a read of the line, a handshake's start or an event. -/
def State.askedOperation (s : State) : Move → Option Instr
  | .cmd =>
    match decodeCmd s.ports.cmdIn with
    | .instr i _ => some i
    | .illegalCommand _ _ => none
    | .incomplete => none
  | .raw => s.ports.rawIn.head?.map (decodeRaw s.rx.escaped)
  | .wire ch => some (decodeWire ch)
  | .readLine => none
  | .hsRun _ => none
  | .deadline => none
  | .reset => none

/-- The operation the next step performs, if any: the send in progress, else the running handshake's, else the one the
outside asks for. -/
def State.nextOperation (s : State) : Option Instr :=
  if s.tx.txStep = .idle then
    match s.host.hs with
    | .running pt => s.hostOperation pt
    | .idle => s.ports.moves.head?.bind s.askedOperation
    | .ended _ => s.ports.moves.head?.bind s.askedOperation
  else some (.txSend s.tx.txSel)

/-! ## Runs, and the fairness premise of R224 -/

/-- The state after `n` steps. -/
def stepN : Nat → State → State
  | 0, s => s
  | n + 1, s =>
    match step s with
    | .next t => stepN n t
    | .fault _ => s
    | .refused _ => s

/-- Something has ended the read loop of the handshake: no handshake is running, or `rx_done` has become true in its step
4 (R165, R169). -/
def State.LoopOver (s : State) : Prop :=
  (∀ pt, s.host.hs ≠ .running pt) ∨ ∃ pt, s.host.hs = .running pt ∧ pt.inReceive = true ∧ s.rxDone = true

/-- The fairness premise of R224 (D24) on the run from `s`: wherever the alarm is armed, either something ends the loop
or the environment delivers `DEADLINE` later on. It is a premise for statements about runs; the environment's answers
themselves stay unconstrained (log 2, log 24). -/
def State.FairRun (s : State) : Prop :=
  ∀ n, (stepN n s).env.alarm = .armed →
    ∃ k, (stepN (n + k) s).LoopOver ∨ (stepN (n + k) s).env.alarm = .fired

/-- How many raw bytes of the chunk it has read the host still has to push (R165). -/
def HsPoint.toPush : HsPoint → Nat
  | .push chunk => chunk.length
  | .setA => 0
  | .sendA => 0
  | .setB => 0
  | .sendB => 0
  | .init => 0
  | .loop => 0
  | .get => 0
  | .compare => 0
  | .stalled => 0

/-! ## Tables of the spec -/

/-- The 16 digits of the text form, in ASCII (R103). -/
def hexChars : List Byte :=
  [0x30, 0x31, 0x32, 0x33, 0x34, 0x35, 0x36, 0x37, 0x38, 0x39, 0x41, 0x42, 0x43, 0x44, 0x45, 0x46]

/-- The reserved opcode bytes as R75 lists them. -/
def reservedOpcode (op : Nat) : Bool :=
  decide (op ≤ 0x0F) || decide (op = 0x23) || (decide (0x26 ≤ op) && decide (op ≤ 0x2F)) ||
    (decide (0x32 ≤ op) && decide (op ≤ 0x3F)) || decide (op = 0x41) || (decide (0x43 ≤ op) && decide (op ≤ 0xFF))

/-- A quiet answer with nothing to report. -/
def quiet : LineAnswer := quietAnswer false 0 0

/-- The answers of an environment in which both sends of a handshake go well and then one read of `n` bytes brings the
peer's raw bytes, nothing arriving or falling otherwise (R171; 95_test_vectors.md section 6). -/
def handshakeAnswers (bs : List Byte) : List LineAnswer :=
  quiet :: (favourable 4 ++ quiet :: (favourable 4 ++
    [quiet, { quietAnswer false bs.length 0 with arrived := bs }] ++ List.replicate 11 quiet))

end Sys2Proof.Machine
end

