-- ==== Sys2Proof/Certificates/Slice0/Obligations.lean ====
section
/-! DEFINITION. The statements. Each docstring names the rule of spec/ it formalises, or, where it rests on a choice of
the model or on an inference of the spec, the log entry or the spec's section. -/

open Sys2Proof Sys2Proof.Machine

/-! ## MessageBuffer (40_msgbuf.md) -/

/-- R93, with R108's refusal: an append writes all its bytes at index `len`, or nothing. -/
def Obligations.AppendWritesAllOrNothing : Prop :=
  ∀ (sel : BufSel) (bs : List Byte) (s : State),
    ∃ t, exec (.mbAppend sel bs) s = .next t ∧ s.KeepsOutside t ∧ t.rx = s.rx ∧ s.KeepsBuf t (otherBuf sel) ∧
      (s.HeldByDecoder sel → t.mem = s.mem ∧ s.RepliesCmd t (.refused .bufferOwned)) ∧
      (¬ s.HeldByDecoder sel → s.mem.len sel + bs.length ≤ 256 →
        s.RepliesCmd t .ok ∧ t.mem.len sel = s.mem.len sel + bs.length ∧
        (∀ i, i < s.mem.len sel → t.mem.read sel i = s.mem.read sel i) ∧
        (∀ i, i < bs.length → t.mem.read sel (s.mem.len sel + i) = bs[i]?)) ∧
      (¬ s.HeldByDecoder sel → 256 < s.mem.len sel + bs.length →
        t.mem = s.mem ∧ s.RepliesCmd t (.fail .capacityExceeded)) ∧
      (bs.length < 65536 → ∀ ps,
        decodeCmd (opByte 0x10 sel :: (bytes16 (BitVec.ofNat 16 bs.length) ++ (bs ++ ps))) = .instr (.mbAppend sel bs) ps)

/-- R94, with R108's refusal: the append of one byte. -/
def Obligations.AppendbWritesOneByte : Prop :=
  ∀ (sel : BufSel) (b : Byte) (s : State),
    exec (.mbAppendb sel b) s = exec (.mbAppend sel [b]) s ∧
    ∃ t, exec (.mbAppendb sel b) s = .next t ∧ s.KeepsOutside t ∧ t.rx = s.rx ∧ s.KeepsBuf t (otherBuf sel) ∧
      (s.HeldByDecoder sel → t.mem = s.mem ∧ s.RepliesCmd t (.refused .bufferOwned)) ∧
      (¬ s.HeldByDecoder sel → s.mem.len sel < 256 →
        s.RepliesCmd t .ok ∧ t.mem.len sel = s.mem.len sel + 1 ∧ t.mem.read sel (s.mem.len sel) = some b ∧
        ∀ i, i < s.mem.len sel → t.mem.read sel i = s.mem.read sel i) ∧
      (¬ s.HeldByDecoder sel → 256 ≤ s.mem.len sel → t.mem = s.mem ∧ s.RepliesCmd t (.fail .capacityExceeded)) ∧
      ∀ ps, decodeCmd (opByte 0x12 sel :: b :: ps) = .instr (.mbAppendb sel b) ps

/-- R95, with R108's refusal: reset empties the buffer, and no old byte can be read afterwards. -/
def Obligations.ResetEmptiesBuffer : Prop :=
  ∀ (sel : BufSel) (s : State),
    ∃ t, exec (.mbReset sel) s = .next t ∧ s.KeepsOutside t ∧ t.rx = s.rx ∧ s.KeepsBuf t (otherBuf sel) ∧
      (s.HeldByDecoder sel → t.mem = s.mem ∧ s.RepliesCmd t (.refused .bufferOwned)) ∧
      (¬ s.HeldByDecoder sel → s.RepliesCmd t .ok ∧ t.mem.len sel = 0 ∧ ∀ i, t.mem.read sel i = none) ∧
      ∀ ps, decodeCmd (opByte 0x14 sel :: ps) = .instr (.mbReset sel) ps

/-- R96: `MB.LEN` returns the length and writes no state, whoever holds the buffer; the value's two bytes follow the status
byte, the low byte first (R78). -/
def Obligations.LenReportsLength : Prop :=
  ∀ (sel : BufSel) (s : State),
    ∃ t, exec (.mbLen sel) s = .next t ∧ s.KeepsOutside t ∧ t.rx = s.rx ∧ t.mem = s.mem ∧
      (∃ (v : BitVec 16) (x0 x1 : Byte), s.RepliesCmd t (.val (.u16 v)) ∧ (s.mem.wf → v.toNat = s.mem.len sel) ∧
        (Response.val (.u16 v)).bytes = [0x00, x0, x1] ∧ v.toNat = x0.toNat + 256 * x1.toNat) ∧
      ∀ ps, decodeCmd (opByte 0x16 sel :: ps) = .instr (.mbLen sel) ps

/-- R97: `MB.CAP` returns 256 for either buffer, in every state, and writes no state. -/
def Obligations.CapReportsCapacity : Prop :=
  ∀ (sel : BufSel) (s : State),
    ∃ t, exec (.mbCap sel) s = .next t ∧ s.KeepsOutside t ∧ t.rx = s.rx ∧ t.mem = s.mem ∧
      s.RepliesCmd t (.val (.u16 256)) ∧ ∀ ps, decodeCmd (opByte 0x18 sel :: ps) = .instr (.mbCap sel) ps

/-- R98, with R108's refusal: the four little-endian bytes, length 4, whatever the old content. -/
def Obligations.SetInt32StoresLittleEndian : Prop :=
  ∀ (sel : BufSel) (v : Word32) (s : State),
    ∃ t, exec (.mbSeti32 sel v) s = .next t ∧ s.KeepsOutside t ∧ t.rx = s.rx ∧ s.KeepsBuf t (otherBuf sel) ∧
      (s.HeldByDecoder sel → t.mem = s.mem ∧ s.RepliesCmd t (.refused .bufferOwned)) ∧
      (¬ s.HeldByDecoder sel → s.RepliesCmd t .ok ∧ t.mem.len sel = 4 ∧
        ∀ i, i < 4 → t.mem.read sel i = some (BitVec.ofNat 8 (v.toNat / 256 ^ i))) ∧
      ∀ x0 x1 x2 x3 ps, v.toNat = x0.toNat + 256 * x1.toNat + 65536 * x2.toNat + 16777216 * x3.toNat →
        decodeCmd (opByte 0x1A sel :: x0 :: x1 :: x2 :: x3 :: ps) = .instr (.mbSeti32 sel v) ps

/-- R99: little-endian assembly, signed by the top bit; a failure for every length but 4; no state is written. -/
def Obligations.GetInt32AssemblesSigned : Prop :=
  ∀ (sel : BufSel) (s : State),
    ∃ t, exec (.mbGeti32 sel) s = .next t ∧ s.KeepsOutside t ∧ t.rx = s.rx ∧ t.mem = s.mem ∧
      (s.mem.len sel ≠ 4 → s.RepliesCmd t (.fail .wrongLength)) ∧
      (∀ x0 x1 x2 x3, s.mem.len sel = 4 → s.mem.read sel 0 = some x0 → s.mem.read sel 1 = some x1 →
        s.mem.read sel 2 = some x2 → s.mem.read sel 3 = some x3 →
        ∃ v : Word32, s.RepliesCmd t (.val (.int32 v)) ∧
          v.toNat = x0.toNat + 256 * x1.toNat + 65536 * x2.toNat + 16777216 * x3.toNat ∧
          v.toInt = if v.toNat < 2 ^ 31 then (v.toNat : Int) else (v.toNat : Int) - 2 ^ 32) ∧
      ∀ ps, decodeCmd (opByte 0x1C sel :: ps) = .instr (.mbGeti32 sel) ps

/-- R100: the sum modulo 256 of all bytes but the last; no state is written. -/
def Obligations.ChecksumSumsAllButLast : Prop :=
  ∀ (sel : BufSel) (s : State),
    ∃ t, exec (.mbCksum sel) s = .next t ∧ s.KeepsOutside t ∧ t.rx = s.rx ∧ t.mem = s.mem ∧
      (∃ c : Byte, s.RepliesCmd t (.val (.byte c)) ∧
        c.toNat = ((List.range (s.mem.len sel - 1)).map (fun i => ((s.mem.read sel i).getD 0).toNat)).sum % 256) ∧
      ∀ ps, decodeCmd (opByte 0x1E sel :: ps) = .instr (.mbCksum sel) ps

/-- R101, with R108's refusal: the six bytes of a control frame. -/
def Obligations.SetControlWritesFrame : Prop :=
  ∀ (sel : BufSel) (sp : Byte) (s : State),
    ∃ t, exec (.mbSetctl sel sp) s = .next t ∧ s.KeepsOutside t ∧ t.rx = s.rx ∧ s.KeepsBuf t (otherBuf sel) ∧
      (s.HeldByDecoder sel → t.mem = s.mem ∧ s.RepliesCmd t (.refused .bufferOwned)) ∧
      (¬ s.HeldByDecoder sel → s.RepliesCmd t .ok ∧ t.mem.len sel = 6 ∧
        t.mem.read sel 0 = some 0x87 ∧ t.mem.read sel 1 = some 0x09 ∧ t.mem.read sel 2 = some 0x03 ∧
        t.mem.read sel 3 = some sp ∧ t.mem.read sel 4 = some sp ∧
        t.mem.read sel 5 = some (BitVec.ofNat 8 (0x93 + 2 * sp.toNat))) ∧
      ∀ ps, decodeCmd (opByte 0x20 sel :: sp :: ps) = .instr (.mbSetctl sel sp) ps

/-- R102: true exactly when the lengths are equal and every byte below the length is; no state is written. -/
def Obligations.EqComparesContents : Prop :=
  ∀ s : State,
    ∃ t v, exec .mbEq s = .next t ∧ s.KeepsOutside t ∧ t.rx = s.rx ∧ t.mem = s.mem ∧
      s.RepliesCmd t (.val (.bool v)) ∧
      (v = true ↔ s.mem.len .b0 = s.mem.len .b1 ∧ ∀ i, i < s.mem.len .b0 → s.mem.read .b0 i = s.mem.read .b1 i) ∧
      ∀ ps, decodeCmd (0x22 :: ps) = .instr .mbEq ps

/-- R103: two upper-case digits for each byte, high nibble first, one space between bytes and none elsewhere; no state is
written. -/
def Obligations.HexRendersTwoDigits : Prop :=
  ∀ (sel : BufSel) (s : State),
    ∃ t txt, exec (.mbHex sel) s = .next t ∧ s.KeepsOutside t ∧ t.rx = s.rx ∧ t.mem = s.mem ∧
      s.RepliesCmd t (.val (.text txt)) ∧ txt.length = 3 * s.mem.len sel - 1 ∧
      (∀ i b, s.mem.read sel i = some b →
        txt[3 * i]? = hexChars[b.toNat / 16]? ∧ txt[3 * i + 1]? = hexChars[b.toNat % 16]? ∧
        (i + 1 < s.mem.len sel → txt[3 * i + 2]? = some 0x20)) ∧
      ∀ ps, decodeCmd (opByte 0x24 sel :: ps) = .instr (.mbHex sel) ps

/-- The round-trip law of 40_msgbuf.md section 2 (R105, which the spec derives): after `MB.SETI32 s, v`, `MB.GETI32 s`
returns `v`. -/
def Obligations.SetThenGetInt32 : Prop :=
  ∀ (sel : BufSel) (v : Word32) (s : State), ¬ s.HeldByDecoder sel →
    ∃ t u, exec (.mbSeti32 sel v) s = .next t ∧ exec (.mbGeti32 sel) t = .next u ∧ u.mem = t.mem ∧
      t.RepliesCmd u (.val (.int32 v))

/-- The checksum law of 40_msgbuf.md section 2 (R106, which the spec derives): one byte more adds the old last byte to
the checksum, and rebuilding the buffer by reset and append gives the old content, so the old checksum. -/
def Obligations.ChecksumOfLongerBuffer : Prop :=
  ∀ (sel : BufSel) (x last : Byte) (s : State), ¬ s.HeldByDecoder sel → s.mem.len sel < 256 →
    s.mem.read sel (s.mem.len sel - 1) = some last →
    ∃ c t u v w, exec (.mbCksum sel) s = .next u ∧ s.RepliesCmd u (.val (.byte c)) ∧
      exec (.mbAppendb sel x) s = .next t ∧ exec (.mbCksum sel) t = .next v ∧
      t.RepliesCmd v (.val (.byte (c + last))) ∧
      execAll (mbSet sel (s.mem.buf sel)) t = .next w ∧ w.mem.buf sel = s.mem.buf sel

/-- The capacity law of 40_msgbuf.md section 2 (R107, which the spec derives): a full buffer takes no byte, and an empty
append into it succeeds. -/
def Obligations.FullBufferTakesNothing : Prop :=
  ∀ (sel : BufSel) (bs : List Byte) (s : State), ¬ s.HeldByDecoder sel → s.mem.len sel = 256 →
    ∃ t, exec (.mbAppend sel bs) s = .next t ∧ t.mem = s.mem ∧
      s.RepliesCmd t (if bs = [] then .ok else .fail .capacityExceeded)

/-- R108: exactly the five writing operations are refused, on `B[1]` while the decoder is `ACTIVE`, and then no state
changes; no other operation is ever answered so. -/
def Obligations.OwnedBufferWritesRefused : Prop :=
  ∀ (s : State),
    (∀ sel i, s.HeldByDecoder sel →
      ((∃ bs, i = .mbAppend sel bs) ∨ (∃ b, i = .mbAppendb sel b) ∨ i = .mbReset sel ∨ (∃ v, i = .mbSeti32 sel v) ∨
        ∃ sp, i = .mbSetctl sel sp) →
      exec i s = .next (s.cmdReply (.refused .bufferOwned))) ∧
    (∀ i t, exec i s = .next t → s.RepliesCmd t (.refused .bufferOwned) →
      s.rx.phase = .active ∧
      ((∃ bs, i = .mbAppend .b1 bs) ∨ (∃ b, i = .mbAppendb .b1 b) ∨ i = .mbReset .b1 ∨ (∃ v, i = .mbSeti32 .b1 v) ∨
        ∃ sp, i = .mbSetctl .b1 sp))

/-! ## Responses (30_encoding.md R78) -/

/-- The bytes of a response (30_encoding.md R78): the status byte of each failure, error and refusal, alone; status `0x00`
alone for `Ok`; after status `0x00` the value's bytes, little-endian for the integers, and a little-endian count before
the characters of a text. -/
def Obligations.ResponseBytesOfTable : Prop :=
  Response.ok.bytes = [0x00] ∧
  (Response.fail .capacityExceeded).bytes = [0x01] ∧ (Response.fail .wrongLength).bytes = [0x02] ∧
  (Response.err (.io .openLine)).bytes = [0x10] ∧ (Response.err (.io .configure)).bytes = [0x11] ∧
  (Response.err (.io .read)).bytes = [0x12] ∧ (Response.err (.io .write)).bytes = [0x13] ∧
  (Response.err (.io .entropy)).bytes = [0x14] ∧ (Response.err (.protocol .badEscape)).bytes = [0x20] ∧
  (Response.err (.protocol .duplicateMarker)).bytes = [0x21] ∧
  (Response.err (.protocol .missingMarker)).bytes = [0x22] ∧ (Response.err (.protocol .overrun)).bytes = [0x23] ∧
  (Response.err .verification).bytes = [0x30] ∧ (Response.err .timeout).bytes = [0x40] ∧
  (Response.refused .illegalCommand).bytes = [0xF0] ∧ (Response.refused .illegalOperand).bytes = [0xF1] ∧
  (Response.refused .notActive).bytes = [0xF2] ∧ (Response.refused .bufferOwned).bytes = [0xF3] ∧
  (Response.refused .emptyFrame).bytes = [0xF4] ∧
  (∀ x0 x1 (v : BitVec 16), v.toNat = x0.toNat + 256 * x1.toNat →
    (Response.val (.u16 v)).bytes = [0x00, x0, x1]) ∧
  (∀ x0 x1 x2 x3 (v : Word32), v.toNat = x0.toNat + 256 * x1.toNat + 65536 * x2.toNat + 16777216 * x3.toNat →
    (Response.val (.int32 v)).bytes = [0x00, x0, x1, x2, x3]) ∧
  (∀ c : Byte, (Response.val (.byte c)).bytes = [0x00, c]) ∧
  (Response.val (.bool true)).bytes = [0x00, 0x01] ∧ (Response.val (.bool false)).bytes = [0x00, 0x00] ∧
  ∀ x0 x1 (cs : List Byte), cs.length = x0.toNat + 256 * x1.toNat →
    (Response.val (.text cs)).bytes = [0x00, x0, x1] ++ cs

/-! ## FrameEncoder (41_encoder.md) -/

/-- The result on the wire of 41_encoder.md (R126, which the spec derives from R117 to R122): with a favourable
environment `TX.SEND` puts exactly the frame on the wire, byte 0 with mark parity and the rest with space parity, in
six recorded operations (five for a one-byte buffer), and changes nothing else of the spec's state (the model's own
`txSel` keeps the operand, log 5). A first write that reports a count above 1 is no error (R118, D14): the send goes on to
`Ok` in the same operations, but whether the marked character is on the wire the report does not say (R49; for a count
of 1 it is). -/
def Obligations.SendPutsFrameOnWire : Prop :=
  (∀ (sel : BufSel) (d : Byte) (ds : List Byte) (rest : List LineAnswer) (s : State),
    s.mem.buf sel = d :: ds → s.env.answers = favourable (d :: ds).length ++ rest →
    ∃ t, exec (.txSend sel) s = .next t ∧ t.mem = s.mem ∧ t.rx = s.rx ∧ t.host = s.host ∧ s.RepliesCmd t .ok ∧
      t.tx.pmode = .space ∧ t.tx.txStep = .idle ∧
      t.env = { s.env with
        lineTx := s.env.lineTx ++ (⟨true, d⟩ :: ds.map (fun x => ⟨false, x⟩))
        lineOps := s.env.lineOps ++ ([.setParityMark true, .writeBytes [d] (some 1), .delay, .setParitySpace true] ++
          (if ds = [] then [] else [.writeBytes ds (some (ds.length : Int))]) ++ [.delay])
        answers := rest }) ∧
  ∀ (sel : BufSel) (d : Byte) (ds : List Byte) (c : Int) (w : Nat) (rest : List LineAnswer) (s : State),
    s.mem.buf sel = d :: ds → 1 ≤ c →
    s.env.answers = [quiet, quietAnswer false c w, quiet, quiet] ++
      (if ds = [] then [] else [quietAnswer false ds.length 0]) ++ quiet :: rest →
    ∃ t k, exec (.txSend sel) s = .next t ∧ t.mem = s.mem ∧ t.rx = s.rx ∧ t.host = s.host ∧ s.RepliesCmd t .ok ∧
      t.tx.pmode = .space ∧ t.tx.txStep = .idle ∧ k ≤ 1 ∧ (c = 1 → k = 1) ∧
      t.env = { s.env with
        lineTx := s.env.lineTx ++ (List.take k [⟨true, d⟩] ++ ds.map (fun x => ⟨false, x⟩))
        lineOps := s.env.lineOps ++ ([.setParityMark true, .writeBytes [d] (some c), .delay, .setParitySpace true] ++
          (if ds = [] then [] else [.writeBytes ds (some (ds.length : Int))]) ++ [.delay])
        answers := rest }

/-- R124: an empty buffer is refused with no line operation, `pmode` unchanged. -/
def Obligations.SendEmptyRefused : Prop :=
  ∀ (sel : BufSel) (s : State), s.mem.len sel = 0 →
    exec (.txSend sel) s = .next (s.cmdReply (.refused .emptyFrame))

/-- Step 2's failure (R118, R123, R49): a failed write of the first byte, or a count below 1, ends the send with
`IoError(Write)` and no later operation; at most the one character is on the wire, none for a reported 0. -/
def Obligations.SendFirstWriteFails : Prop :=
  ∀ (sel : BufSel) (d : Byte) (ds : List Byte) (f : Bool) (c : Int) (w : Nat) (rest : List LineAnswer) (s : State),
    s.mem.buf sel = d :: ds → s.env.answers = quiet :: quietAnswer f c w :: rest → (f = true ∨ c < 1) →
    ∃ t k, exec (.txSend sel) s = .next t ∧ t.mem = s.mem ∧ t.rx = s.rx ∧ t.host = s.host ∧
      s.RepliesCmd t (.err (.io .write)) ∧ t.tx.pmode = .mark ∧ t.tx.txStep = .idle ∧ k ≤ 1 ∧
      (f = false → c = 0 → k = 0) ∧
      t.env = { s.env with
        lineTx := s.env.lineTx ++ List.take k [⟨true, d⟩]
        lineOps := s.env.lineOps ++ [.setParityMark true, .writeBytes [d] (if f then none else some c)]
        answers := rest }

/-- Step 5's failure (R121, R123, R49): any count but `N - 1` ends the send with `IoError(Write)`; the marked byte and
the change to space parity stand, and for a reported count in range exactly that many further characters. -/
def Obligations.SendSecondWriteFails : Prop :=
  ∀ (sel : BufSel) (d : Byte) (ds : List Byte) (f : Bool) (c : Int) (w : Nat) (rest : List LineAnswer) (s : State),
    s.mem.buf sel = d :: ds → ds ≠ [] →
    s.env.answers = quiet :: quietAnswer false 1 0 :: quiet :: quiet :: quietAnswer f c w :: rest →
    (f = true ∨ c ≠ (ds.length : Int)) →
    ∃ t k, exec (.txSend sel) s = .next t ∧ t.mem = s.mem ∧ t.rx = s.rx ∧ t.host = s.host ∧
      s.RepliesCmd t (.err (.io .write)) ∧ t.tx.pmode = .space ∧ t.tx.txStep = .idle ∧ k ≤ ds.length ∧
      (f = false → 0 ≤ c → c ≤ (ds.length : Int) → (k : Int) = c) ∧
      t.env = { s.env with
        lineTx := s.env.lineTx ++ (⟨true, d⟩ :: (ds.take k).map (fun x => ⟨false, x⟩))
        lineOps := s.env.lineOps ++ [.setParityMark true, .writeBytes [d] (some 1), .delay, .setParitySpace true,
          .writeBytes ds (if f then none else some c)]
        answers := rest }

/-- R129, with R123's consequences: a failing set-parity, in step 1 or in step 4, ends the send with
`IoError(Configure)`, `pmode` is `UNKNOWN`, and no later operation is performed. -/
def Obligations.SendConfigureFails : Prop :=
  ∀ (sel : BufSel) (d : Byte) (ds : List Byte) (c : Int) (w : Nat) (rest : List LineAnswer) (s : State),
    s.mem.buf sel = d :: ds →
    (s.env.answers = quietAnswer true c w :: rest →
      ∃ t, exec (.txSend sel) s = .next t ∧ t.mem = s.mem ∧ t.rx = s.rx ∧ t.host = s.host ∧
        s.RepliesCmd t (.err (.io .configure)) ∧ t.tx.pmode = .unknown ∧ t.tx.txStep = .idle ∧
        t.env = { s.env with lineOps := s.env.lineOps ++ [.setParityMark false], answers := rest }) ∧
    (s.env.answers = quiet :: quietAnswer false 1 0 :: quiet :: quietAnswer true c w :: rest →
      ∃ t, exec (.txSend sel) s = .next t ∧ t.mem = s.mem ∧ t.rx = s.rx ∧ t.host = s.host ∧
        s.RepliesCmd t (.err (.io .configure)) ∧ t.tx.pmode = .unknown ∧ t.tx.txStep = .idle ∧
        t.env = { s.env with
          lineTx := s.env.lineTx ++ [⟨true, d⟩]
          lineOps := s.env.lineOps ++
            [.setParityMark true, .writeBytes [d] (some 1), .delay, .setParitySpace false]
          answers := rest })

/-- What `TX.SEND` can end in, whatever the environment answers (41_encoder.md R127 and R130, 60_exceptions.md R186, which
the spec derives): it completes with `tx_step = 0`; the buffers and the decoder are unchanged unless a reset fell
(R211); what was on the wire stays; it returns `Ok`, `IoError(Write)`, `IoError(Configure)` or `EmptyFrame`, or,
abandoned by the deadline or a reset, nothing (the model's choice, log 22). -/
def Obligations.SendEndsForEveryAnswer : Prop :=
  ∀ (sel : BufSel) (s : State), s.tx.txStep = .idle →
    ∃ t, exec (.txSend sel) s = .next t ∧ t.tx.txStep = .idle ∧
      ((t.mem = s.mem ∧ t.rx = s.rx) ∨ t.block = State.reset.block) ∧
      s.env.lineTx <+: t.env.lineTx ∧ s.env.lineOps <+: t.env.lineOps ∧
      (t.ports = s.ports ∨
        ∃ r ∈ ([.ok, .err (.io .write), .err (.io .configure), .refused .emptyFrame] : List Response), s.RepliesCmd t r)

/-- The deadline between two line operations (60_exceptions.md R187, 95_test_vectors.md E16): delivered after the first
delay of a handshake's send, it ends the handshake with `TimeoutError`; the marked byte stays on the wire, `pmode`
stays `MARK`, `tx_step` returns to 0, and no other state of the block changes. That no response is returned is the
model's choice (log 22), and so is that this holds whatever `rx_done` is before step 4, as 43_handshake.md R169 has it and
R187 does not (log 6). -/
def Obligations.DeadlineCutsSend : Prop :=
  ∀ (sel : BufSel) (d : Byte) (ds : List Byte) (pt : HsPoint) (rest : List LineAnswer) (s : State),
    s.mem.buf sel = d :: ds → s.host.hs = .running pt → pt.inReceive = false → s.env.alarm = .armed →
    s.env.answers = quiet :: quietAnswer false 1 0 :: quiet :: { quiet with event := some .deadline } :: rest →
    ∃ t, exec (.txSend sel) s = .next t ∧ t.mem = s.mem ∧ t.rx = s.rx ∧ t.ports = s.ports ∧
      t.tx.pmode = .mark ∧ t.tx.txStep = .idle ∧ t.host = { s.host with hs := .ended .timeoutError } ∧
      t.env = { s.env with
        lineTx := s.env.lineTx ++ [⟨true, d⟩]
        lineOps := s.env.lineOps ++ [.setParityMark true, .writeBytes [d] (some 1), .delay]
        alarm := .fired
        answers := rest }

/-! ## FrameDecoder (42_decoder.md) -/

/-- R133, with R76: `RX.INIT L` makes a fresh decoder in any phase; more than 256 is refused and changes nothing. -/
def Obligations.InitMakesFreshDecoder : Prop :=
  ∀ (len : BitVec 16) (s : State),
    (256 < len.toNat → exec (.rxInit len) s = .next (s.cmdReply (.refused .illegalOperand))) ∧
    (len.toNat ≤ 256 →
      ∃ t, exec (.rxInit len) s = .next t ∧ s.KeepsOutside t ∧ s.KeepsBuf t .b0 ∧ s.RepliesCmd t .ok ∧
        t.mem.len .b1 = 0 ∧ t.rx.marked = false ∧ t.rx.escaped = false ∧ t.rx.explen.toNat = len.toNat ∧
        t.rx.err = 0x00 ∧ t.rx.phase = .active ∧ (t.rxDone = true ↔ len.toNat = 0)) ∧
    ∀ x0 x1 ps, len.toNat = x0.toNat + 256 * x1.toNat → decodeCmd (0x40 :: x0 :: x1 :: ps) = .instr (.rxInit len) ps

/-- R145: `RX.DROP` discards the decoder; `B[1]`, the flags and `rx_explen` keep their values, and the host may write
`B[1]` again. -/
def Obligations.DropDiscardsDecoder : Prop :=
  ∀ s : State,
    ∃ t, exec .rxDrop s = .next t ∧ s.KeepsOutside t ∧ t.mem = s.mem ∧ s.RepliesCmd t .ok ∧
      t.rx = { s.rx with phase := .idle, err := 0x00 } ∧ t.rxDone = false ∧ ¬ t.HeldByDecoder .b1 ∧
      ∀ ps, decodeCmd (0x42 :: ps) = .instr .rxDrop ps

/-- R138: an unescaped `0xFF` sets `rx_escaped` and does nothing else, in any state of an `ACTIVE` decoder. -/
def Obligations.EscSetsEscaped : Prop :=
  ∀ s : State, s.rx.phase = .active → s.rx.escaped = false →
    decodeRaw s.rx.escaped 0xFF = .rawEsc ∧
    ∃ t, exec .rawEsc s = .next t ∧ s.KeepsOutside t ∧ t.mem = s.mem ∧ s.RepliesRaw t .ok ∧
      t.rx = { s.rx with escaped := true }

/-- R139 and R140: an ordinary byte is payload; the marker test comes before the length test, and a byte that fits is
appended to `B[1]`. -/
def Obligations.DataIsPayload : Prop :=
  ∀ (b : Byte) (s : State), s.rx.phase = .active → s.rx.escaped = false → b ≠ 0xFF → s.rx.explen.toNat ≤ 256 →
    decodeRaw s.rx.escaped b = .rawData b ∧
    ∃ t, exec (.rawData b) s = .next t ∧ s.KeepsOutside t ∧ s.KeepsBuf t .b0 ∧
      (s.rx.marked = false → t.mem = s.mem ∧ s.RepliesRaw t (.err (.protocol .missingMarker)) ∧
        t.rx = { s.rx with phase := .failed, err := 0x22 }) ∧
      (s.rx.marked = true → s.rx.explen.toNat ≤ s.mem.len .b1 →
        t.mem = s.mem ∧ s.RepliesRaw t (.err (.protocol .overrun)) ∧
        t.rx = { s.rx with phase := .failed, err := 0x23 }) ∧
      (s.rx.marked = true → s.mem.len .b1 < s.rx.explen.toNat →
        s.RepliesRaw t .ok ∧ t.rx = s.rx ∧ t.mem.len .b1 = s.mem.len .b1 + 1 ∧
        t.mem.read .b1 (s.mem.len .b1) = some b ∧ (∀ i, i < s.mem.len .b1 → t.mem.read .b1 i = s.mem.read .b1 i) ∧
        (t.rxDone = true ↔ s.mem.len .b1 + 1 = s.rx.explen.toNat))

/-- R135: the marker sets `rx_marked`, clears `rx_escaped` and appends nothing; a second marker is a ProtocolError found
before anything is written. -/
def Obligations.MarkStartsFrame : Prop :=
  ∀ s : State, s.rx.phase = .active → s.rx.escaped = true →
    decodeRaw s.rx.escaped 0x00 = .rawMark ∧
    ∃ t, exec .rawMark s = .next t ∧ s.KeepsOutside t ∧ t.mem = s.mem ∧
      (s.rx.marked = false → s.RepliesRaw t .ok ∧ t.rx = { s.rx with marked := true, escaped := false }) ∧
      (s.rx.marked = true → s.RepliesRaw t (.err (.protocol .duplicateMarker)) ∧
        t.rx = { s.rx with phase := .failed, err := 0x21 })

/-- R136: an escaped `0xFF` clears `rx_escaped`, also when payload handling then raises, and is payload of value `0xFF`
(R140). -/
def Obligations.LitffIsPayload : Prop :=
  ∀ s : State, s.rx.phase = .active → s.rx.escaped = true → s.rx.explen.toNat ≤ 256 →
    decodeRaw s.rx.escaped 0xFF = .rawLitff ∧
    ∃ t, exec .rawLitff s = .next t ∧ s.KeepsOutside t ∧ s.KeepsBuf t .b0 ∧
      (s.rx.marked = false → t.mem = s.mem ∧ s.RepliesRaw t (.err (.protocol .missingMarker)) ∧
        t.rx = { s.rx with escaped := false, phase := .failed, err := 0x22 }) ∧
      (s.rx.marked = true → s.rx.explen.toNat ≤ s.mem.len .b1 →
        t.mem = s.mem ∧ s.RepliesRaw t (.err (.protocol .overrun)) ∧
        t.rx = { s.rx with escaped := false, phase := .failed, err := 0x23 }) ∧
      (s.rx.marked = true → s.mem.len .b1 < s.rx.explen.toNat →
        s.RepliesRaw t .ok ∧ t.rx = { s.rx with escaped := false } ∧ t.mem.len .b1 = s.mem.len .b1 + 1 ∧
        t.mem.read .b1 (s.mem.len .b1) = some 0xFF ∧ ∀ i, i < s.mem.len .b1 → t.mem.read .b1 i = s.mem.read .b1 i)

/-- R137: any other byte after the sentinel is a bad escape code; nothing is written but the error. -/
def Obligations.BadescRaisesError : Prop :=
  ∀ (b : Byte) (s : State), s.rx.phase = .active → s.rx.escaped = true → b ≠ 0x00 → b ≠ 0xFF →
    decodeRaw s.rx.escaped b = .rawBadesc b ∧
    ∃ t, exec (.rawBadesc b) s = .next t ∧ s.KeepsOutside t ∧ t.mem = s.mem ∧
      s.RepliesRaw t (.err (.protocol .badEscape)) ∧ t.rx = { s.rx with phase := .failed, err := 0x20 }

/-- R134's dispatch: the case found from `rx_escaped` and the byte does what `RX.PUSH` of the byte does. -/
def Obligations.PushIsItsCase : Prop :=
  ∀ (b : Byte) (s : State), exec (decodeRaw s.rx.escaped b) s = answerRaw (rxPush b s)

/-- R134 and R144: outside `ACTIVE` every push is refused and changes nothing, so `FAILED` and its `rx_err` last through
any number of pushes. -/
def Obligations.PushesRefusedOutsideActive : Prop :=
  ∀ (is : List Instr) (s : State), s.rx.phase ≠ .active → (∀ i ∈ is, isPush i = true) →
    ∃ t, execAll is s = .next t ∧ t.mem = s.mem ∧ t.rx = s.rx ∧ s.KeepsOutside t ∧
      t.ports = { s.ports with rawOut := s.ports.rawOut ++ List.replicate is.length (.refused .notActive) }

/-- R144, R189 and R192: a push into an `ACTIVE` decoder either is accepted, and the decoder stays `ACTIVE`, or raises one
ProtocolError, and then `rx_phase` is `FAILED`, `rx_err` is its cause code, `rx_marked` and the buffers are as they were,
and no later push changes any of this. -/
def Obligations.ProtocolErrorFailsDecoder : Prop :=
  ∀ (b : Byte) (s : State), s.rx.phase = .active →
    ∃ t, exec (decodeRaw s.rx.escaped b) s = .next t ∧ s.KeepsOutside t ∧
      ((t.rx.phase = .active ∧ t.rx.err = s.rx.err ∧ s.RepliesRaw t .ok) ∨
        (t.rx.phase = .failed ∧ t.rx.marked = s.rx.marked ∧ t.mem = s.mem ∧
          (∃ c : ProtoCause, t.rx.err = c.code ∧ s.RepliesRaw t (.err (.protocol c))) ∧
          ∀ is : List Instr, (∀ i ∈ is, isPush i = true) → ∃ u, execAll is t = .next u ∧ u.rx = t.rx ∧ u.mem = t.mem))

/-- R19: `rx_marked`, once set, is cleared only by `RX.INIT` and by a reset. So it is for every operation, whichever way it
is run (a reset can fall during a `TX.SEND`), and for every step of the machine, the host's own moves in a handshake
among them. -/
def Obligations.MarkedClearedOnlyByInit : Prop :=
  (∀ (i : Instr) (s t : State), exec i s = .next t → s.rx.marked = true → t.rx.marked = false →
    (∃ len, i = .rxInit len) ∨ ((∃ sel, i = .txSend sel) ∧ t.block = State.reset.block)) ∧
  ∀ s t : State, step s = .next t → s.rx.marked = true → t.rx.marked = false →
    (∃ len, s.nextOperation = some (.rxInit len)) ∨ t.block = State.reset.block

/-- R16's complete list of writers: a buffer changes only by an operation of that list on that buffer, or by a reset. So
it is for every operation and for every step of the machine, the host's own moves in a handshake among them. -/
def Obligations.BufferWritersComplete : Prop :=
  (∀ (i : Instr) (sel : BufSel) (s t : State), exec i s = .next t → t.mem.buf sel ≠ s.mem.buf sel →
    writesBuffer sel i = true ∨ ((∃ x, i = .txSend x) ∧ t.block = State.reset.block)) ∧
  ∀ (sel : BufSel) (s t : State), step s = .next t → t.mem.buf sel ≠ s.mem.buf sel →
    (∃ i, s.nextOperation = some i ∧ writesBuffer sel i = true) ∨ t.block = State.reset.block

/-- The status outputs (10_state.md R27, with R22, R23 and R25): `rx_done` is true exactly when the decoder is `ACTIVE`
and `B[1]` has the expected length, and has no register of its own; the two lengths, the phase (0 `IDLE`, 1 `ACTIVE`, 2
`FAILED`), the two flags, the error, the expected length and the parity mode (0 `UNKNOWN`, 1 `MARK`, 2 `SPACE`) are
those of the registers. -/
def Obligations.DoneIsActiveAndComplete : Prop :=
  ∀ s : State,
    (s.status.rxDone = true ↔ (s.rx.phase = .active ∧ s.mem.len .b1 = s.rx.explen.toNat)) ∧
    (s.mem.wf → s.status.b0Len.toNat = s.mem.len .b0 ∧ s.status.b1Len.toNat = s.mem.len .b1) ∧
    s.status.rxPhase.toNat = (match s.rx.phase with | .idle => 0 | .active => 1 | .failed => 2) ∧
    s.status.rxMarked = s.rx.marked ∧ s.status.rxEscaped = s.rx.escaped ∧ s.status.rxErr = s.rx.err ∧
    s.status.rxExplen = s.rx.explen ∧
    s.status.pmode.toNat = (match s.tx.pmode with | .unknown => 0 | .mark => 1 | .space => 2)

/-! ## The wire and the raw stream -/

/-- 30_encoding.md R63 and R64, 20_memory.md R53: a line character goes on the wire after all earlier ones; nothing else
changes. That the rows `WIRE.MARK` and `WIRE.SPACE` are run so is the model's choice (log 10). -/
def Obligations.WireCharacterGoesOnLine : Prop :=
  ∀ (d : Byte) (s : State),
    exec (.wireMark d) s = .next { s with env := { s.env with lineTx := s.env.lineTx ++ [⟨true, d⟩] } } ∧
    exec (.wireSpace d) s = .next { s with env := { s.env with lineTx := s.env.lineTx ++ [⟨false, d⟩] } }

/-- 20_memory.md R49 and R53: a write answered with a count `c` in range puts on the wire the first `c` bytes, each as
the character the parity mode makes of it, which is what running the rows `WIRE.MARK` (in `MARK`) or `WIRE.SPACE` (in
`SPACE`) puts there. That running these rows puts characters on the wire is the model's choice (log 10). -/
def Obligations.WriteUsesParityMode : Prop :=
  ∀ (bs : List Byte) (c w : Nat) (s : State), c ≤ bs.length →
    (s.tx.pmode = .mark → ∃ t, execAll ((bs.take c).map .wireMark) s = .next t ∧
      (lineWriteBytes bs (quietAnswer false c w) s).2.env.lineTx = t.env.lineTx ∧
      t.env.lineTx = s.env.lineTx ++ (bs.take c).map (fun x => ⟨true, x⟩)) ∧
    (s.tx.pmode = .space → ∃ t, execAll ((bs.take c).map .wireSpace) s = .next t ∧
      (lineWriteBytes bs (quietAnswer false c w) s).2.env.lineTx = t.env.lineTx ∧
      t.env.lineTx = s.env.lineTx ++ (bs.take c).map (fun x => ⟨false, x⟩))

/-- What a read of the line does (20_memory.md R50, R52): it returns the first `k` bytes of `raw_rx`, at most `maxCount`,
removes exactly these, records itself in `line_ops` and changes nothing else; `k` is the count the environment names
when that is in range. A read the host asks for outside the handshake is such a read of at most `RX_CHUNK_MAX` bytes,
after the bytes that arrived. That a failed read takes no byte, and the reads outside the handshake, are the model's
choice (log 15), and so are the entry of a read in `line_ops` (log 25) and the list of requests (log 3). -/
def Obligations.ReadTakesFirstBytes : Prop :=
  (∀ (maxCount : Nat) (a : LineAnswer) (s : State),
    (a.fails = true → lineReadBytes maxCount a s = (none, { s with env := { s.env with
      lineOps := s.env.lineOps ++ [.readBytes maxCount none] } })) ∧
    (a.fails = false → ∃ k, k ≤ maxCount ∧ k ≤ s.env.rawRx.length ∧
      (0 ≤ a.count → a.count ≤ (maxCount : Int) → a.count ≤ (s.env.rawRx.length : Int) → (k : Int) = a.count) ∧
      lineReadBytes maxCount a s = (some (s.env.rawRx.take k), { s with env := { s.env with
        rawRx := s.env.rawRx.drop k
        lineOps := s.env.lineOps ++ [.readBytes maxCount (some (s.env.rawRx.take k))] } }))) ∧
  ∀ (ms : List Move) (a : LineAnswer) (as : List LineAnswer) (s : State), s.Free →
    s.ports.moves = .readLine :: ms → s.env.answers = a :: as → a.event = none →
    (a.fails = true → step s = .next { s.withMoves ms with env := { s.env with
      answers := as
      rawRx := s.env.rawRx ++ a.arrived
      lineOps := s.env.lineOps ++ [.readBytes Config.rxChunkMax none] } }) ∧
    (a.fails = false → ∃ k, k ≤ Config.rxChunkMax ∧ k ≤ (s.env.rawRx ++ a.arrived).length ∧
      (0 ≤ a.count → a.count ≤ (Config.rxChunkMax : Int) → a.count ≤ ((s.env.rawRx ++ a.arrived).length : Int) →
        (k : Int) = a.count) ∧
      step s = .next { s.withMoves ms with env := { s.env with
        answers := as
        rawRx := (s.env.rawRx ++ a.arrived).drop k
        lineOps := s.env.lineOps ++ [.readBytes Config.rxChunkMax (some ((s.env.rawRx ++ a.arrived).take k))] } })

/-- Loop-back through the reference driver of 20_memory.md section 3 (R54, R68, decision D21): every message of 1 to 256
bytes, sent as a frame and reported by the driver, is decoded by a fresh decoder into the same message, with every push
accepted. -/
def Obligations.LoopBackRecoversMessage : Prop :=
  ∀ (m : List Byte) (s : State), m ≠ [] → m.length ≤ 256 →
    ∃ t, exec (.rxInit (BitVec.ofNat 16 m.length)) s = .next t ∧
      (rxFeed (rawOfChars (frameOf m)) t).mem.b1 = m ∧
      (rxFeed (rawOfChars (frameOf m)) t).mem.b0 = s.mem.b0 ∧
      (rxFeed (rawOfChars (frameOf m)) t).rxDone = true ∧
      (rxFeed (rawOfChars (frameOf m)) t).rx.marked = true ∧
      (rxFeed (rawOfChars (frameOf m)) t).rx.escaped = false ∧
      (rxFeed (rawOfChars (frameOf m)) t).ports.rawOut =
        s.ports.rawOut ++ List.replicate (2 + m.length + m.count 0xFF) .ok

/-! ## Encodings (30_encoding.md) -/

/-- Decode and encode agree: the words of every well-formed instruction decode to it, and a command's bytes do so
whatever follows them on the port (30_encoding.md sections 2 and 4). -/
def Obligations.DecodeOfEncode : Prop :=
  ∀ i : Instr, i.wf = true →
    decode (encode i) = .instr i [] ∧
    ∀ bytes rest, encode i = .command bytes → decodeCmd (bytes ++ rest) = .instr i rest

/-- The other direction for commands: whatever the command port's decoder reads is well formed, and its encoding is
exactly the bytes taken (30_encoding.md section 4). -/
def Obligations.EncodeOfDecodedCommand : Prop :=
  ∀ (bytes rest : List Byte) (i : Instr), decodeCmd bytes = .instr i rest →
    i.wf = true ∧ ∃ cmd, encode i = .command cmd ∧ bytes = cmd ++ rest

/-- The other direction for the 9-bit words: each raw word and each line character is the encoding of one well-formed
instruction, the one its decoder reads (30_encoding.md sections 1 and 2). -/
def Obligations.NineBitWordsRoundTrip : Prop :=
  ∀ w : BitVec 9, encode (decodeRawWord w) = .raw w ∧ (decodeRawWord w).wf = true ∧ isPush (decodeRawWord w) = true ∧
    encode (decodeWire w) = .wire w ∧ (decodeWire w).wf = true

/-- R75: exactly the listed opcode bytes are reserved; one is taken alone from the command port, whatever follows it,
answered `Refused(IllegalCommand)`, and changes no state. -/
def Obligations.ReservedOpcodesRefused : Prop :=
  ∀ (op : Byte) (ps : List Byte),
    (reservedOpcode op.toNat = true ↔ opcodeOf op = none) ∧
    (reservedOpcode op.toNat = true ↔ decodeCmd (op :: ps) = .illegalCommand op ps) ∧
    ∀ s : State, s.ports.cmdIn = op :: ps → reservedOpcode op.toNat = true →
      takeCommand s = .next ((s.withCmdIn ps).cmdReply (.refused .illegalCommand))

/-- A few words written out from 30_encoding.md R67, R71 and R72 decode to their instructions. -/
def Obligations.SampleWordsDecode : Prop :=
  decodeCmd [0x10, 0x02, 0x00, 0xAA, 0xBB, 0x14] = .instr (.mbAppend .b0 [0xAA, 0xBB]) [0x14] ∧
  decodeCmd [0x1B, 0x78, 0x56, 0x34, 0x12] = .instr (.mbSeti32 .b1 0x12345678) [] ∧
  decodeCmd [0x31] = .instr (.txSend .b1) [] ∧
  decodeCmd [0x40, 0x01, 0x01] = .instr (.rxInit 257) [] ∧
  decodeRawWord 0x17F = .rawBadesc 0x7F ∧ decodeWire 0x10C = .wireMark 0x0C

/-! ## The step -/

/-- A step runs the command decoded from the command port (R18, R71): with the block free and the host asking for a
command, the step is `exec` of it, the request and the command's bytes taken; a reserved opcode byte is refused (R75),
and a command that has not arrived in full stays where it is (log 12). The request list is the model's (log 3). -/
def Obligations.StepRunsDecodedCommand : Prop :=
  ∀ (ms : List Move) (s : State), s.Free → s.ports.moves = .cmd :: ms →
    (∀ i rest, decodeCmd s.ports.cmdIn = .instr i rest → step s = exec i ((s.withMoves ms).withCmdIn rest)) ∧
    (∀ op rest, decodeCmd s.ports.cmdIn = .illegalCommand op rest →
      step s = .next (((s.withMoves ms).withCmdIn rest).cmdReply (.refused .illegalCommand))) ∧
    (decodeCmd s.ports.cmdIn = .incomplete → step s = .next (s.withMoves ms))

/-- A step runs the case of the raw byte that is pushed, found from `rx_escaped` (R67, R134), and the row of a line
character. The request list is the model's (log 3), and so is the request `wire` (log 10). -/
def Obligations.StepRunsRawByteAndWire : Prop :=
  ∀ (ms : List Move) (s : State), s.Free →
    (∀ b rest, s.ports.moves = .raw :: ms → s.ports.rawIn = b :: rest →
      step s = exec (decodeRaw s.rx.escaped b) ((s.withMoves ms).withRawIn rest)) ∧
    (∀ ch, s.ports.moves = .wire ch :: ms → step s = exec (decodeWire ch) (s.withMoves ms))

/-- Every step keeps the block's registers legal (R14, R21, R24, R26, R140): from every good state, the next state is
good. -/
def Obligations.StepKeepsGoodState : Prop :=
  ∀ s t : State, s.Good → step s = .next t → t.Good

/-- The state right after reset meets both invariants: the block's registers are legal (10_state.md R31), and the host's
side is sound. The second rests on the model's choice that the host has no handshake at the start (log 18). -/
def Obligations.ResetIsGood : Prop := State.reset.Good ∧ State.reset.HandshakeSound

/-- R31: the block's registers after reset; whatever the state, the block reset from it has these values, and the
environment is not reset. -/
def Obligations.ResetValues : Prop :=
  State.reset.mem.len .b0 = 0 ∧ State.reset.mem.len .b1 = 0 ∧ (∀ sel i, State.reset.mem.read sel i = none) ∧
  State.reset.rx.phase = .idle ∧ State.reset.rx.marked = false ∧ State.reset.rx.escaped = false ∧
  State.reset.rx.explen = 4 ∧ State.reset.rx.err = 0x00 ∧ State.reset.tx.pmode = .unknown ∧
  State.reset.tx.txStep = .idle ∧ State.reset.rxDone = false ∧
  ∀ s : State, (resetBlock s).block = State.reset.block ∧ (resetBlock s).env = s.env

/-- R211: the reset input puts every register of the block at its reset value and does not touch the environment. The
request list by which it comes is the model's (log 3); that the ports' queues and the host stay is log 8. -/
def Obligations.ResetInputRestoresBlock : Prop :=
  ∀ (ms : List Move) (s : State), s.Free → s.ports.moves = .reset :: ms →
    ∃ t, step s = .next t ∧ t.block = State.reset.block ∧ t.env = s.env ∧ t.host = s.host ∧
      t.ports = { s.ports with moves := ms }

/-- Nothing stops the machine (60_exceptions.md section 4: an error is a response): every instruction and every step, in
every state, gives a next state. -/
def Obligations.NothingStopsTheMachine : Prop :=
  (∀ (i : Instr) (s : State), ∃ t, exec i s = .next t) ∧ ∀ s : State, ∃ t, step s = .next t

/-- What is on the wire and what is recorded of the line stays, in order, through every step (20_memory.md R56,
10_state.md R28). -/
def Obligations.WireOnlyGrows : Prop :=
  ∀ s t : State, step s = .next t → s.env.lineTx <+: t.env.lineTx ∧ s.env.lineOps <+: t.env.lineOps

/-! ## The deadline and the handshake (43_handshake.md, 60_exceptions.md R187) -/

/-- The deadline event (60_exceptions.md R187, 43_handshake.md R169): an armed alarm fires once. It ends a running
handshake in whose step 4 `rx_done` has not become true (for the time before step 4 this is log 6); then only `tx_step`
changes in the block. With `rx_done` true in step 4, or no handshake running, it has no effect. -/
def Obligations.DeadlineEndsUnfinishedHandshake : Prop :=
  ∀ s : State, s.env.alarm = .armed →
    (∀ pt, s.host.hs = .running pt → (s.rxDone = false ∨ pt.inReceive = false) →
      deliverDeadline s = { s with
        env := { s.env with alarm := .fired }
        host := { s.host with hs := .ended .timeoutError }
        tx := { s.tx with txStep := .idle } }) ∧
    (∀ pt, s.host.hs = .running pt → s.rxDone = true → pt.inReceive = true →
      deliverDeadline s = { s with env := { s.env with alarm := .fired } }) ∧
    ((∀ pt, s.host.hs ≠ .running pt) → deliverDeadline s = { s with env := { s.env with alarm := .fired } })

/-- No hang (43_handshake.md R169, 95_test_vectors.md S9, H5): a deadline that falls while the read loop waits for bytes,
or between two pushes, ends the handshake with `TimeoutError`, for both values of `RX_DONE_CHECK` and every chunk
bound; the decoder and the buffers stay as they stood. -/
def Obligations.DeadlineEndsReadLoop : Prop :=
  ∀ (chk : RxDoneCheck) (maxChunk : Nat) (a : LineAnswer) (as : List LineAnswer) (pt : HsPoint) (s : State),
    s.env.alarm = .armed → s.rxDone = false → s.host.hs = .running pt →
    (pt = .loop ∨ ∃ x xs, pt = .push (x :: xs)) → s.env.answers = a :: as → a.event = some .deadline →
    (hsStep chk maxChunk pt s).host.hs = .ended .timeoutError ∧ (hsStep chk maxChunk pt s).mem = s.mem ∧
      (hsStep chk maxChunk pt s).rx = s.rx ∧ (hsStep chk maxChunk pt s).tx.pmode = s.tx.pmode ∧
      (hsStep chk maxChunk pt s).env.lineTx = s.env.lineTx

/-- HS.RUN begins (43_handshake.md R162, R163, R169, R171): the draws are the operands, the expected sum is their
wrapping sum, the alarm is armed before the first send; a failing entropy source ends the handshake with the block
untouched. The request by which the host starts it is the model's (log 3). -/
def Obligations.HandshakeBegins : Prop :=
  ∀ (ms : List Move) (s : State), s.Free →
    (∀ x y : Word32, s.ports.moves = .hsRun (some (x, y)) :: ms →
      ∃ t, step s = .next t ∧ t.block = s.block ∧ t.host.a = x ∧ t.host.b = y ∧
        t.host.expectedSum.toNat = (x.toNat + y.toNat) % 2 ^ 32 ∧ t.host.hs = .running .setA ∧
        t.env = { s.env with alarm := .armed }) ∧
    (s.ports.moves = .hsRun none :: ms →
      ∃ t, step s = .next t ∧ t.block = s.block ∧ t.env = s.env ∧ t.host.hs = .ended (.ioError .entropy))

/-- Every step keeps the handshake sound (43_handshake.md R163, R168, R169): while it runs the expected sum is that of
its operands; success means equal sums, a verification failure two unequal ones. -/
def Obligations.StepKeepsHandshakeSound : Prop :=
  ∀ s t : State, s.HandshakeSound → step s = .next t → t.HandshakeSound

/-- The moves of a running handshake, one after another (43_handshake.md R164 to R168, R170, R171). A step of the machine is
such a move with the two OPEN parameters. With no event falling before it, a move at which the host performs an operation
of the block leaves the block, the ports and the environment as that operation does. Then, in the order of the clauses:
- after `MB.SETI32 0, a`, `MB.SETI32 0, b` and `RX.INIT 4` the host goes to the first send, the second send, the loop;
- after a send answered `Ok` it goes on to the second operand, then to `RX.INIT`; an error of a send ends the handshake
  with that IoError; a send that returns no response was cut by the deadline and the handshake has ended, or by a reset
  and the host waits (log 8, log 22), and on `EmptyFrame`, which no run reaches, the host goes on (log 8);
- after an accepted push the host leaves the loop when it looks per byte and `rx_done` is true, and otherwise goes on with
  the rest of the chunk, or to the top of the loop; a ProtocolError ends the handshake with its cause; a push refused
  because a reset has taken the decoder away goes on like an accepted one (log 8);
- `MB.GETI32 1` gives the received sum, which is then compared; without a value the host waits (log 8);
- the comparison ends the handshake, with `Success` on equal sums, else with both numbers, and takes no answer: that no
  event falls before it is the model's choice (log 23);
- at the top of the loop, `rx_done` true ends the loop with nothing read and no answer taken, and that no event falls
  before this test either is the model's choice (log 23); otherwise the host reads: a failed read ends the
  handshake with `IoError(Read)`, else the first `k` bytes of `raw_rx`, at most the chunk bound, leave it and are pushed
  next, and an empty chunk goes round again. That a failed read takes no byte is the model's choice (log 15), and so is
  the entry of a read in `line_ops` (log 25). -/
def Obligations.HandshakeMovesFollowSequence : Prop :=
  (∀ (pt : HsPoint) (s : State), s.tx.txStep = .idle → s.host.hs = .running pt →
    step s = .next (hsStep Config.rxDoneCheck Config.rxChunkMax pt s)) ∧
  (∀ (chk : RxDoneCheck) (maxChunk : Nat) (pt : HsPoint) (i : Instr) (s : State), s.host.hs = .running pt →
    s.hostOperation pt = some i →
    (pt = .sendA ∨ pt = .sendB → ∃ t, exec i s = .next t ∧ (hsStep chk maxChunk pt s).block = t.block ∧
      (hsStep chk maxChunk pt s).ports = t.ports ∧ (hsStep chk maxChunk pt s).env = t.env) ∧
    (∀ a as, pt ≠ .sendA → pt ≠ .sendB → s.env.answers = a :: as → a.event = none →
      ∃ t, exec i { s with env := { s.env with answers := as, rawRx := s.env.rawRx ++ a.arrived } } = .next t ∧
        (hsStep chk maxChunk pt s).block = t.block ∧ (hsStep chk maxChunk pt s).ports = t.ports ∧
        (hsStep chk maxChunk pt s).env = t.env)) ∧
  (∀ (chk : RxDoneCheck) (maxChunk : Nat) (a : LineAnswer) (as : List LineAnswer) (s : State),
    s.env.answers = a :: as → a.event = none →
    (hsStep chk maxChunk .setA s).host = { s.host with hs := .running .sendA } ∧
    (hsStep chk maxChunk .setB s).host = { s.host with hs := .running .sendB } ∧
    (hsStep chk maxChunk .init s).host = { s.host with hs := .running .loop }) ∧
  (∀ (chk : RxDoneCheck) (maxChunk : Nat) (pt onward : HsPoint) (s t : State), s.host.hs = .running pt →
    (pt = .sendA ∧ onward = .setB) ∨ (pt = .sendB ∧ onward = .init) → t = hsStep chk maxChunk pt s →
    (s.RepliesCmd t .ok → t.host = { s.host with hs := .running onward }) ∧
    (∀ c, s.RepliesCmd t (.err (.io c)) → t.host = { s.host with hs := .ended (.ioError c) }) ∧
    (t.ports = s.ports →
      (t.host = { s.host with hs := .ended .timeoutError } ∧ t.mem = s.mem ∧ t.rx = s.rx) ∨
      (t.host = { s.host with hs := .running .stalled } ∧ t.block = State.reset.block)) ∧
    (s.RepliesCmd t (.refused .emptyFrame) → t.host = { s.host with hs := .running onward })) ∧
  (∀ (chk : RxDoneCheck) (maxChunk : Nat) (x : Byte) (rest : List Byte) (a : LineAnswer) (as : List LineAnswer)
    (s t : State), s.env.answers = a :: as → a.event = none → t = hsStep chk maxChunk (.push (x :: rest)) s →
    (s.RepliesRaw t .ok ∨ s.RepliesRaw t (.refused .notActive) → t.host = { s.host with
      hs := .running (if chk = .perByte ∧ t.rxDone = true then .get else if rest = [] then .loop else .push rest) }) ∧
    (∀ c, s.RepliesRaw t (.err (.protocol c)) → t.host = { s.host with hs := .ended (.protocolError c) })) ∧
  (∀ (chk : RxDoneCheck) (maxChunk : Nat) (a : LineAnswer) (as : List LineAnswer) (s t : State),
    s.env.answers = a :: as → a.event = none → t = hsStep chk maxChunk .get s →
    (∀ v, s.RepliesCmd t (.val (.int32 v)) → t.host = { s.host with hs := .running .compare, receivedSum := v }) ∧
    (s.RepliesCmd t (.fail .wrongLength) → t.host = { s.host with hs := .running .stalled })) ∧
  (∀ (chk : RxDoneCheck) (maxChunk : Nat) (s : State),
    hsStep chk maxChunk .compare s = { s with host := { s.host with
      hs := .ended (if s.host.receivedSum = s.host.expectedSum then .success
        else .verificationError s.host.receivedSum s.host.expectedSum) } }) ∧
  ∀ (chk : RxDoneCheck) (maxChunk : Nat) (s : State),
    (s.rxDone = true → hsStep chk maxChunk .loop s = { s with host := { s.host with hs := .running .get } }) ∧
    ∀ a as, s.rxDone = false → s.env.answers = a :: as → a.event = none →
      (a.fails = true → hsStep chk maxChunk .loop s = { s with
        env := { s.env with
          answers := as
          rawRx := s.env.rawRx ++ a.arrived
          lineOps := s.env.lineOps ++ [.readBytes maxChunk none] }
        host := { s.host with hs := .ended (.ioError .read) } }) ∧
      (a.fails = false → ∃ k, k ≤ maxChunk ∧ k ≤ (s.env.rawRx ++ a.arrived).length ∧
        (0 ≤ a.count → a.count ≤ (maxChunk : Int) → a.count ≤ ((s.env.rawRx ++ a.arrived).length : Int) →
          (k : Int) = a.count) ∧
        hsStep chk maxChunk .loop s = { s with
          env := { s.env with
            answers := as
            rawRx := (s.env.rawRx ++ a.arrived).drop k
            lineOps := s.env.lineOps ++ [.readBytes maxChunk (some ((s.env.rawRx ++ a.arrived).take k))] }
          host := { s.host with
            hs := .running (if k = 0 then .loop else .push ((s.env.rawRx ++ a.arrived).take k)) } })

/-- No hang, over whole runs (70_reset_and_hazards.md R224, decision D24). On a fair run, with the alarm armed, something
ends the read loop: the handshake has ended, or `rx_done` is true in its step 4. And from there it ends: with
`rx_explen = 4` and no reset among the answers to its next moves, in at most `k + 4` steps for the `k` bytes left to
push. A reset on the way to the end of the loop is allowed (what the host then does is the model's choice, log 8).
Fairness is a premise on the run (log 24). -/
def Obligations.FairHandshakeEnds : Prop :=
  (∀ s : State, s.tx.txStep = .idle → s.env.alarm = .armed → s.FairRun → ∃ n, (stepN n s).LoopOver) ∧
  ∀ (pt : HsPoint) (s : State), s.tx.txStep = .idle → s.host.hs = .running pt → pt.inReceive = true →
    s.rxDone = true → s.rx.explen = 4 → pt.toPush < s.env.answers.length →
    (∀ a ∈ s.env.answers, a.event ≠ some .reset) →
    ∃ n r, n ≤ pt.toPush + 4 ∧ (stepN n s).host.hs = .ended r

/-- The whole handshake (43_handshake.md R171, 95_test_vectors.md S8, H1, H2): for all operands and every number the peer
answers, when both sends go well and the peer's frame, as the reference driver reports it (20_memory.md R54, D21), arrives
in one read, the result is `Success` when the number is the wrapping sum and `VerificationError` naming both numbers
otherwise; for both values of `RX_DONE_CHECK` and every chunk bound of at least 10, the most raw bytes a frame of four
bytes can take. `B[0]` then holds the second operand, `B[1]` the answer, and the two operand frames are on the wire in
order. -/
def Obligations.HandshakeVerifiesSum : Prop :=
  ∀ (chk : RxDoneCheck) (maxChunk : Nat) (x y v : Word32) (s : State), 10 ≤ maxChunk → s.env.rawRx = [] →
    s.env.answers = handshakeAnswers (rawOfChars (frameOf (bytes32 v))) →
    ∃ t, t = hsRun chk maxChunk (some (x, y)) 20 s ∧
      t.host.hs = .ended (if v = x + y then .success else .verificationError v (x + y)) ∧
      t.mem.b0 = bytes32 y ∧ t.mem.b1 = bytes32 v ∧ t.rxDone = true ∧ t.tx.pmode = .space ∧
      t.env.lineTx = s.env.lineTx ++ frameOf (bytes32 x) ++ frameOf (bytes32 y)
end

