-- ==== Sys2Proof/Laws/State.lean ====
section
/-! SUPPORT. One lemma per part of the state for each named update, so that no later proof unfolds a record update. -/

namespace Sys2Proof.Machine

@[simp] theorem State.setBuf_rx (s : State) (sel : BufSel) (bs : List Byte) : (s.setBuf sel bs).rx = s.rx := rfl
@[simp] theorem State.setBuf_tx (s : State) (sel : BufSel) (bs : List Byte) : (s.setBuf sel bs).tx = s.tx := rfl
@[simp] theorem State.setBuf_env (s : State) (sel : BufSel) (bs : List Byte) : (s.setBuf sel bs).env = s.env := rfl
@[simp] theorem State.setBuf_ports (s : State) (sel : BufSel) (bs : List Byte) : (s.setBuf sel bs).ports = s.ports := rfl
@[simp] theorem State.setBuf_host (s : State) (sel : BufSel) (bs : List Byte) : (s.setBuf sel bs).host = s.host := rfl
@[simp] theorem State.setBuf_mem (s : State) (sel : BufSel) (bs : List Byte) : (s.setBuf sel bs).mem = s.mem.setBuf sel bs := rfl

@[simp] theorem State.setRx_mem (s : State) (d : Decoder) : (s.setRx d).mem = s.mem := rfl
@[simp] theorem State.setRx_tx (s : State) (d : Decoder) : (s.setRx d).tx = s.tx := rfl
@[simp] theorem State.setRx_env (s : State) (d : Decoder) : (s.setRx d).env = s.env := rfl
@[simp] theorem State.setRx_ports (s : State) (d : Decoder) : (s.setRx d).ports = s.ports := rfl
@[simp] theorem State.setRx_host (s : State) (d : Decoder) : (s.setRx d).host = s.host := rfl
@[simp] theorem State.setRx_rx (s : State) (d : Decoder) : (s.setRx d).rx = d := rfl

@[simp] theorem State.setPmode_mem (s : State) (m : PMode) : (s.setPmode m).mem = s.mem := rfl
@[simp] theorem State.setPmode_rx (s : State) (m : PMode) : (s.setPmode m).rx = s.rx := rfl
@[simp] theorem State.setPmode_env (s : State) (m : PMode) : (s.setPmode m).env = s.env := rfl
@[simp] theorem State.setPmode_ports (s : State) (m : PMode) : (s.setPmode m).ports = s.ports := rfl
@[simp] theorem State.setPmode_host (s : State) (m : PMode) : (s.setPmode m).host = s.host := rfl
@[simp] theorem State.setPmode_pmode (s : State) (m : PMode) : (s.setPmode m).tx.pmode = m := rfl
@[simp] theorem State.setPmode_txStep (s : State) (m : PMode) : (s.setPmode m).tx.txStep = s.tx.txStep := rfl
@[simp] theorem State.setPmode_txSel (s : State) (m : PMode) : (s.setPmode m).tx.txSel = s.tx.txSel := rfl

@[simp] theorem State.setTxStep_mem (s : State) (k : TxStep) : (s.setTxStep k).mem = s.mem := rfl
@[simp] theorem State.setTxStep_rx (s : State) (k : TxStep) : (s.setTxStep k).rx = s.rx := rfl
@[simp] theorem State.setTxStep_env (s : State) (k : TxStep) : (s.setTxStep k).env = s.env := rfl
@[simp] theorem State.setTxStep_ports (s : State) (k : TxStep) : (s.setTxStep k).ports = s.ports := rfl
@[simp] theorem State.setTxStep_host (s : State) (k : TxStep) : (s.setTxStep k).host = s.host := rfl
@[simp] theorem State.setTxStep_txStep (s : State) (k : TxStep) : (s.setTxStep k).tx.txStep = k := rfl
@[simp] theorem State.setTxStep_pmode (s : State) (k : TxStep) : (s.setTxStep k).tx.pmode = s.tx.pmode := rfl
@[simp] theorem State.setTxStep_txSel (s : State) (k : TxStep) : (s.setTxStep k).tx.txSel = s.tx.txSel := rfl

@[simp] theorem State.cmdReply_mem (s : State) (r : Response) : (s.cmdReply r).mem = s.mem := rfl
@[simp] theorem State.cmdReply_rx (s : State) (r : Response) : (s.cmdReply r).rx = s.rx := rfl
@[simp] theorem State.cmdReply_tx (s : State) (r : Response) : (s.cmdReply r).tx = s.tx := rfl
@[simp] theorem State.cmdReply_env (s : State) (r : Response) : (s.cmdReply r).env = s.env := rfl
@[simp] theorem State.cmdReply_host (s : State) (r : Response) : (s.cmdReply r).host = s.host := rfl
@[simp] theorem State.cmdReply_cmdOut (s : State) (r : Response) : (s.cmdReply r).ports.cmdOut = s.ports.cmdOut ++ [r] := rfl
@[simp] theorem State.cmdReply_cmdIn (s : State) (r : Response) : (s.cmdReply r).ports.cmdIn = s.ports.cmdIn := rfl
@[simp] theorem State.cmdReply_rawIn (s : State) (r : Response) : (s.cmdReply r).ports.rawIn = s.ports.rawIn := rfl
@[simp] theorem State.cmdReply_moves (s : State) (r : Response) : (s.cmdReply r).ports.moves = s.ports.moves := rfl
@[simp] theorem State.cmdReply_rawOut (s : State) (r : Response) : (s.cmdReply r).ports.rawOut = s.ports.rawOut := rfl

@[simp] theorem State.rawReply_mem (s : State) (r : Response) : (s.rawReply r).mem = s.mem := rfl
@[simp] theorem State.rawReply_rx (s : State) (r : Response) : (s.rawReply r).rx = s.rx := rfl
@[simp] theorem State.rawReply_tx (s : State) (r : Response) : (s.rawReply r).tx = s.tx := rfl
@[simp] theorem State.rawReply_env (s : State) (r : Response) : (s.rawReply r).env = s.env := rfl
@[simp] theorem State.rawReply_host (s : State) (r : Response) : (s.rawReply r).host = s.host := rfl
@[simp] theorem State.rawReply_rawOut (s : State) (r : Response) : (s.rawReply r).ports.rawOut = s.ports.rawOut ++ [r] := rfl
@[simp] theorem State.rawReply_cmdIn (s : State) (r : Response) : (s.rawReply r).ports.cmdIn = s.ports.cmdIn := rfl
@[simp] theorem State.rawReply_rawIn (s : State) (r : Response) : (s.rawReply r).ports.rawIn = s.ports.rawIn := rfl
@[simp] theorem State.rawReply_moves (s : State) (r : Response) : (s.rawReply r).ports.moves = s.ports.moves := rfl
@[simp] theorem State.rawReply_cmdOut (s : State) (r : Response) : (s.rawReply r).ports.cmdOut = s.ports.cmdOut := rfl

@[simp] theorem State.withMoves_mem (s : State) (ms : List Move) : (s.withMoves ms).mem = s.mem := rfl
@[simp] theorem State.withMoves_rx (s : State) (ms : List Move) : (s.withMoves ms).rx = s.rx := rfl
@[simp] theorem State.withMoves_tx (s : State) (ms : List Move) : (s.withMoves ms).tx = s.tx := rfl
@[simp] theorem State.withMoves_env (s : State) (ms : List Move) : (s.withMoves ms).env = s.env := rfl
@[simp] theorem State.withMoves_host (s : State) (ms : List Move) : (s.withMoves ms).host = s.host := rfl
@[simp] theorem State.withMoves_moves (s : State) (ms : List Move) : (s.withMoves ms).ports.moves = ms := rfl
@[simp] theorem State.withMoves_cmdIn (s : State) (ms : List Move) : (s.withMoves ms).ports.cmdIn = s.ports.cmdIn := rfl
@[simp] theorem State.withMoves_rawIn (s : State) (ms : List Move) : (s.withMoves ms).ports.rawIn = s.ports.rawIn := rfl
@[simp] theorem State.withMoves_cmdOut (s : State) (ms : List Move) : (s.withMoves ms).ports.cmdOut = s.ports.cmdOut := rfl
@[simp] theorem State.withMoves_rawOut (s : State) (ms : List Move) : (s.withMoves ms).ports.rawOut = s.ports.rawOut := rfl

@[simp] theorem State.withCmdIn_mem (s : State) (bs : List Byte) : (s.withCmdIn bs).mem = s.mem := rfl
@[simp] theorem State.withCmdIn_rx (s : State) (bs : List Byte) : (s.withCmdIn bs).rx = s.rx := rfl
@[simp] theorem State.withCmdIn_tx (s : State) (bs : List Byte) : (s.withCmdIn bs).tx = s.tx := rfl
@[simp] theorem State.withCmdIn_env (s : State) (bs : List Byte) : (s.withCmdIn bs).env = s.env := rfl
@[simp] theorem State.withCmdIn_host (s : State) (bs : List Byte) : (s.withCmdIn bs).host = s.host := rfl
@[simp] theorem State.withCmdIn_cmdIn (s : State) (bs : List Byte) : (s.withCmdIn bs).ports.cmdIn = bs := rfl
@[simp] theorem State.withCmdIn_rawIn (s : State) (bs : List Byte) : (s.withCmdIn bs).ports.rawIn = s.ports.rawIn := rfl
@[simp] theorem State.withCmdIn_moves (s : State) (bs : List Byte) : (s.withCmdIn bs).ports.moves = s.ports.moves := rfl
@[simp] theorem State.withCmdIn_cmdOut (s : State) (bs : List Byte) : (s.withCmdIn bs).ports.cmdOut = s.ports.cmdOut := rfl
@[simp] theorem State.withCmdIn_rawOut (s : State) (bs : List Byte) : (s.withCmdIn bs).ports.rawOut = s.ports.rawOut := rfl

@[simp] theorem State.withRawIn_mem (s : State) (bs : List Byte) : (s.withRawIn bs).mem = s.mem := rfl
@[simp] theorem State.withRawIn_rx (s : State) (bs : List Byte) : (s.withRawIn bs).rx = s.rx := rfl
@[simp] theorem State.withRawIn_tx (s : State) (bs : List Byte) : (s.withRawIn bs).tx = s.tx := rfl
@[simp] theorem State.withRawIn_env (s : State) (bs : List Byte) : (s.withRawIn bs).env = s.env := rfl
@[simp] theorem State.withRawIn_host (s : State) (bs : List Byte) : (s.withRawIn bs).host = s.host := rfl
@[simp] theorem State.withRawIn_rawIn (s : State) (bs : List Byte) : (s.withRawIn bs).ports.rawIn = bs := rfl
@[simp] theorem State.withRawIn_cmdIn (s : State) (bs : List Byte) : (s.withRawIn bs).ports.cmdIn = s.ports.cmdIn := rfl
@[simp] theorem State.withRawIn_moves (s : State) (bs : List Byte) : (s.withRawIn bs).ports.moves = s.ports.moves := rfl
@[simp] theorem State.withRawIn_cmdOut (s : State) (bs : List Byte) : (s.withRawIn bs).ports.cmdOut = s.ports.cmdOut := rfl
@[simp] theorem State.withRawIn_rawOut (s : State) (bs : List Byte) : (s.withRawIn bs).ports.rawOut = s.ports.rawOut := rfl

@[simp] theorem State.emit_mem (s : State) (c : LineChar) : (s.emit c).mem = s.mem := rfl
@[simp] theorem State.emit_rx (s : State) (c : LineChar) : (s.emit c).rx = s.rx := rfl
@[simp] theorem State.emit_tx (s : State) (c : LineChar) : (s.emit c).tx = s.tx := rfl
@[simp] theorem State.emit_ports (s : State) (c : LineChar) : (s.emit c).ports = s.ports := rfl
@[simp] theorem State.emit_host (s : State) (c : LineChar) : (s.emit c).host = s.host := rfl
@[simp] theorem State.emit_lineTx (s : State) (c : LineChar) : (s.emit c).env.lineTx = s.env.lineTx ++ [c] := rfl
@[simp] theorem State.emit_lineOps (s : State) (c : LineChar) : (s.emit c).env.lineOps = s.env.lineOps := rfl
@[simp] theorem State.emit_rawRx (s : State) (c : LineChar) : (s.emit c).env.rawRx = s.env.rawRx := rfl
@[simp] theorem State.emit_alarm (s : State) (c : LineChar) : (s.emit c).env.alarm = s.env.alarm := rfl
@[simp] theorem State.emit_answers (s : State) (c : LineChar) : (s.emit c).env.answers = s.env.answers := rfl
@[simp] theorem State.emit_drawn (s : State) (c : LineChar) : (s.emit c).env.drawn = s.env.drawn := rfl

@[simp] theorem State.logOp_mem (s : State) (op : LineOp) : (s.logOp op).mem = s.mem := rfl
@[simp] theorem State.logOp_rx (s : State) (op : LineOp) : (s.logOp op).rx = s.rx := rfl
@[simp] theorem State.logOp_tx (s : State) (op : LineOp) : (s.logOp op).tx = s.tx := rfl
@[simp] theorem State.logOp_ports (s : State) (op : LineOp) : (s.logOp op).ports = s.ports := rfl
@[simp] theorem State.logOp_host (s : State) (op : LineOp) : (s.logOp op).host = s.host := rfl
@[simp] theorem State.logOp_lineOps (s : State) (op : LineOp) : (s.logOp op).env.lineOps = s.env.lineOps ++ [op] := rfl
@[simp] theorem State.logOp_lineTx (s : State) (op : LineOp) : (s.logOp op).env.lineTx = s.env.lineTx := rfl
@[simp] theorem State.logOp_rawRx (s : State) (op : LineOp) : (s.logOp op).env.rawRx = s.env.rawRx := rfl
@[simp] theorem State.logOp_alarm (s : State) (op : LineOp) : (s.logOp op).env.alarm = s.env.alarm := rfl
@[simp] theorem State.logOp_answers (s : State) (op : LineOp) : (s.logOp op).env.answers = s.env.answers := rfl
@[simp] theorem State.logOp_drawn (s : State) (op : LineOp) : (s.logOp op).env.drawn = s.env.drawn := rfl

@[simp] theorem State.withAnswers_mem (s : State) (as : List LineAnswer) : (s.withAnswers as).mem = s.mem := rfl
@[simp] theorem State.withAnswers_rx (s : State) (as : List LineAnswer) : (s.withAnswers as).rx = s.rx := rfl
@[simp] theorem State.withAnswers_tx (s : State) (as : List LineAnswer) : (s.withAnswers as).tx = s.tx := rfl
@[simp] theorem State.withAnswers_ports (s : State) (as : List LineAnswer) : (s.withAnswers as).ports = s.ports := rfl
@[simp] theorem State.withAnswers_host (s : State) (as : List LineAnswer) : (s.withAnswers as).host = s.host := rfl
@[simp] theorem State.withAnswers_answers (s : State) (as : List LineAnswer) : (s.withAnswers as).env.answers = as := rfl
@[simp] theorem State.withAnswers_lineTx (s : State) (as : List LineAnswer) : (s.withAnswers as).env.lineTx = s.env.lineTx := rfl
@[simp] theorem State.withAnswers_lineOps (s : State) (as : List LineAnswer) : (s.withAnswers as).env.lineOps = s.env.lineOps := rfl
@[simp] theorem State.withAnswers_rawRx (s : State) (as : List LineAnswer) : (s.withAnswers as).env.rawRx = s.env.rawRx := rfl
@[simp] theorem State.withAnswers_alarm (s : State) (as : List LineAnswer) : (s.withAnswers as).env.alarm = s.env.alarm := rfl
@[simp] theorem State.withAnswers_drawn (s : State) (as : List LineAnswer) : (s.withAnswers as).env.drawn = s.env.drawn := rfl

@[simp] theorem State.setHs_mem (s : State) (h : Hs) : (s.setHs h).mem = s.mem := rfl
@[simp] theorem State.setHs_rx (s : State) (h : Hs) : (s.setHs h).rx = s.rx := rfl
@[simp] theorem State.setHs_tx (s : State) (h : Hs) : (s.setHs h).tx = s.tx := rfl
@[simp] theorem State.setHs_env (s : State) (h : Hs) : (s.setHs h).env = s.env := rfl
@[simp] theorem State.setHs_ports (s : State) (h : Hs) : (s.setHs h).ports = s.ports := rfl
@[simp] theorem State.setHs_hs (s : State) (h : Hs) : (s.setHs h).host.hs = h := rfl
@[simp] theorem State.setHs_a (s : State) (h : Hs) : (s.setHs h).host.a = s.host.a := rfl
@[simp] theorem State.setHs_b (s : State) (h : Hs) : (s.setHs h).host.b = s.host.b := rfl
@[simp] theorem State.setHs_expectedSum (s : State) (h : Hs) : (s.setHs h).host.expectedSum = s.host.expectedSum := rfl
@[simp] theorem State.setHs_receivedSum (s : State) (h : Hs) : (s.setHs h).host.receivedSum = s.host.receivedSum := rfl

@[simp] theorem State.setReceived_mem (s : State) (v : Word32) : (s.setReceived v).mem = s.mem := rfl
@[simp] theorem State.setReceived_rx (s : State) (v : Word32) : (s.setReceived v).rx = s.rx := rfl
@[simp] theorem State.setReceived_tx (s : State) (v : Word32) : (s.setReceived v).tx = s.tx := rfl
@[simp] theorem State.setReceived_env (s : State) (v : Word32) : (s.setReceived v).env = s.env := rfl
@[simp] theorem State.setReceived_ports (s : State) (v : Word32) : (s.setReceived v).ports = s.ports := rfl
@[simp] theorem State.setReceived_receivedSum (s : State) (v : Word32) : (s.setReceived v).host.receivedSum = v := rfl
@[simp] theorem State.setReceived_hs (s : State) (v : Word32) : (s.setReceived v).host.hs = s.host.hs := rfl
@[simp] theorem State.setReceived_a (s : State) (v : Word32) : (s.setReceived v).host.a = s.host.a := rfl
@[simp] theorem State.setReceived_b (s : State) (v : Word32) : (s.setReceived v).host.b = s.host.b := rfl
@[simp] theorem State.setReceived_expectedSum (s : State) (v : Word32) : (s.setReceived v).host.expectedSum = s.host.expectedSum := rfl

/-! Reset of the block (R211): its own registers at their reset values, the rest untouched. -/

@[simp] theorem resetBlock_mem (s : State) : (resetBlock s).mem = State.reset.mem := rfl
@[simp] theorem resetBlock_rx (s : State) : (resetBlock s).rx = State.reset.rx := rfl
@[simp] theorem resetBlock_tx (s : State) : (resetBlock s).tx = State.reset.tx := rfl
@[simp] theorem resetBlock_env (s : State) : (resetBlock s).env = s.env := rfl
@[simp] theorem resetBlock_ports (s : State) : (resetBlock s).ports = s.ports := rfl
@[simp] theorem resetBlock_host (s : State) : (resetBlock s).host = s.host := rfl

/-! The ways out of a ProtocolError (R133, R145). -/

@[simp] theorem freshDecoder_mem (n : BitVec 9) (s : State) : (freshDecoder n s).mem = s.mem.setBuf .b1 [] := rfl
@[simp] theorem freshDecoder_rx (n : BitVec 9) (s : State) :
    (freshDecoder n s).rx = { marked := false, escaped := false, explen := n, phase := .active, err := 0x00 } := rfl
@[simp] theorem freshDecoder_tx (n : BitVec 9) (s : State) : (freshDecoder n s).tx = s.tx := rfl
@[simp] theorem freshDecoder_env (n : BitVec 9) (s : State) : (freshDecoder n s).env = s.env := rfl
@[simp] theorem freshDecoder_ports (n : BitVec 9) (s : State) : (freshDecoder n s).ports = s.ports := rfl
@[simp] theorem freshDecoder_host (n : BitVec 9) (s : State) : (freshDecoder n s).host = s.host := rfl
@[simp] theorem discardDecoder_rx (s : State) :
    (discardDecoder s).rx = { s.rx with phase := .idle, err := 0x00 } := rfl
@[simp] theorem discardDecoder_mem (s : State) : (discardDecoder s).mem = s.mem := rfl
@[simp] theorem discardDecoder_tx (s : State) : (discardDecoder s).tx = s.tx := rfl
@[simp] theorem discardDecoder_env (s : State) : (discardDecoder s).env = s.env := rfl
@[simp] theorem discardDecoder_ports (s : State) : (discardDecoder s).ports = s.ports := rfl
@[simp] theorem discardDecoder_host (s : State) : (discardDecoder s).host = s.host := rfl

/-! Taking an answer touches the environment only. -/

@[simp] theorem takeAnswer_mem (s : State) : s.takeAnswer.mem = s.mem := by
  unfold State.takeAnswer; split <;> rfl
@[simp] theorem takeAnswer_rx (s : State) : s.takeAnswer.rx = s.rx := by
  unfold State.takeAnswer; split <;> rfl
@[simp] theorem takeAnswer_tx (s : State) : s.takeAnswer.tx = s.tx := by
  unfold State.takeAnswer; split <;> rfl
@[simp] theorem takeAnswer_ports (s : State) : s.takeAnswer.ports = s.ports := by
  unfold State.takeAnswer; split <;> rfl
@[simp] theorem takeAnswer_host (s : State) : s.takeAnswer.host = s.host := by
  unfold State.takeAnswer; split <;> rfl
@[simp] theorem takeAnswer_lineTx (s : State) : s.takeAnswer.env.lineTx = s.env.lineTx := by
  unfold State.takeAnswer; split <;> rfl
@[simp] theorem takeAnswer_lineOps (s : State) : s.takeAnswer.env.lineOps = s.env.lineOps := by
  unfold State.takeAnswer; split <;> rfl
@[simp] theorem takeAnswer_alarm (s : State) : s.takeAnswer.env.alarm = s.env.alarm := by
  unfold State.takeAnswer; split <;> rfl

theorem State.reset_memory_wf : State.reset.mem.wf := by decide

end Sys2Proof.Machine
end

