-- ==== Sys2Proof/Laws/Ops.lean ====
section
/-! SUPPORT. One lemma per shared operation, saying once what it can do; later proofs cite these instead of unfolding. -/

namespace Sys2Proof.Machine

/-! ## Buffers (R13, R15) -/

@[simp] theorem Memory.buf_b0 (m : Memory) : m.buf .b0 = m.b0 := rfl
@[simp] theorem Memory.buf_b1 (m : Memory) : m.buf .b1 = m.b1 := rfl

@[simp] theorem Memory.buf_setBuf_same (m : Memory) (sel : BufSel) (bs : List Byte) : (m.setBuf sel bs).buf sel = bs := by
  cases sel <;> rfl

@[simp] theorem Memory.buf_setBuf_other (m : Memory) (sel : BufSel) (bs : List Byte) :
    (m.setBuf sel bs).buf (otherBuf sel) = m.buf (otherBuf sel) := by
  cases sel <;> rfl

theorem Memory.buf_setBuf_of_ne (m : Memory) {x y : BufSel} (h : x ≠ y) (bs : List Byte) :
    (m.setBuf x bs).buf y = m.buf y := by
  cases x <;> cases y <;> first | rfl | exact absurd rfl h

@[simp] theorem Memory.b0_setBuf_b1 (m : Memory) (bs : List Byte) : (m.setBuf .b1 bs).b0 = m.b0 := rfl
@[simp] theorem Memory.b1_setBuf_b1 (m : Memory) (bs : List Byte) : (m.setBuf .b1 bs).b1 = bs := rfl
@[simp] theorem Memory.b0_setBuf_b0 (m : Memory) (bs : List Byte) : (m.setBuf .b0 bs).b0 = bs := rfl
@[simp] theorem Memory.b1_setBuf_b0 (m : Memory) (bs : List Byte) : (m.setBuf .b0 bs).b1 = m.b1 := rfl

theorem Memory.read_eq (m : Memory) (sel : BufSel) (i : Nat) : m.read sel i = (m.buf sel)[i]? := rfl
theorem Memory.len_eq (m : Memory) (sel : BufSel) : m.len sel = (m.buf sel).length := rfl

/-- Reading a byte of a buffer after that buffer was written. -/
theorem Memory.read_setBuf_same (m : Memory) (sel : BufSel) (bs : List Byte) (i : Nat) :
    (m.setBuf sel bs).read sel i = bs[i]? := by
  simp [Memory.read_eq]

/-- A write of one buffer leaves the other alone. -/
theorem Memory.read_setBuf_other (m : Memory) (sel : BufSel) (bs : List Byte) (i : Nat) :
    (m.setBuf sel bs).read (otherBuf sel) i = m.read (otherBuf sel) i := by
  simp [Memory.read_eq]

/-- A new content of at most `CAPACITY` bytes keeps the buffers' form. -/
theorem Memory.setBuf_keeps_wf {m : Memory} (h : m.wf) (sel : BufSel) {bs : List Byte}
    (hb : bs.length ≤ Config.capacity) : (m.setBuf sel bs).wf := by
  cases sel
  · exact ⟨hb, h.2⟩
  · exact ⟨h.1, hb⟩

/-- An append that passed the room check keeps the buffers' form (R46). -/
theorem Memory.append_keeps_wf {m : Memory} (h : m.wf) (sel : BufSel) {bs : List Byte}
    (hf : m.fits sel bs.length = true) : (m.append sel bs).wf := by
  apply Memory.setBuf_keeps_wf h
  simpa [Memory.len_eq] using of_decide_eq_true hf

/-! ## The interaction with the environment -/

/-- What an interaction may change without ending the operation: the environment's own bookkeeping. Its lists of the
wire and of the line's operations only grow, and an alarm never goes back to `off`. -/
structure LineGrows (s t : State) : Prop where
  mem : t.mem = s.mem
  rx : t.rx = s.rx
  ports : t.ports = s.ports
  host : t.host = s.host
  lineTx : s.env.lineTx <+: t.env.lineTx
  lineOps : s.env.lineOps <+: t.env.lineOps
  alarm : s.env.alarm ≠ .off → t.env.alarm ≠ .off

theorem LineGrows.refl (s : State) : LineGrows s s :=
  ⟨rfl, rfl, rfl, rfl, List.prefix_refl _, List.prefix_refl _, id⟩

theorem LineGrows.trans {s t u : State} (h : LineGrows s t) (k : LineGrows t u) : LineGrows s u :=
  ⟨k.mem.trans h.mem, k.rx.trans h.rx, k.ports.trans h.ports, k.host.trans h.host, h.lineTx.trans k.lineTx,
    h.lineOps.trans k.lineOps, k.alarm ∘ h.alarm⟩

/-- The events that cut an operation off: a reset of the block, or the deadline ending the handshake. -/
inductive CutBy (s t : State) : Prop where
  | reset (block : t.block = State.reset.block) (ports : t.ports = s.ports) (host : t.host = s.host)
      (lineTx : t.env.lineTx = s.env.lineTx) (lineOps : t.env.lineOps = s.env.lineOps)
      (alarm : t.env.alarm = s.env.alarm)
  | deadline (mem : t.mem = s.mem) (rx : t.rx = s.rx) (tx : t.tx = { s.tx with txStep := .idle })
      (ports : t.ports = s.ports) (host : t.host = { s.host with hs := .ended .timeoutError })
      (lineTx : t.env.lineTx = s.env.lineTx) (lineOps : t.env.lineOps = s.env.lineOps)
      (alarm : t.env.alarm ≠ .off)

/-- A deadline that cuts nothing changes the alarm only. -/
theorem deliverDeadline_of_not_cuts {s : State} (h : s.deadlineCuts = false) :
    deliverDeadline s = match s.env.alarm with
      | .armed => { s with env := { s.env with alarm := .fired } }
      | _ => s := by
  unfold deliverDeadline
  cases ha : s.env.alarm <;> simp [h]

/-- A deadline that cuts a handshake. -/
theorem deliverDeadline_of_cuts {s : State} (h : s.deadlineCuts = true) :
    deliverDeadline s = { s with
      env := { s.env with alarm := .fired }
      host := { s.host with hs := .ended .timeoutError }
      tx := { s.tx with txStep := .idle } } := by
  have ha : s.env.alarm = .armed := by
    unfold State.deadlineCuts at h
    split at h <;> simp_all
  unfold deliverDeadline
  rw [ha]
  simp [h, State.setHs, State.setTxStep]

/-- An interaction that goes on changes the environment's bookkeeping only, and keeps the encoder. -/
theorem nextTurn_goesOn {s t : State} {a : LineAnswer} (h : nextTurn s = .goesOn a t) :
    LineGrows s t ∧ t.tx = s.tx ∧ t.env.lineTx = s.env.lineTx ∧ t.env.lineOps = s.env.lineOps ∧ a = s.nextAnswer := by
  unfold nextTurn at h
  split at h
  · injection h with h1 h2
    subst h1 h2
    exact ⟨⟨by simp, by simp, by simp, by simp, by simp, by simp, by simp⟩, by simp, by simp, by simp, rfl⟩
  · exact absurd h (by simp)
  · split at h
    · exact absurd h (by simp)
    · rename_i hc
      injection h with h1 h2
      subst h1 h2
      rw [deliverDeadline_of_not_cuts (by simpa using hc)]
      cases ha : s.takeAnswer.env.alarm <;>
        exact ⟨⟨by simp, by simp, by simp, by simp, by simp, by simp, by simp_all⟩, by simp, by simp, by simp, rfl⟩

/-- An interaction that is cut off: by a reset, or by the deadline. -/
theorem nextTurn_cutOff {s t : State} (h : nextTurn s = .cutOff t) : CutBy s t := by
  unfold nextTurn at h
  split at h
  · exact absurd h (by simp)
  · injection h with h
    subst h
    exact .reset rfl (by simp) (by simp) (by simp) (by simp) (by simp)
  · split at h
    · rename_i hc
      injection h with h
      subst h
      rw [deliverDeadline_of_cuts hc]
      exact .deadline (by simp) (by simp) (by simp) (by simp) (by simp) (by simp) (by simp) (by simp)
    · exact absurd h (by simp)

/-- The state with its first answer taken. -/
theorem nextTurn_of_quiet {s : State} {a : LineAnswer} {as : List LineAnswer} (h : s.env.answers = a :: as)
    (he : a.event = none) :
    nextTurn s = .goesOn a { s with env := { s.env with answers := as, rawRx := s.env.rawRx ++ a.arrived } } := by
  have h1 : s.nextAnswer = a := by simp [State.nextAnswer, h]
  have h2 : s.takeAnswer = { s with env := { s.env with answers := as, rawRx := s.env.rawRx ++ a.arrived } } := by
    simp [State.takeAnswer, h]
  simp [nextTurn, h1, h2, he]

/-! ## The line -/

/-- Characters written in `MARK` mode (R53). -/
theorem emitAll_mark (ds : List Byte) (s : State) (h : s.tx.pmode = .mark) :
    emitAll ds s = { s with env := { s.env with lineTx := s.env.lineTx ++ ds.map (fun d => ⟨true, d⟩) } } := by
  induction ds generalizing s with
  | nil => simp [emitAll]
  | cons d ds ih =>
    rw [emitAll, ih (s.emit ⟨s.parityBit, d⟩) (by simpa using h)]
    simp [State.parityBit, h, State.emit]

/-- Characters written in `SPACE` mode (R53). -/
theorem emitAll_space (ds : List Byte) (s : State) (h : s.tx.pmode = .space) :
    emitAll ds s = { s with env := { s.env with lineTx := s.env.lineTx ++ ds.map (fun d => ⟨false, d⟩) } } := by
  induction ds generalizing s with
  | nil => simp [emitAll]
  | cons d ds ih =>
    rw [emitAll, ih (s.emit ⟨s.parityBit, d⟩) (by simpa using h)]
    simp [State.parityBit, h, State.emit]

theorem emit_grows (c : LineChar) (s : State) : LineGrows s (s.emit c) :=
  ⟨rfl, rfl, rfl, rfl, by simp, by simp, by simp⟩

/-- Whatever the parity mode, writing only adds characters to the wire. -/
theorem emitAll_grows (ds : List Byte) (s : State) : LineGrows s (emitAll ds s) ∧ (emitAll ds s).tx = s.tx := by
  induction ds generalizing s with
  | nil => exact ⟨.refl s, rfl⟩
  | cons d ds ih =>
    have h := ih (s.emit ⟨s.parityBit, d⟩)
    rw [emitAll]
    exact ⟨(emit_grows _ s).trans h.1, by simpa using h.2⟩

theorem logOp_grows (op : LineOp) (s : State) : LineGrows s (s.logOp op) :=
  ⟨rfl, rfl, rfl, rfl, by simp, by simp, by simp⟩

theorem setPmode_grows (m : PMode) (s : State) : LineGrows s (s.setPmode m) :=
  ⟨rfl, rfl, rfl, rfl, by simp, by simp, by simp⟩

theorem setTxStep_grows (k : TxStep) (s : State) : LineGrows s (s.setTxStep k) :=
  ⟨rfl, rfl, rfl, rfl, by simp, by simp, by simp⟩

theorem lineSetParityMark_grows (a : LineAnswer) (s : State) : LineGrows s (lineSetParityMark a s).2 :=
  (setPmode_grows _ s).trans (logOp_grows _ _)

theorem lineSetParitySpace_grows (a : LineAnswer) (s : State) : LineGrows s (lineSetParitySpace a s).2 :=
  (setPmode_grows _ s).trans (logOp_grows _ _)

theorem lineWriteBytes_grows (bs : List Byte) (a : LineAnswer) (s : State) : LineGrows s (lineWriteBytes bs a s).2 :=
  (emitAll_grows _ s).1.trans (logOp_grows _ _)

theorem lineDelay_grows (s : State) : LineGrows s (lineDelay s) := logOp_grows _ s

/-- A read takes bytes from `raw_rx` and records itself (R50). -/
theorem lineReadBytes_grows (n : Nat) (a : LineAnswer) (s : State) :
    LineGrows s (lineReadBytes n a s).2 ∧ (lineReadBytes n a s).2.tx = s.tx := by
  unfold lineReadBytes
  split
  · exact ⟨logOp_grows _ s, rfl⟩
  · exact ⟨⟨rfl, rfl, rfl, rfl, by simp, by simp, by simp⟩, rfl⟩

/-- How many characters a write puts on the wire is never more than asked for (R49). -/
theorem onWire_le (a : LineAnswer) (n : Nat) : onWire a n ≤ n := by
  unfold onWire
  split
  · rename_i h
    simp at h
    omega
  · exact min_le_right _ _

/-- A count in range is the number of characters on the wire (R49). -/
theorem onWire_of_count (a : LineAnswer) (n : Nat) (h : a.fails = false) (h0 : 0 ≤ a.count) (h1 : a.count ≤ (n : Int)) :
    onWire a n = a.count.toNat := by
  simp [onWire, h, h0, h1]

/-! ## The decoder -/

/-- What raising a ProtocolError leaves (R144). -/
theorem raiseProtocol_eq (c : ProtoCause) (s : State) :
    raiseProtocol c s = (.err (.protocol c), { s with rx := { s.rx with phase := .failed, err := c.code } }) := rfl

end Sys2Proof.Machine
end

