-- ==== Sys2Proof/Laws/Encoder.lean ====
section
/-! SUPPORT. What a `TX.SEND` can do, said once for every answer of the environment (41_encoder.md). -/

namespace Sys2Proof.Machine

/-- How a send in progress can end, from a state `s`: it returns a response after line operations only, or it is cut
off after line operations only. -/
inductive SendOutcome (s : State) : SendEnd → Prop where
  | finished {r : Response} {t : State} (grows : LineGrows s t) (idle : t.tx.txStep = .idle)
      (resp : r = .ok ∨ r = .err (.io .write) ∨ r = .err (.io .configure)) : SendOutcome s (.finished r t)
  | abandoned {u t : State} (grows : LineGrows s u) (cut : CutBy u t) : SendOutcome s (.abandoned t)

theorem SendOutcome.of_grows {s t : State} {e : SendEnd} (h : LineGrows s t) (k : SendOutcome t e) : SendOutcome s e := by
  cases k with
  | finished g i r => exact .finished (h.trans g) i r
  | abandoned g c => exact .abandoned (h.trans g) c

theorem endSend_outcome {r : Response} {s : State} (h : r = .ok ∨ r = .err (.io .write) ∨ r = .err (.io .configure)) :
    SendOutcome s (endSend r s) :=
  .finished (setTxStep_grows _ s) (by simp) h

theorem raiseIo_write_outcome (s : State) : SendOutcome s (raiseIo .write s) := endSend_outcome (.inr (.inl rfl))
theorem raiseIo_configure_outcome (s : State) : SendOutcome s (raiseIo .configure s) := endSend_outcome (.inr (.inr rfl))

/-- One step of the send: the interaction, then what the step does. -/
theorem sendStep_outcome (pos : TxStep) (s : State) {k : LineAnswer → State → SendEnd}
    (hk : ∀ a t, SendOutcome t (k a t)) : SendOutcome s (sendStep pos s k) := by
  unfold sendStep
  split
  · rename_i h
    exact .abandoned (setTxStep_grows pos s) (nextTurn_cutOff h)
  · rename_i a t h
    exact (hk a t).of_grows ((setTxStep_grows pos s).trans (nextTurn_goesOn h).1)

theorem sendStep6_outcome (s : State) : SendOutcome s (sendStep6 s) :=
  sendStep_outcome _ _ fun _ t => (endSend_outcome (.inl rfl)).of_grows (lineDelay_grows t)

theorem sendStep5_outcome (s : State) : SendOutcome s (sendStep5 s) := by
  unfold sendStep5
  split
  · refine sendStep_outcome _ _ fun a t => ?_
    dsimp only
    split
    · exact (sendStep6_outcome _).of_grows (lineWriteBytes_grows _ a t)
    · exact (raiseIo_write_outcome _).of_grows (lineWriteBytes_grows _ a t)
  · exact sendStep6_outcome s

theorem sendStep4_outcome (s : State) : SendOutcome s (sendStep4 s) := by
  refine sendStep_outcome _ _ fun a t => ?_
  dsimp only
  split
  · exact (sendStep5_outcome _).of_grows (lineSetParitySpace_grows a t)
  · exact (raiseIo_configure_outcome _).of_grows (lineSetParitySpace_grows a t)

theorem sendStep3_outcome (s : State) : SendOutcome s (sendStep3 s) :=
  sendStep_outcome _ _ fun _ t => (sendStep4_outcome _).of_grows (lineDelay_grows t)

theorem sendStep2_outcome (s : State) : SendOutcome s (sendStep2 s) := by
  refine sendStep_outcome _ _ fun a t => ?_
  dsimp only
  split
  · exact (raiseIo_write_outcome _).of_grows (lineWriteBytes_grows _ a t)
  · split
    · exact (raiseIo_write_outcome _).of_grows (lineWriteBytes_grows _ a t)
    · exact (sendStep3_outcome _).of_grows (lineWriteBytes_grows _ a t)

theorem sendStep1_outcome (s : State) : SendOutcome s (sendStep1 s) := by
  refine sendStep_outcome _ _ fun a t => ?_
  dsimp only
  split
  · exact (sendStep2_outcome _).of_grows (lineSetParityMark_grows a t)
  · exact (raiseIo_configure_outcome _).of_grows (lineSetParityMark_grows a t)

/-- A send whose buffer holds something, or one that is resumed at one of its steps. -/
theorem resumeSend_outcome (s : State) (h : s.tx.txStep ≠ .idle) : SendOutcome s (resumeSend s) := by
  unfold resumeSend
  split
  · contradiction
  · exact sendStep1_outcome s
  · exact sendStep2_outcome s
  · exact sendStep3_outcome s
  · exact sendStep4_outcome s
  · exact sendStep5_outcome s
  · exact sendStep6_outcome s

/-- What `TX.SEND` can end in (R130, R186): the refusal of an empty buffer, or a send. -/
theorem sendFrame_cases (sel : BufSel) (s : State) :
    (s.mem.buf sel = [] ∧ sendFrame sel s = .finished (.refused .emptyFrame) s) ∨
      (s.mem.buf sel ≠ [] ∧ SendOutcome s (sendFrame sel s)) := by
  unfold sendFrame
  split
  · exact .inl ⟨by assumption, rfl⟩
  · rename_i h
    refine .inr ⟨by simp [h], (sendStep1_outcome _).of_grows ?_⟩
    exact ⟨rfl, rfl, rfl, rfl, List.prefix_refl _, List.prefix_refl _, id⟩

/-- A send that starts from a quiet answer does its step with it. -/
theorem sendStep_of_quiet {s : State} {a : LineAnswer} {as : List LineAnswer} (pos : TxStep)
    (k : LineAnswer → State → SendEnd) (h : s.env.answers = a :: as) (he : a.event = none) :
    sendStep pos s k =
      k a { s with
        tx := { s.tx with txStep := pos }
        env := { s.env with answers := as, rawRx := s.env.rawRx ++ a.arrived } } := by
  unfold sendStep
  rw [nextTurn_of_quiet (s := s.setTxStep pos) (by simpa using h) he]
  rfl

end Sys2Proof.Machine
end

