-- ==== Sys2Proof/Laws/Words.lean ====
section
/-! SUPPORT. Byte order, 9-bit words and opcode bytes: each helper of the decoder and the encoder said once. -/

namespace Sys2Proof

/-- Two little-endian bytes of a number give the number back (R74). -/
theorem le16_bytes16 (v : BitVec 16) : le16 (v.extractLsb' 0 8) (v.extractLsb' 8 8) = v := by
  apply BitVec.eq_of_getLsbD_eq; intro i hi
  simp only [le16, BitVec.getLsbD_append, BitVec.getLsbD_extractLsb']
  split
  · simp; intros; omega
  · rename_i h
    have : 8 + (i - 8) = i := by omega
    simp [this]; intros; omega

/-- Four little-endian bytes of a word give the word back (R69, R105). -/
theorem le32_bytes32 (v : Word32) :
    le32 (v.extractLsb' 0 8) (v.extractLsb' 8 8) (v.extractLsb' 16 8) (v.extractLsb' 24 8) = v := by
  apply BitVec.eq_of_getLsbD_eq; intro i hi
  simp only [le32, BitVec.getLsbD_append, BitVec.getLsbD_extractLsb']
  repeat' split
  · simp; omega
  · have : 8 + (i - 8) = i := by omega
    simp [this]; omega
  · have : 16 + (i - 8 - 8) = i := by omega
    simp [this]; omega
  · have : 24 + (i - 8 - 8 - 8) = i := by omega
    simp [this]; omega

/-- The value of two bytes (R74). -/
theorem le16_toNat (x0 x1 : Byte) : (le16 x0 x1).toNat = x0.toNat + 256 * x1.toNat := by
  have := x0.isLt
  rw [le16, BitVec.toNat_append, ← Nat.shiftLeft_add_eq_or_of_lt this, Nat.shiftLeft_eq]; omega

/-- The value of four bytes (R99). -/
theorem le32_toNat (x0 x1 x2 x3 : Byte) : (le32 x0 x1 x2 x3).toNat =
    x0.toNat + 256 * x1.toNat + 65536 * x2.toNat + 16777216 * x3.toNat := by
  have h0 := x0.isLt
  have h1 := x1.isLt
  have h2 := x2.isLt
  show ((x3 ++ x2 ++ x1 ++ x0 : BitVec (8+8+8+8))).toNat = _
  rw [BitVec.toNat_append, ← Nat.shiftLeft_add_eq_or_of_lt h0, BitVec.toNat_append,
    ← Nat.shiftLeft_add_eq_or_of_lt h1, BitVec.toNat_append, ← Nat.shiftLeft_add_eq_or_of_lt h2]
  simp only [Nat.shiftLeft_eq]; omega

/-- The bytes of a number made of two bytes (R74). -/
theorem bytes16_le16 (x0 x1 : Byte) : bytes16 (le16 x0 x1) = [x0, x1] := by
  simp only [bytes16, le16]
  congr 1
  · apply BitVec.eq_of_getLsbD_eq; intro i hi
    simp only [BitVec.getLsbD_extractLsb', BitVec.getLsbD_append, hi]
    simp [hi]
  · congr 1
    apply BitVec.eq_of_getLsbD_eq; intro i hi
    simp only [BitVec.getLsbD_extractLsb', BitVec.getLsbD_append, hi]
    simp

/-- The bytes of a number made of four bytes (R69, R74). -/
theorem bytes32_le32 (x0 x1 x2 x3 : Byte) : bytes32 (le32 x0 x1 x2 x3) = [x0, x1, x2, x3] := by
  have hx := le32_bytes32 (le32 x0 x1 x2 x3)
  have h := congrArg BitVec.toNat hx
  rw [le32_toNat, le32_toNat] at h
  have e : ∀ y0 y1 y2 y3 z0 z1 z2 z3 : Byte, y0.toNat + 256 * y1.toNat + 65536 * y2.toNat + 16777216 * y3.toNat =
      z0.toNat + 256 * z1.toNat + 65536 * z2.toNat + 16777216 * z3.toNat → [y0, y1, y2, y3] = [z0, z1, z2, z3] := by
    intro y0 y1 y2 y3 z0 z1 z2 z3 q
    have a0 : y0 = z0 := BitVec.eq_of_toNat_eq (by have := y0.isLt; have := z0.isLt; omega)
    have a1 : y1 = z1 := BitVec.eq_of_toNat_eq (by
      have := y0.isLt; have := z0.isLt; have := y1.isLt; have := z1.isLt; omega)
    have a2 : y2 = z2 := BitVec.eq_of_toNat_eq (by
      have := y0.isLt; have := z0.isLt; have := y1.isLt; have := z1.isLt; have := y2.isLt; have := z2.isLt; omega)
    subst a0 a1 a2
    have a3 : y3 = z3 := BitVec.eq_of_toNat_eq (by omega)
    rw [a3]
  exact e _ _ _ _ _ _ _ _ h

/-- The two fields of a 9-bit word (R63, R67). -/
theorem word9_fields (h : Bool) (b : Byte) : (word9 h b).getLsbD 8 = h ∧ (word9 h b).extractLsb' 0 8 = b := by
  revert h b; decide +kernel
/-- A 9-bit word is made of its two fields (R63, R67). -/
theorem word9_of_fields (w : BitVec 9) : word9 (w.getLsbD 8) (w.extractLsb' 0 8) = w := by
  revert w; decide +kernel

/-- An opcode byte with either buffer select selects its row, and its select bit is read back (R72, R73). -/
theorem decodeCmd_opByte (o : CmdOp) (p : Byte) (h0 : opcodeOf p = some o) (h1 : opcodeOf (p ||| 0x01) = some o)
    (s0 : selOf p = .b0) (s1 : selOf (p ||| 0x01) = .b1) (sel : BufSel) (ps : List Byte) :
    decodeCmd (opByte p sel :: ps) = decodeOperands o sel ps := by
  cases sel
  · show (match opcodeOf p with
      | none => Decoded.illegalCommand p ps
      | some o => decodeOperands o (selOf p) ps) = _
    rw [h0, s0]
  · show (match opcodeOf (p ||| 0x01) with
      | none => Decoded.illegalCommand (p ||| 0x01) ps
      | some o => decodeOperands o (selOf (p ||| 0x01)) ps) = _
    rw [h1, s1]

end Sys2Proof
end

