-- ==== Sys2Proof/Laws/MsgBuf.lean ====
section
/-! SUPPORT. What the shared operations of the MessageBuffer family and of the FrameDecoder can do, each said once. -/

namespace Sys2Proof.Machine

/-- The ownership test is the condition of R108. -/
theorem owned_iff (s : State) (sel : BufSel) : s.owned sel = true ↔ s.HeldByDecoder sel := by
  simp [State.owned, State.HeldByDecoder]

/-- A write is refused exactly when the decoder holds the buffer (R108). -/
theorem ownerCheck_cases (sel : BufSel) (s : State) (w : Response × State) :
    (s.HeldByDecoder sel ∧ ownerCheck sel s w = (.refused .bufferOwned, s)) ∨
      (¬ s.HeldByDecoder sel ∧ ownerCheck sel s w = w) := by
  by_cases h : s.HeldByDecoder sel
  · exact .inl ⟨h, by simp [ownerCheck, (owned_iff s sel).2 h]⟩
  · have hf : s.owned sel = false := by
      cases ho : s.owned sel
      · rfl
      · exact absurd ((owned_iff s sel).1 ho) h
    exact .inr ⟨h, by simp [ownerCheck, hf]⟩

theorem ownerCheck_free {sel : BufSel} {s : State} (h : ¬ s.HeldByDecoder sel) (w : Response × State) :
    ownerCheck sel s w = w := by
  rcases ownerCheck_cases sel s w with ⟨k, _⟩ | ⟨_, e⟩
  · exact absurd k h
  · exact e

theorem ownerCheck_held {sel : BufSel} {s : State} (h : s.HeldByDecoder sel) (w : Response × State) :
    ownerCheck sel s w = (.refused .bufferOwned, s) := by
  rcases ownerCheck_cases sel s w with ⟨_, e⟩ | ⟨k, _⟩
  · exact e
  · exact absurd h k

/-- `B[0]` is never held by the decoder (R108). -/
theorem not_held_b0 (s : State) : ¬ s.HeldByDecoder .b0 := fun h => nomatch h.1

/-- An append writes all its bytes when they fit, and nothing otherwise (R93). -/
theorem appendBytes_cases (sel : BufSel) (bs : List Byte) (s : State) :
    (s.mem.len sel + bs.length ≤ 256 ∧ appendBytes sel bs s = (.ok, s.setBuf sel (s.mem.buf sel ++ bs))) ∨
      (256 < s.mem.len sel + bs.length ∧ appendBytes sel bs s = (.fail .capacityExceeded, s)) := by
  by_cases h : s.mem.len sel + bs.length ≤ 256
  · exact .inl ⟨h, by simp [appendBytes, Memory.fits, Config.capacity, h]⟩
  · exact .inr ⟨by omega, by simp [appendBytes, Memory.fits, Config.capacity, h]⟩

/-- The four bytes of an `int32` read back as it (R105). -/
theorem int32Of_bytes32 (v : Word32) : int32Of (bytes32 v) = some v := by
  simp [int32Of, bytes32, le32_bytes32]

/-- What `MB.GETI32` gives on the bytes of an `int32` (R99). -/
theorem getInt32_of_bytes32 {sel : BufSel} {v : Word32} {s : State} (h : s.mem.buf sel = bytes32 v) :
    getInt32 sel s = (.val (.int32 v), s) := by
  rw [getInt32, h, int32Of_bytes32]

/-- What `MB.GETI32` gives, in either case (R99): it writes no state. -/
theorem getInt32_cases (sel : BufSel) (s : State) :
    (∃ v, int32Of (s.mem.buf sel) = some v ∧ getInt32 sel s = (.val (.int32 v), s)) ∨
      getInt32 sel s = (.fail .wrongLength, s) := by
  unfold getInt32
  split
  · rename_i v h
    exact .inl ⟨v, h, rfl⟩
  · exact .inr rfl

/-- The three ends of payload handling (R140), with the buffer's own bounds check never in the way while the expected
length is legal. -/
theorem payload_cases (v : Byte) (s : State) (h : s.rx.explen.toNat ≤ 256) :
    (s.rx.marked = false ∧ payload v s = raiseProtocol .missingMarker s) ∨
      (s.rx.marked = true ∧ s.rx.explen.toNat ≤ s.mem.len .b1 ∧ payload v s = raiseProtocol .overrun s) ∨
      (s.rx.marked = true ∧ s.mem.len .b1 < s.rx.explen.toNat ∧
        payload v s = (.ok, s.setBuf .b1 (s.mem.b1 ++ [v]))) := by
  unfold payload
  by_cases hm : s.rx.marked = true
  · by_cases hl : s.rx.explen.toNat ≤ s.mem.len .b1
    · exact .inr (.inl ⟨hm, hl, by simp [hm, hl]⟩)
    · refine .inr (.inr ⟨hm, by omega, ?_⟩)
      rcases appendBytes_cases .b1 [v] s with ⟨_, e⟩ | ⟨k, _⟩
      · simp [hm, hl, e]
      · simp at k
        omega
  · exact .inl ⟨by simpa using hm, by simp [hm]⟩

/-- What payload handling can write, in any state: the phase and `rx_err`, or one more byte of `B[1]`. -/
theorem payload_frame (v : Byte) (s : State) :
    (∃ c, payload v s = raiseProtocol c s) ∨
      (s.rx.marked = true ∧ s.mem.len .b1 < s.rx.explen.toNat ∧ s.mem.len .b1 < 256 ∧
        payload v s = (.ok, s.setBuf .b1 (s.mem.b1 ++ [v]))) := by
  unfold payload
  by_cases hm : s.rx.marked = true
  · by_cases hl : s.rx.explen.toNat ≤ s.mem.len .b1
    · exact .inl ⟨.overrun, by simp [hm, hl]⟩
    · rcases appendBytes_cases .b1 [v] s with ⟨k, e⟩ | ⟨_, e⟩
      · simp at k
        exact .inr ⟨hm, by omega, by omega, by simp [hm, hl, e]⟩
      · exact .inl ⟨.overrun, by simp [hm, hl, e]⟩
  · exact .inl ⟨.missingMarker, by simp [hm]⟩

/-- A push outside `ACTIVE` is refused (R134). -/
theorem ifActive_of_not {s : State} (h : s.rx.phase ≠ .active) (c : Response × State) :
    ifActive s c = (.refused .notActive, s) := by
  simp [ifActive, h]

theorem ifActive_of {s : State} (h : s.rx.phase = .active) (c : Response × State) : ifActive s c = c := by
  simp [ifActive, h]

end Sys2Proof.Machine
end

