-- ==== Sys2Proof/Laws/Block.lean ====
section
/-! SUPPORT. The part of `State.Good` that speaks of the buffers and the decoder, and for each shared operation of the
block that it keeps it and leaves the encoder, the environment and the host alone. -/

namespace Sys2Proof.Machine

/-- The buffers and the decoder hold legal values (R14, R21, R24, R140). -/
structure BlockGood (m : Memory) (d : Decoder) : Prop where
  wf : m.wf
  explen : d.explen.toNat ≤ Config.capacity
  errFailed : d.phase = .failed → ∃ c : ProtoCause, d.err = c.code
  errElse : d.phase ≠ .failed → d.err = 0x00
  payload : d.phase = .active → m.b1.length ≤ d.explen.toNat
  unmarked : d.phase = .active → d.marked = false → m.b1 = []

theorem State.good_iff (s : State) : s.Good ↔ BlockGood s.mem s.rx ∧ s.tx.txStep = .idle :=
  ⟨fun ⟨a, b, i, c, d, e, f⟩ => ⟨⟨a, b, c, d, e, f⟩, i⟩, fun ⟨⟨a, b, c, d, e, f⟩, i⟩ => ⟨a, b, i, c, d, e, f⟩⟩

/-- Reset leaves the block legal (R31). -/
theorem reset_blockGood : BlockGood State.reset.mem State.reset.rx :=
  ⟨by decide, by decide, fun h => (nomatch h), fun _ => rfl, fun h => (nomatch h), fun h => (nomatch h)⟩

/-- What an operation on the buffers and the decoder keeps. -/
structure Keeps (s t : State) : Prop where
  good : BlockGood s.mem s.rx → BlockGood t.mem t.rx
  tx : t.tx = s.tx
  host : t.host = s.host
  env : t.env = s.env
  ports : t.ports = s.ports

theorem Keeps.refl (s : State) : Keeps s s := ⟨id, rfl, rfl, rfl, rfl⟩

theorem Keeps.trans {s t u : State} (h : Keeps s t) (k : Keeps t u) : Keeps s u :=
  ⟨k.good ∘ h.good, k.tx.trans h.tx, k.host.trans h.host, k.env.trans h.env, k.ports.trans h.ports⟩

/-- A new content of a buffer the decoder does not hold (R16). -/
theorem setBuf_keeps (sel : BufSel) (s : State) (bs : List Byte) (hb : bs.length ≤ 256) (h : ¬ s.HeldByDecoder sel) :
    Keeps s (s.setBuf sel bs) := by
  refine ⟨fun g => ⟨Memory.setBuf_keeps_wf g.wf sel hb, g.explen, g.errFailed, g.errElse, fun p => ?_, fun p q => ?_⟩,
    rfl, rfl, rfl, rfl⟩
  · cases sel
    · exact g.payload p
    · exact absurd ⟨rfl, p⟩ h
  · cases sel
    · exact g.unmarked p q
    · exact absurd ⟨rfl, p⟩ h

theorem ownerCheck_keeps (sel : BufSel) (s : State) (w : Response × State) (h : ¬ s.HeldByDecoder sel → Keeps s w.2) :
    Keeps s (ownerCheck sel s w).2 := by
  rcases ownerCheck_cases sel s w with ⟨_, e⟩ | ⟨k, e⟩ <;> rw [e]
  · exact .refl s
  · exact h k

theorem appendBytes_keeps (sel : BufSel) (bs : List Byte) (s : State) (h : ¬ s.HeldByDecoder sel) :
    Keeps s (appendBytes sel bs s).2 := by
  rcases appendBytes_cases sel bs s with ⟨k, e⟩ | ⟨_, e⟩ <;> rw [e]
  · exact setBuf_keeps _ _ _ (by simpa [Memory.len_eq] using k) h
  · exact .refl s

theorem setInt32_keeps (sel : BufSel) (v : Word32) (s : State) : Keeps s (setInt32 sel v s).2 :=
  ownerCheck_keeps sel s (.ok, s.setBuf sel (bytes32 v)) fun h => setBuf_keeps _ _ _ (by simp [bytes32]) h

theorem getInt32_keeps (sel : BufSel) (s : State) : Keeps s (getInt32 sel s).2 := by
  rcases getInt32_cases sel s with ⟨v, _, e⟩ | e <;> rw [e] <;> exact .refl s

theorem raiseProtocol_keeps (c : ProtoCause) (s : State) : Keeps s (raiseProtocol c s).2 :=
  ⟨fun g => ⟨g.wf, g.explen, fun _ => ⟨c, rfl⟩, fun h => absurd rfl h, fun h => (nomatch h), fun h => (nomatch h)⟩,
    rfl, rfl, rfl, rfl⟩

theorem payload_keeps (v : Byte) (s : State) : Keeps s (payload v s).2 := by
  rcases payload_frame v s with ⟨c, e⟩ | ⟨h1, h2, h3, e⟩ <;> rw [e]
  · exact raiseProtocol_keeps c s
  · refine ⟨fun g => ⟨?_, g.explen, g.errFailed, g.errElse, fun _ => ?_, fun _ h => ?_⟩, rfl, rfl, rfl, rfl⟩
    · exact Memory.setBuf_keeps_wf g.wf .b1 (by simp [Memory.len_eq, Config.capacity] at *; omega)
    · simpa [State.setBuf, Memory.len_eq] using h2
    · simp [State.setBuf, h1] at h

/-- Setting or clearing `rx_escaped` (R20). -/
theorem setEscaped_keeps (s : State) (b : Bool) : Keeps s (s.setRx { s.rx with escaped := b }) :=
  ⟨fun g => ⟨g.wf, g.explen, g.errFailed, g.errElse, g.payload, g.unmarked⟩, rfl, rfl, rfl, rfl⟩

theorem caseLitff_keeps (s : State) : Keeps s (caseLitff s).2 := (setEscaped_keeps s false).trans (payload_keeps _ _)

theorem caseMark_keeps (s : State) : Keeps s (caseMark s).2 := by
  unfold caseMark
  split
  · exact raiseProtocol_keeps _ _
  · exact ⟨fun g => ⟨g.wf, g.explen, g.errFailed, g.errElse, g.payload, fun _ h => (nomatch h)⟩, rfl, rfl, rfl, rfl⟩

theorem ifActive_keeps (s : State) (w : Response × State) (h : Keeps s w.2) : Keeps s (ifActive s w).2 := by
  unfold ifActive
  split
  · exact h
  · exact .refl s

theorem rxPush_keeps (b : Byte) (s : State) : Keeps s (rxPush b s).2 := by
  unfold rxPush
  apply ifActive_keeps
  repeat' split
  · exact caseMark_keeps s
  · exact caseLitff_keeps s
  · exact raiseProtocol_keeps _ s
  · exact setEscaped_keeps s true
  · exact payload_keeps _ _

theorem initDecoder_keeps (len : BitVec 16) (s : State) : Keeps s (initDecoder len s).2 := by
  unfold initDecoder
  split
  · exact .refl s
  · rename_i h
    refine ⟨fun g => ⟨Memory.setBuf_keeps_wf g.wf .b1 (by simp), ?_, fun h => (nomatch h), fun _ => rfl, fun _ => by simp,
      fun _ _ => rfl⟩, rfl, rfl, rfl, rfl⟩
    simp [Config.capacity] at *
    omega

theorem discardDecoder_keeps (s : State) : Keeps s (discardDecoder s) :=
  ⟨fun g => ⟨g.wf, g.explen, fun h => (nomatch h), fun _ => rfl, fun h => (nomatch h), fun h => (nomatch h)⟩,
    rfl, rfl, rfl, rfl⟩

/-! ## The decoder on the driver's report of a byte -/

/-- An `ACTIVE` decoder that has seen its marker and waits for no continuation. -/
structure Receiving (s : State) : Prop where
  active : s.rx.phase = .active
  marked : s.rx.marked = true
  unescaped : s.rx.escaped = false
  explen : s.rx.explen.toNat ≤ 256

/-- The report of one data byte (R54) appends it, in one accepted push, or two when it is doubled (R136, R138, R139). -/
theorem rxFeed_escapeByte (d : Byte) (rest : List Byte) (s : State) (r : Receiving s)
    (h : s.mem.b1.length < s.rx.explen.toNat) :
    rxFeed (escapeByte d ++ rest) s = rxFeed rest
      { s with
        mem := { s.mem with b1 := s.mem.b1 ++ [d] }
        ports := { s.ports with rawOut := s.ports.rawOut ++ List.replicate (if d = 0xFF then 2 else 1) .ok } } := by
  have h2 : s.mem.b1.length < 256 := by
    have := r.explen
    omega
  obtain ⟨mem, ⟨mk, es, el, ph, er⟩, tx, env, ports, host⟩ := s
  obtain ⟨r1, r2, r3, r4⟩ := r
  dsimp only at *
  subst r1 r2 r3
  unfold escapeByte
  split
  · rename_i hd
    subst hd
    simp [rxFeed, rxPush, ifActive, Config.esc, Config.markCode, caseEsc, caseLitff, payload, State.setRx, appendBytes,
      Memory.fits, Memory.len_eq, h2, Nat.not_le.2 h, Config.capacity, State.rawReply, State.setBuf, Memory.setBuf,
      List.replicate]
  · rename_i hd
    have hq : ¬ d = 255#8 := hd
    simp [rxFeed, rxPush, ifActive, hd, hq, caseData, payload, appendBytes, Memory.fits, Memory.len_eq,
      h2, Nat.not_le.2 h, Config.capacity, State.rawReply, State.setBuf, Memory.setBuf]

end Sys2Proof.Machine
end

