-- ==== Sys2Proof/Laws/PerInstr.lean ====
section
/-! SUPPORT. The family `OpcodeRow`: the first word of an instruction's encoding is one its row of spec/opcode_table.json
matches (bits under the mask equal to the row's match). -/

namespace Sys2Proof.Laws

/-- The first word of an encoding: a command's opcode byte, or the 9-bit word. -/
def firstWord : Encoded → Nat
  | .command (op :: _) => op.toNat
  | .command [] => 0
  | .raw w => w.toNat
  | .wire ch => ch.toNat

/-- A row's match and mask, as spec/opcode_table.json gives them. -/
def tableRow : Instr → Nat × Nat
  | .mbAppend _ _ => (0x10, 0xFE)
  | .mbAppendb _ _ => (0x12, 0xFE)
  | .mbReset _ => (0x14, 0xFE)
  | .mbLen _ => (0x16, 0xFE)
  | .mbCap _ => (0x18, 0xFE)
  | .mbSeti32 _ _ => (0x1A, 0xFE)
  | .mbGeti32 _ => (0x1C, 0xFE)
  | .mbCksum _ => (0x1E, 0xFE)
  | .mbSetctl _ _ => (0x20, 0xFE)
  | .mbEq => (0x22, 0xFF)
  | .mbHex _ => (0x24, 0xFE)
  | .txSend _ => (0x30, 0xFE)
  | .rxInit _ => (0x40, 0xFF)
  | .rxDrop => (0x42, 0xFF)
  | .rawEsc => (0x0FF, 0x1FF)
  | .rawData _ => (0x000, 0x100)
  | .rawMark => (0x100, 0x1FF)
  | .rawLitff => (0x1FF, 0x1FF)
  | .rawBadesc _ => (0x100, 0x100)
  | .wireMark _ => (0x100, 0x100)
  | .wireSpace _ => (0x000, 0x100)

/-- The encoding's first word lies in the instruction's row. -/
def OpcodeRow.Statement (i : Instr) : Prop :=
  firstWord (encode i) &&& (tableRow i).2 = (tableRow i).1

/-- The bit of a 9-bit word that its row fixes (R63, R67). -/
theorem word9_bit8 (b : Byte) :
    (word9 true b).toNat &&& 0x100 = 0x100 ∧ (word9 false b).toNat &&& 0x100 = 0x000 := by
  revert b; decide +kernel

theorem OpcodeRow.mbAppend (s : BufSel) (bs : List Byte) : OpcodeRow.Statement (.mbAppend s bs) := by
  show (opByte 0x10 s).toNat &&& 0xFE = 0x10; cases s <;> decide
theorem OpcodeRow.mbAppendb (s : BufSel) (b : Byte) : OpcodeRow.Statement (.mbAppendb s b) := by
  show (opByte 0x12 s).toNat &&& 0xFE = 0x12; cases s <;> decide
theorem OpcodeRow.mbReset (s : BufSel) : OpcodeRow.Statement (.mbReset s) := by
  show (opByte 0x14 s).toNat &&& 0xFE = 0x14; cases s <;> decide
theorem OpcodeRow.mbLen (s : BufSel) : OpcodeRow.Statement (.mbLen s) := by
  show (opByte 0x16 s).toNat &&& 0xFE = 0x16; cases s <;> decide
theorem OpcodeRow.mbCap (s : BufSel) : OpcodeRow.Statement (.mbCap s) := by
  show (opByte 0x18 s).toNat &&& 0xFE = 0x18; cases s <;> decide
theorem OpcodeRow.mbSeti32 (s : BufSel) (v : Word32) : OpcodeRow.Statement (.mbSeti32 s v) := by
  show (opByte 0x1A s).toNat &&& 0xFE = 0x1A; cases s <;> decide
theorem OpcodeRow.mbGeti32 (s : BufSel) : OpcodeRow.Statement (.mbGeti32 s) := by
  show (opByte 0x1C s).toNat &&& 0xFE = 0x1C; cases s <;> decide
theorem OpcodeRow.mbCksum (s : BufSel) : OpcodeRow.Statement (.mbCksum s) := by
  show (opByte 0x1E s).toNat &&& 0xFE = 0x1E; cases s <;> decide
theorem OpcodeRow.mbSetctl (s : BufSel) (sp : Byte) : OpcodeRow.Statement (.mbSetctl s sp) := by
  show (opByte 0x20 s).toNat &&& 0xFE = 0x20; cases s <;> decide
theorem OpcodeRow.mbEq : OpcodeRow.Statement .mbEq := by show (0x22 : Byte).toNat &&& 0xFF = 0x22; decide
theorem OpcodeRow.mbHex (s : BufSel) : OpcodeRow.Statement (.mbHex s) := by
  show (opByte 0x24 s).toNat &&& 0xFE = 0x24; cases s <;> decide
theorem OpcodeRow.txSend (s : BufSel) : OpcodeRow.Statement (.txSend s) := by
  show (opByte 0x30 s).toNat &&& 0xFE = 0x30; cases s <;> decide
theorem OpcodeRow.rxInit (len : BitVec 16) : OpcodeRow.Statement (.rxInit len) := by show (0x40 : Byte).toNat &&& 0xFF = 0x40; decide
theorem OpcodeRow.rxDrop : OpcodeRow.Statement .rxDrop := by show (0x42 : Byte).toNat &&& 0xFF = 0x42; decide
theorem OpcodeRow.rawEsc : OpcodeRow.Statement .rawEsc := by show (word9 false Config.esc).toNat &&& 0x1FF = 0x0FF; decide
theorem OpcodeRow.rawData (b : Byte) : OpcodeRow.Statement (.rawData b) := (word9_bit8 b).2
theorem OpcodeRow.rawMark : OpcodeRow.Statement .rawMark := by show (word9 true Config.markCode).toNat &&& 0x1FF = 0x100; decide
theorem OpcodeRow.rawLitff : OpcodeRow.Statement .rawLitff := by show (word9 true Config.esc).toNat &&& 0x1FF = 0x1FF; decide
theorem OpcodeRow.rawBadesc (b : Byte) : OpcodeRow.Statement (.rawBadesc b) := (word9_bit8 b).1
theorem OpcodeRow.wireMark (d : Byte) : OpcodeRow.Statement (.wireMark d) := (word9_bit8 d).1
theorem OpcodeRow.wireSpace (d : Byte) : OpcodeRow.Statement (.wireSpace d) := (word9_bit8 d).2

end Sys2Proof.Laws
end

