-- ==== Sys2Proof/Laws/Run.lean ====
section
/-! SUPPORT. Runs of many steps (`stepN`), the host's position in a handshake, and a move of it before which nothing
falls. -/

namespace Sys2Proof.Machine

@[simp] theorem stepN_zero (s : State) : stepN 0 s = s := rfl

/-- A run begins with its first step. -/
theorem stepN_succ {s t : State} (h : step s = .next t) (n : Nat) : stepN (n + 1) s = stepN n t := by
  rw [stepN, h]

/-- A state that steps to itself stays. -/
theorem stepN_of_fixed {s : State} (h : step s = .next s) (n : Nat) : stepN n s = s := by
  induction n with
  | zero => rfl
  | succ n ih => rw [stepN_succ h, ih]

/-- A move of the host with a quiet answer is the move itself, the answer taken (R187). -/
theorem hsTurn_of_quiet {s : State} {a : LineAnswer} {as : List LineAnswer} (k : State → State)
    (h : s.env.answers = a :: as) (he : a.event = none) :
    hsTurn s k = k { s with env := { s.env with answers := as, rawRx := s.env.rawRx ++ a.arrived } } := by
  rw [hsTurn, nextTurn_of_quiet h he]

/-! Where the host stands (R171): the two updates touch its position only. -/

@[simp] theorem State.hsGoto_mem (s : State) (pt : HsPoint) : (s.hsGoto pt).mem = s.mem := rfl
@[simp] theorem State.hsGoto_rx (s : State) (pt : HsPoint) : (s.hsGoto pt).rx = s.rx := rfl
@[simp] theorem State.hsGoto_tx (s : State) (pt : HsPoint) : (s.hsGoto pt).tx = s.tx := rfl
@[simp] theorem State.hsGoto_env (s : State) (pt : HsPoint) : (s.hsGoto pt).env = s.env := rfl
@[simp] theorem State.hsGoto_ports (s : State) (pt : HsPoint) : (s.hsGoto pt).ports = s.ports := rfl
theorem State.hsGoto_host (s : State) (pt : HsPoint) : (s.hsGoto pt).host = { s.host with hs := .running pt } := rfl
@[simp] theorem State.hsEnd_mem (s : State) (r : HsResult) : (s.hsEnd r).mem = s.mem := rfl
@[simp] theorem State.hsEnd_rx (s : State) (r : HsResult) : (s.hsEnd r).rx = s.rx := rfl
@[simp] theorem State.hsEnd_tx (s : State) (r : HsResult) : (s.hsEnd r).tx = s.tx := rfl
@[simp] theorem State.hsEnd_env (s : State) (r : HsResult) : (s.hsEnd r).env = s.env := rfl
@[simp] theorem State.hsEnd_ports (s : State) (r : HsResult) : (s.hsEnd r).ports = s.ports := rfl
theorem State.hsEnd_host (s : State) (r : HsResult) : (s.hsEnd r).host = { s.host with hs := .ended r } := rfl

/-- Writing on the line leaves the alarm alone. -/
@[simp] theorem emitAll_alarm (ds : List Byte) (s : State) : (emitAll ds s).env.alarm = s.env.alarm := by
  induction ds generalizing s with
  | nil => rfl
  | cons d ds ih => rw [emitAll, ih]; rfl

end Sys2Proof.Machine
end

