-- ==== Sys2Proof/Tests/Slice0.lean ====
section
/-! SUPPORT. Tests. Expected results are the spec's own vectors (95_test_vectors.md) or worked by hand from its rules; the
source of each stands in its comment. -/

namespace Sys2Proof.Tests

open Sys2Proof.Machine

/-! ## Well-formedness: each check refuses an ill-formed term -/

/-- R67: 0xFF unescaped is RAW.ESC, never RAW.DATA. -/
theorem test_wf_rawData_refuses_sentinel : (Instr.rawData 0xFF).wf = false := by decide

/-- R67: 0x00 and 0xFF after the sentinel are RAW.MARK and RAW.LITFF. -/
theorem test_wf_rawBadesc_refuses_mark : (Instr.rawBadesc 0x00).wf = false := by decide
theorem test_wf_rawBadesc_refuses_literal : (Instr.rawBadesc 0xFF).wf = false := by decide

/-- R74: the count of MB.APPEND is 16 bits. -/
theorem test_wf_mbAppend_refuses_long (b : Byte) : (Instr.mbAppend .b0 (List.replicate 65536 b)).wf = false := by
  simp only [Instr.wf, List.length_replicate]; rfl

theorem test_wf_accepts : (Instr.mbAppend .b1 [0xAA]).wf = true ∧ (Instr.rawData 0xFE).wf = true ∧
    (Instr.rawBadesc 0x01).wf = true ∧ (Instr.rxInit 257).wf = true := by decide

/-! ## Decoding: words written out bit by bit from 30_encoding.md R72 and the table -/

/-- 0001000s, s = 0; n = 2; AA BB (K3). -/
theorem test_decode_mbAppend :
    decodeCmd [0b00010000, 0x02, 0x00, 0xAA, 0xBB, 0x14] = .instr (.mbAppend .b0 [0xAA, 0xBB]) [0x14] := by decide
/-- 0001001s, s = 1 (K4). -/
theorem test_decode_mbAppendb : decodeCmd [0b00010011, 0x7E] = .instr (.mbAppendb .b1 0x7E) [] := by decide
/-- 0001010s, s = 1 (K5). -/
theorem test_decode_mbReset : decodeCmd [0b00010101] = .instr (.mbReset .b1) [] := by decide
/-- 0001011s, s = 0 (K6). -/
theorem test_decode_mbLen : decodeCmd [0b00010110] = .instr (.mbLen .b0) [] := by decide
/-- 0001100s, s = 1 (K7). -/
theorem test_decode_mbCap : decodeCmd [0b00011001] = .instr (.mbCap .b1) [] := by decide
/-- 0001101s, s = 0, then 12 little-endian (K1). -/
theorem test_decode_mbSeti32 : decodeCmd [0b00011010, 0x0C, 0, 0, 0] = .instr (.mbSeti32 .b0 12) [] := by decide
/-- The operand bytes are little-endian: 78 56 34 12 is 0x12345678 (P1). -/
theorem test_decode_mbSeti32_order :
    decodeCmd [0b00011011, 0x78, 0x56, 0x34, 0x12] = .instr (.mbSeti32 .b1 0x12345678) [] := by decide
/-- 0001110s, s = 0 (K8). -/
theorem test_decode_mbGeti32 : decodeCmd [0b00011100] = .instr (.mbGeti32 .b0) [] := by decide
/-- 0001111s, s = 0 (K9). -/
theorem test_decode_mbCksum : decodeCmd [0b00011110] = .instr (.mbCksum .b0) [] := by decide
/-- 0010000s, s = 0 (K10). -/
theorem test_decode_mbSetctl : decodeCmd [0b00100000, 0x10] = .instr (.mbSetctl .b0 0x10) [] := by decide
/-- 00100010 (K11). -/
theorem test_decode_mbEq : decodeCmd [0b00100010] = .instr .mbEq [] := by decide
/-- 0010010s, s = 0 (K12). -/
theorem test_decode_mbHex : decodeCmd [0b00100100] = .instr (.mbHex .b0) [] := by decide
/-- 0011000s, s = 1 (K13). -/
theorem test_decode_txSend : decodeCmd [0b00110001] = .instr (.txSend .b1) [] := by decide
/-- 01000000, then 257 little-endian (K15). -/
theorem test_decode_rxInit : decodeCmd [0b01000000, 0x01, 0x01] = .instr (.rxInit 257) [] := by decide
/-- 01000010 (K16). -/
theorem test_decode_rxDrop : decodeCmd [0b01000010] = .instr .rxDrop [] := by decide
/-- K17: reserved opcodes, each a one-byte command. -/
theorem test_decode_reserved : ∀ op ∈ ([0x00, 0x0F, 0x23, 0x26, 0x2F, 0x32, 0x3F, 0x41, 0x43, 0xFF] : List Byte),
    decodeCmd [op, 0x14] = .illegalCommand op [0x14] := by decide
/-- R81: an opcode byte without all its operands is no command yet. -/
theorem test_decode_incomplete : decodeCmd [0x10, 0x02, 0x00, 0xAA] = .incomplete := by decide
/-- K19 to K23: the raw words 0_11111111, 0_01111111, 1_00000000, 1_11111111, 1_01111111. -/
theorem test_decode_raw :
    decodeRawWord 0b011111111 = .rawEsc ∧ decodeRawWord 0b001111111 = .rawData 0x7F ∧
    decodeRawWord 0b100000000 = .rawMark ∧ decodeRawWord 0b111111111 = .rawLitff ∧
    decodeRawWord 0b101111111 = .rawBadesc 0x7F := by decide
/-- R63: ch[8] = p, ch[7:0] = d. -/
theorem test_decode_wire :
    decodeWire 0b100001100 = .wireMark 0x0C ∧ decodeWire 0b000001100 = .wireSpace 0x0C := by decide
/-- The table's numbering: MB.SETCTL 1 and its zero operand byte; RAW.ESC. -/
theorem test_decodeTableWord :
    decodeTableWord 8 0x21 = some (.mbSetctl .b1 0) ∧ decodeTableWord 16 0x0FF = some .rawEsc ∧
    decodeTableWord 8 0x23 = none := by decide

/-! ## One step on small states -/

/-- The state after one operation. -/
def after (i : Instr) (s : State) : State :=
  match exec i s with
  | .next t => t
  | .fault _ => s
  | .refused _ => s

/-- Reset, with these buffers. -/
def bufs (x y : List Byte) : State := { State.reset with mem := { b0 := x, b1 := y } }

/-- A fresh decoder of expected length `n` (95_test_vectors.md, "Fresh L"), with these raw bytes fed (`RX.FEED`). -/
def fed (n : BitVec 16) (bs : List Byte) : State := rxFeed bs (after (.rxInit n) State.reset)

/-- The decoder state of a vector. -/
structure View where
  data : List Byte
  marked : Bool
  escaped : Bool
  phase : RxPhase
  err : Byte
  done : Bool
deriving DecidableEq, Repr

/-- The decoder state of a vector: data, marked, escaped, phase, rx_err, done. -/
def view (s : State) : View := ⟨s.mem.b1, s.rx.marked, s.rx.escaped, s.rx.phase, s.rx.err, s.rxDone⟩

/-- R93's example. -/
theorem test_mbAppend : (after (.mbAppend .b0 [0xAA, 0xBB]) (bufs [1, 2] [])).mem.b0 = [1, 2, 0xAA, 0xBB] := by decide
/-- M17: not even a part of the bytes is written. -/
theorem test_mbAppend_full :
    after (.mbAppend .b0 [1, 2]) (bufs (List.replicate 255 7) []) =
      (bufs (List.replicate 255 7) []).cmdReply (.fail .capacityExceeded) := by decide +kernel
/-- M15. -/
theorem test_mbAppendb_full :
    (after (.mbAppendb .b0 0xAA) (bufs (List.replicate 256 7) [])).ports.cmdOut = [.fail .capacityExceeded] := by
  decide +kernel
/-- M32. -/
theorem test_mbAppendb_owned :
    after (.mbAppendb .b1 0x55) (fed 4 []) = (fed 4 []).cmdReply (.refused .bufferOwned) := by decide
/-- M19. -/
theorem test_mbReset : (after (.mbReset .b0) (bufs [1, 2, 3, 4] [9])).mem = { b0 := [], b1 := [9] } := by decide
/-- K6: response bytes 00 04 00. -/
theorem test_mbLen :
    (after (.mbLen .b0) (bufs [1, 2, 3, 4] [])).ports.cmdOut.map Response.bytes = [[0x00, 0x04, 0x00]] := by decide
/-- M20: response bytes 00 00 01. -/
theorem test_mbCap : (after (.mbCap .b1) State.reset).ports.cmdOut.map Response.bytes = [[0x00, 0x00, 0x01]] := by decide
/-- M5. -/
theorem test_mbSeti32 : (after (.mbSeti32 .b0 0x12345678) (bufs [9] [])).mem.b0 = [0x78, 0x56, 0x34, 0x12] := by decide
/-- M3: -2147483648. -/
theorem test_mbSeti32_min :
    (after (.mbSeti32 .b0 (BitVec.ofInt 32 (-2147483648))) State.reset).mem.b0 = [0, 0, 0, 0x80] := by decide
/-- K8: Val(-2), response bytes 00 FE FF FF FF. -/
theorem test_mbGeti32 :
    (after (.mbGeti32 .b0) (bufs [0xFE, 0xFF, 0xFF, 0xFF] [])).ports.cmdOut.map Response.bytes =
      [[0x00, 0xFE, 0xFF, 0xFF, 0xFF]] ∧ (BitVec.ofInt 32 (-2)) = le32 0xFE 0xFF 0xFF 0xFF := by decide
/-- M10: status 02. -/
theorem test_mbGeti32_wrong :
    (after (.mbGeti32 .b0) (bufs [1, 2, 3] [])).ports.cmdOut.map Response.bytes = [[0x02]] := by decide
/-- M21. -/
theorem test_mbCksum : checksum [0xFF, 0xFF, 0x00] = 0xFE ∧ checksum [0xAA] = 0 ∧ checksum [] = 0 ∧
    checksum [0x80, 0x80, 0x80, 0x55] = 0x80 ∧ checksum [0x0C, 0, 0, 0] = 0x0C := by decide
/-- K9. -/
theorem test_mbCksum_response :
    (after (.mbCksum .b0) (bufs [1, 2, 3] [])).ports.cmdOut.map Response.bytes = [[0x00, 0x03]] := by decide
/-- M22, M25. -/
theorem test_mbSetctl :
    (after (.mbSetctl .b0 0x10) (bufs [1] [])).mem.b0 = [0x87, 0x09, 0x03, 0x10, 0x10, 0xB3] ∧
    (after (.mbSetctl .b0 0xFF) State.reset).mem.b0 = [0x87, 0x09, 0x03, 0xFF, 0xFF, 0x91] := by decide
/-- M28. -/
theorem test_mbEq_shorter :
    (after .mbEq (bufs [0x0C, 0, 0, 0] [0x0C, 0, 0])).ports.cmdOut.map Response.bytes = [[0x00, 0x00]] := by decide
/-- M27. -/
theorem test_mbEq_empty : (after .mbEq State.reset).ports.cmdOut.map Response.bytes = [[0x00, 0x01]] := by decide
/-- K12. -/
theorem test_mbHex :
    (after (.mbHex .b0) (bufs [0x0C, 0x00, 0xFF] [])).ports.cmdOut.map Response.bytes =
      [[0x00, 0x08, 0x00, 0x30, 0x43, 0x20, 0x30, 0x30, 0x20, 0x46, 0x46]] := by decide

/-- A buffer B[0] = 0C 00 00 00 and these answers. -/
def sender (as : List LineAnswer) : State := (bufs [0x0C, 0, 0, 0] []).withAnswers as

/-- E1. -/
theorem test_txSend :
    let t := after (.txSend .b0) (sender (favourable 4))
    t.env.lineOps = [.setParityMark true, .writeBytes [0x0C] (some 1), .delay, .setParitySpace true,
      .writeBytes [0, 0, 0] (some 3), .delay] ∧
    t.env.lineTx = [⟨true, 0x0C⟩, ⟨false, 0⟩, ⟨false, 0⟩, ⟨false, 0⟩] ∧ t.tx.pmode = .space ∧
    t.ports.cmdOut = [.ok] ∧ t.mem.b0 = [0x0C, 0, 0, 0] ∧ t.tx.txStep = .idle := by decide
/-- E16: the deadline after the first delay, in a handshake. -/
theorem test_txSend_deadline :
    let s := { (sender [quietAnswer false 0 0, quietAnswer false 1 0, quietAnswer false 0 0,
        { quietAnswer false 0 0 with event := some .deadline }]).setHs (.running .sendA) with
        host := { hs := .running .sendA, a := 12, b := 0, expectedSum := 12, receivedSum := 0 } }
    let t := after (.txSend .b0) { s with env := { s.env with alarm := .armed } }
    t.env.lineTx = [⟨true, 0x0C⟩] ∧ t.tx.pmode = .mark ∧ t.tx.txStep = .idle ∧ t.host.hs = .ended .timeoutError ∧
    t.ports.cmdOut = [] := by decide
/-- E9: the second write is short: a cut frame, no final delay. -/
theorem test_txSend_short :
    let t := after (.txSend .b0) (sender [quietAnswer false 0 0, quietAnswer false 1 0, quietAnswer false 0 0,
      quietAnswer false 0 0, quietAnswer false 2 0])
    t.env.lineTx = [⟨true, 0x0C⟩, ⟨false, 0⟩, ⟨false, 0⟩] ∧ t.ports.cmdOut = [.err (.io .write)] ∧
    t.env.lineOps.length = 5 ∧ t.tx.pmode = .space := by decide
/-- E6. -/
theorem test_txSend_empty : after (.txSend .b0) State.reset = State.reset.cmdReply (.refused .emptyFrame) := by decide
/-- E12: setParitySpace fails. -/
theorem test_txSend_space_fails :
    let t := after (.txSend .b0) (sender [quietAnswer false 0 0, quietAnswer false 1 0, quietAnswer false 0 0,
      quietAnswer true 0 0])
    t.env.lineTx = [⟨true, 0x0C⟩] ∧ t.ports.cmdOut = [.err (.io .configure)] ∧ t.tx.pmode = .unknown := by decide

/-- R133's example, and X15: an expected length of 0 is done at once. -/
theorem test_rxInit : view (after (.rxInit 4) (bufs [] [1, 2])) = ⟨[], false, false, .active, 0, false⟩ ∧
    view (after (.rxInit 0) State.reset) = ⟨[], false, false, .active, 0, true⟩ := by decide
/-- X22. -/
theorem test_rxInit_illegal : after (.rxInit 257) State.reset = State.reset.cmdReply (.refused .illegalOperand) := by
  decide
/-- X25: after X6, RX.DROP. -/
theorem test_rxDrop :
    view (after .rxDrop (fed 4 [0xFF, 0x00, 0x11, 0x22, 0x33, 0x44, 0x55])) =
      ⟨[0x11, 0x22, 0x33, 0x44], true, false, .idle, 0, false⟩ := by decide
/-- S4 and S5. -/
theorem test_decoder_happy :
    view (fed 4 [0xFF, 0x00, 0x11, 0x22, 0x33, 0x44]) = ⟨[0x11, 0x22, 0x33, 0x44], true, false, .active, 0, true⟩ ∧
    view (fed 4 [0xFF, 0x00, 0xFF, 0xFF, 0x22, 0x33, 0x44]) =
      ⟨[0xFF, 0x22, 0x33, 0x44], true, false, .active, 0, true⟩ := by decide
/-- X1 (RAW.BADESC), X2 (RAW.LITFF before the marker), X3 (RAW.DATA before the marker). -/
theorem test_decoder_errors :
    view (fed 4 [0xFF, 0x01]) = ⟨[], false, true, .failed, 0x20, false⟩ ∧
    view (fed 4 [0xFF, 0xFF]) = ⟨[], false, false, .failed, 0x22, false⟩ ∧
    view (fed 4 [0x00]) = ⟨[], false, false, .failed, 0x22, false⟩ := by decide
/-- X5 (RAW.MARK twice), X6 (Overrun), X7 (RAW.ESC after completion). -/
theorem test_decoder_errors_late :
    view (fed 4 [0xFF, 0x00, 0xFF, 0x00, 0x11]) = ⟨[], true, true, .failed, 0x21, false⟩ ∧
    view (fed 4 [0xFF, 0x00, 0x11, 0x22, 0x33, 0x44, 0x55]) =
      ⟨[0x11, 0x22, 0x33, 0x44], true, false, .failed, 0x23, false⟩ ∧
    view (fed 4 [0xFF, 0x00, 0x11, 0x22, 0x33, 0x44, 0xFF]) =
      ⟨[0x11, 0x22, 0x33, 0x44], true, true, .active, 0, true⟩ := by decide
/-- X23: a push with no decoder. -/
theorem test_rawData_idle : after (.rawData 0x11) State.reset = State.reset.rawReply (.refused .notActive) := by decide
/-- R53, R63. -/
theorem test_wire : (after (.wireSpace 0x0D) (after (.wireMark 0x0C) State.reset)).env.lineTx =
    [⟨true, 0x0C⟩, ⟨false, 0x0D⟩] := by decide
/-- F3, F5. -/
theorem test_rawOfChars : rawOfChars [⟨true, 0xFF⟩, ⟨false, 0x22⟩] = [0xFF, 0x00, 0xFF, 0xFF, 0x22] ∧
    rawOfChars [⟨false, 0x11⟩, ⟨true, 0x22⟩] = [0x11, 0xFF, 0x00, 0x22] := by decide
/-- One step on a placed word: the host's question about MB.LEN and RAW.DATA. -/
theorem test_step_fetch :
    (∃ t, step (State.reset.withFetchWord 8 0x16) = .next t ∧ t.ports.cmdOut = [.val (.u16 0)]) ∧
    (∃ t, step (State.reset.withFetchWord 16 0x011) = .next t ∧ t.ports.rawOut = [.refused .notActive]) :=
  ⟨⟨_, rfl, by decide⟩, ⟨_, rfl, by decide⟩⟩
/-- R75, K17: a reserved opcode byte through a step. -/
theorem test_step_reserved :
    ∃ t, step (State.reset.withFetchWord 8 0xFF) = .next t ∧ t.ports.cmdOut.map Response.bytes = [[0xF0]] :=
  ⟨_, rfl, by decide⟩

/-! ## The handshake -/

/-- An environment for one handshake. -/
def peer (bs : List Byte) : State := State.reset.withAnswers (handshakeAnswers bs)

/-- H1: 5 + 7 = 12. -/
theorem test_hs_success :
    (hsRun .perByte 10 (some (5, 7)) 16 (peer [0xFF, 0x00, 0x0C, 0, 0, 0])).host.hs = .ended .success := by decide
/-- H2: the peer says 13. -/
theorem test_hs_verification :
    (hsRun .perByte 10 (some (5, 7)) 16 (peer [0xFF, 0x00, 0x0D, 0, 0, 0])).host.hs =
      .ended (.verificationError 13 12) := by decide
/-- H3: no marker. -/
theorem test_hs_no_marker :
    (hsRun .perByte 10 (some (5, 7)) 16 (peer [0x0C, 0, 0, 0])).host.hs = .ended (.protocolError .missingMarker) := by
  decide
/-- H13: a byte too many, looked at per chunk. -/
theorem test_hs_overrun :
    (hsRun .perChunk 10 (some (5, 7)) 16 (peer [0xFF, 0x00, 0x0C, 0, 0, 0, 0x55])).host.hs =
      .ended (.protocolError .overrun) := by decide
/-- H11: the entropy source fails. -/
theorem test_hs_entropy :
    hsRun .perByte 10 none 16 State.reset = State.reset.setHs (.ended (.ioError .entropy)) := by decide

/-- R79's examples. -/
theorem test_asm : asm (.mbSeti32 .b0 (BitVec.ofInt 32 (-1))) = "MB.SETI32 0, -1" ∧ asm (.rxInit 4) = "RX.INIT 4" ∧
    asm .rawEsc = "RX.PUSH 0xFF" ∧ asm (.txSend .b0) = "TX.SEND 0" := by decide

/-! ## Witnesses: for every statement with hypotheses, a state and operands that meet them, one for each clause, at the
boundary values where clauses meet -/

/-- An `ACTIVE` decoder: `rx_marked`, `rx_escaped`, `rx_explen`, and the content of `B[1]`. -/
def decoding (marked escaped : Bool) (n : BitVec 9) (xs : List Byte) : State :=
  { State.reset with mem := { b0 := [], b1 := xs }, rx := { marked, escaped, explen := n, phase := .active, err := 0 } }

/-- A buffer of `n` bytes. -/
def filled (n : Nat) : State := bufs (List.replicate n 7) (List.replicate n 7)

/-- A state whose outside makes this request next. -/
def asking (m : Move) : State := State.reset.withMoves [m]

/-- A running handshake with its alarm armed. -/
def shaking (pt : HsPoint) (as : List LineAnswer) : State :=
  let s := sender as
  { s with
    env := { s.env with alarm := .armed }
    host := { hs := .running pt, a := 12, b := 0, expectedSum := 12, receivedSum := 0 } }

theorem idle_not_held (sel : BufSel) (x y : List Byte) : ¬ (bufs x y).HeldByDecoder sel := fun h => nomatch h.2
theorem decoding_held (mk es : Bool) (n : BitVec 9) (xs : List Byte) : (decoding mk es n xs).HeldByDecoder .b1 :=
  ⟨rfl, rfl⟩

theorem filled_len (n : Nat) (sel : BufSel) : (filled n).mem.len sel = n := by
  cases sel <;> exact List.length_replicate

theorem witness_AppendWritesAllOrNothing :
    (decoding false false 4 []).HeldByDecoder .b1 ∧
    (¬ (filled 255).HeldByDecoder .b0 ∧ (filled 255).mem.len .b0 + [0xAA].length ≤ 256) ∧
    (¬ (filled 255).HeldByDecoder .b1 ∧ 256 < (filled 255).mem.len .b1 + [0xAA, 0xBB].length) ∧
    ([0xAA, 0xBB] : List Byte).length < 65536 :=
  ⟨decoding_held .., ⟨idle_not_held _ _ _, by rw [filled_len]; decide⟩, ⟨idle_not_held _ _ _, by rw [filled_len]; decide⟩, by decide⟩
theorem witness_AppendbWritesOneByte :
    (decoding true false 4 []).HeldByDecoder .b1 ∧
    (¬ (filled 255).HeldByDecoder .b1 ∧ (filled 255).mem.len .b1 < 256) ∧
    (¬ (filled 256).HeldByDecoder .b1 ∧ 256 ≤ (filled 256).mem.len .b1) ∧ 0 < (filled 255).mem.len .b1 :=
  ⟨decoding_held .., ⟨idle_not_held _ _ _, by rw [filled_len]; decide⟩, ⟨idle_not_held _ _ _, by rw [filled_len]⟩, by rw [filled_len]; decide⟩
theorem witness_ResetEmptiesBuffer :
    (decoding true false 4 [1]).HeldByDecoder .b1 ∧ ¬ (filled 256).HeldByDecoder .b1 :=
  ⟨decoding_held .., idle_not_held _ _ _⟩
theorem witness_LenReportsLength : (filled 256).mem.wf ∧ (bufs [] []).mem.wf :=
  ⟨⟨(filled_len 256 .b0).le, (filled_len 256 .b1).le⟩, by decide⟩
theorem witness_SetInt32StoresLittleEndian :
    (decoding true false 4 [1]).HeldByDecoder .b1 ∧ ¬ (filled 256).HeldByDecoder .b0 ∧
    (0x12345678 : Word32).toNat = (0x78 : Byte).toNat + 256 * (0x56 : Byte).toNat + 65536 * (0x34 : Byte).toNat +
      16777216 * (0x12 : Byte).toNat :=
  ⟨decoding_held .., idle_not_held _ _ _, by decide⟩
theorem witness_GetInt32AssemblesSigned :
    (bufs [1, 2, 3] []).mem.len .b0 ≠ 4 ∧ (bufs [1, 2, 3, 4, 5] []).mem.len .b0 ≠ 4 ∧
    ((bufs [0xFE, 0xFF, 0xFF, 0xFF] []).mem.len .b0 = 4 ∧ (bufs [0xFE, 0xFF, 0xFF, 0xFF] []).mem.read .b0 0 = some 0xFE ∧
      (bufs [0xFE, 0xFF, 0xFF, 0xFF] []).mem.read .b0 1 = some 0xFF ∧
      (bufs [0xFE, 0xFF, 0xFF, 0xFF] []).mem.read .b0 2 = some 0xFF ∧
      (bufs [0xFE, 0xFF, 0xFF, 0xFF] []).mem.read .b0 3 = some 0xFF) := by decide
theorem witness_SetControlWritesFrame :
    (decoding true false 4 [1]).HeldByDecoder .b1 ∧ ¬ (filled 256).HeldByDecoder .b1 :=
  ⟨decoding_held .., idle_not_held _ _ _⟩
theorem witness_HexRendersTwoDigits :
    (bufs [0x0C, 0xFF] []).mem.read .b0 1 = some 0xFF ∧ (bufs [0x0C, 0xFF] []).mem.read .b0 0 = some 0x0C ∧
    0 + 1 < (bufs [0x0C, 0xFF] []).mem.len .b0 := by decide
theorem witness_SetThenGetInt32 : ¬ (filled 3).HeldByDecoder .b1 := idle_not_held _ _ _
theorem witness_ChecksumOfLongerBuffer :
    ¬ (filled 255).HeldByDecoder .b0 ∧ (filled 255).mem.len .b0 < 256 ∧
    (filled 255).mem.read .b0 ((filled 255).mem.len .b0 - 1) = some 7 :=
  ⟨idle_not_held _ _ _, by rw [filled_len]; decide, by
    rw [filled_len]; exact List.getElem?_replicate_of_lt (by decide)⟩
theorem witness_FullBufferTakesNothing : ¬ (filled 256).HeldByDecoder .b0 ∧ (filled 256).mem.len .b0 = 256 :=
  ⟨idle_not_held _ _ _, filled_len 256 .b0⟩
theorem witness_OwnedBufferWritesRefused :
    (decoding true false 4 []).HeldByDecoder .b1 ∧
    (∃ t, exec (.mbReset .b1) (decoding true false 4 []) = .next t ∧
      (decoding true false 4 []).RepliesCmd t (.refused .bufferOwned)) :=
  ⟨decoding_held .., _, rfl, rfl⟩

theorem witness_ResponseBytesOfTable :
    (0x0104 : BitVec 16).toNat = (0x04 : Byte).toNat + 256 * (0x01 : Byte).toNat ∧
    (0xFFFFFFFE : Word32).toNat = (0xFE : Byte).toNat + 256 * (0xFF : Byte).toNat + 65536 * (0xFF : Byte).toNat +
      16777216 * (0xFF : Byte).toNat ∧
    ([] : List Byte).length = (0 : Byte).toNat + 256 * (0 : Byte).toNat ∧
    ([0x30, 0x43] : List Byte).length = (2 : Byte).toNat + 256 * (0 : Byte).toNat := by decide

/-! The encoder's statements. -/

theorem witness_SendPutsFrameOnWire :
    ((sender (favourable 4)).mem.buf .b0 = 0x0C :: [0, 0, 0] ∧
      (sender (favourable 4)).env.answers = favourable (0x0C :: [0, 0, 0] : List Byte).length ++ []) ∧
    (((bufs [0x0C] []).withAnswers (favourable 1)).mem.buf .b0 = 0x0C :: [] ∧
      ((bufs [0x0C] []).withAnswers (favourable 1)).env.answers = favourable (0x0C :: [] : List Byte).length ++ []) := by
  decide
/-- The second half, with a count above 1 and with a count of 1, for four bytes and for one. -/
theorem witness_SendPutsFrameOnWire_count :
    (1 : Int) ≤ 2 ∧ (1 : Int) ≤ 1 ∧
    (sender [quiet, quietAnswer false 2 0, quiet, quiet, quietAnswer false 3 0, quiet]).env.answers =
      [quiet, quietAnswer false 2 0, quiet, quiet] ++ (if ([0, 0, 0] : List Byte) = [] then [] else
        [quietAnswer false ([0, 0, 0] : List Byte).length 0]) ++ quiet :: [] ∧
    ((bufs [0x0C] []).withAnswers [quiet, quietAnswer false 2 1, quiet, quiet, quiet]).env.answers =
      [quiet, quietAnswer false 2 1, quiet, quiet] ++ (if ([] : List Byte) = [] then [] else
        [quietAnswer false ([] : List Byte).length 0]) ++ quiet :: [] := by decide
theorem witness_SendEmptyRefused : State.reset.mem.len .b1 = 0 := by decide
theorem witness_SendFirstWriteFails :
    (sender [quiet, quietAnswer false 0 0]).mem.buf .b0 = 0x0C :: [0, 0, 0] ∧
    (sender [quiet, quietAnswer false 0 0]).env.answers = quiet :: quietAnswer false 0 0 :: [] ∧ (0 : Int) < 1 ∧
    (sender [quiet, quietAnswer true 1 1]).env.answers = quiet :: quietAnswer true 1 1 :: [] := by decide
theorem witness_SendSecondWriteFails :
    (sender [quiet, quietAnswer false 1 0, quiet, quiet, quietAnswer false 2 0]).mem.buf .b0 = 0x0C :: [0, 0, 0] ∧
    ([0, 0, 0] : List Byte) ≠ [] ∧
    (sender [quiet, quietAnswer false 1 0, quiet, quiet, quietAnswer false 2 0]).env.answers =
      quiet :: quietAnswer false 1 0 :: quiet :: quiet :: quietAnswer false 2 0 :: [] ∧
    (2 : Int) ≠ (([0, 0, 0] : List Byte).length : Int) ∧ (0 : Int) ≤ 2 ∧ (2 : Int) ≤ (([0, 0, 0] : List Byte).length : Int) ∧
    (4 : Int) ≠ (([0, 0, 0] : List Byte).length : Int) ∧
    (sender [quiet, quietAnswer false 1 0, quiet, quiet, quietAnswer true 0 3]).env.answers =
      quiet :: quietAnswer false 1 0 :: quiet :: quiet :: quietAnswer true 0 3 :: [] := by decide
theorem witness_SendConfigureFails :
    (sender [quietAnswer true 0 0]).mem.buf .b0 = 0x0C :: [0, 0, 0] ∧
    (sender [quietAnswer true 0 0]).env.answers = quietAnswer true 0 0 :: [] ∧
    (sender [quiet, quietAnswer false 1 0, quiet, quietAnswer true 0 0]).env.answers =
      quiet :: quietAnswer false 1 0 :: quiet :: quietAnswer true 0 0 :: [] := by decide
theorem witness_SendEndsForEveryAnswer : (sender (favourable 4)).tx.txStep = .idle ∧ State.reset.tx.txStep = .idle := by decide
theorem witness_DeadlineCutsSend :
    let s := shaking .sendA [quiet, quietAnswer false 1 0, quiet, { quiet with event := some .deadline }]
    s.mem.buf .b0 = 0x0C :: [0, 0, 0] ∧ s.host.hs = .running .sendA ∧ HsPoint.sendA.inReceive = false ∧
    s.env.alarm = .armed ∧
    s.env.answers = quiet :: quietAnswer false 1 0 :: quiet :: { quiet with event := some .deadline } :: [] := by decide

/-! The decoder's statements. -/

theorem witness_InitMakesFreshDecoder :
    256 < (257 : BitVec 16).toNat ∧ (256 : BitVec 16).toNat ≤ 256 ∧ (0 : BitVec 16).toNat ≤ 256 ∧
    (257 : BitVec 16).toNat = (1 : Byte).toNat + 256 * (1 : Byte).toNat := by decide
theorem witness_EscSetsEscaped : (decoding false false 4 []).rx.phase = .active ∧ (decoding false false 4 []).rx.escaped = false := by
  decide
theorem witness_DataIsPayload :
    (decoding true false 256 []).rx.phase = .active ∧ (decoding true false 256 []).rx.escaped = false ∧
    (0xFE : Byte) ≠ 0xFF ∧ (decoding true false 256 []).rx.explen.toNat ≤ 256 ∧
    (decoding false false 4 []).rx.marked = false ∧
    ((decoding true false 4 [1, 2, 3, 4]).rx.marked = true ∧
      (decoding true false 4 [1, 2, 3, 4]).rx.explen.toNat ≤ (decoding true false 4 [1, 2, 3, 4]).mem.len .b1) ∧
    ((decoding true false 4 [1, 2, 3]).rx.marked = true ∧
      (decoding true false 4 [1, 2, 3]).mem.len .b1 < (decoding true false 4 [1, 2, 3]).rx.explen.toNat) := by decide
theorem witness_MarkStartsFrame :
    (decoding false true 4 []).rx.phase = .active ∧ (decoding false true 4 []).rx.escaped = true ∧
    (decoding false true 4 []).rx.marked = false ∧ (decoding true true 4 [1]).rx.marked = true := by decide
theorem witness_LitffIsPayload :
    (decoding true true 256 []).rx.phase = .active ∧ (decoding true true 256 []).rx.escaped = true ∧
    (decoding true true 256 []).rx.explen.toNat ≤ 256 ∧ (decoding false true 4 []).rx.marked = false ∧
    ((decoding true true 4 [1, 2, 3, 4]).rx.marked = true ∧
      (decoding true true 4 [1, 2, 3, 4]).rx.explen.toNat ≤ (decoding true true 4 [1, 2, 3, 4]).mem.len .b1) ∧
    ((decoding true true 4 [1, 2, 3]).rx.marked = true ∧
      (decoding true true 4 [1, 2, 3]).mem.len .b1 < (decoding true true 4 [1, 2, 3]).rx.explen.toNat) := by decide
theorem witness_BadescRaisesError :
    (decoding true true 4 []).rx.phase = .active ∧ (decoding true true 4 []).rx.escaped = true ∧
    (0x01 : Byte) ≠ 0x00 ∧ (0x01 : Byte) ≠ 0xFF ∧ (0xFE : Byte) ≠ 0x00 ∧ (0xFE : Byte) ≠ 0xFF := by decide
theorem witness_ProtocolErrorFailsDecoder :
    (decoding true false 4 [1]).rx.phase = .active ∧ (decoding false false 4 []).rx.phase = .active ∧
    ∀ i ∈ ([.rawData 0x11, .rawEsc] : List Instr), isPush i = true := by decide
theorem witness_PushesRefusedOutsideActive :
    (fed 4 [0x00]).rx.phase ≠ .active ∧ State.reset.rx.phase ≠ .active ∧
    ∀ i ∈ ([.rawData 0x11, .rawEsc, .rawMark] : List Instr), isPush i = true := by decide
theorem witness_MarkedClearedOnlyByInit :
    (∃ t, exec (.rxInit 4) (decoding true false 4 [1]) = .next t ∧ t.rx.marked = false) ∧
    (decoding true false 4 [1]).rx.marked = true ∧
    (∃ t, exec (.txSend .b1) ((decoding true false 4 [1]).withAnswers [{ quiet with event := some .reset }]) = .next t ∧
      t.rx.marked = false) :=
  ⟨⟨_, rfl, rfl⟩, rfl, ⟨_, rfl, rfl⟩⟩
/-- The second half, with each of its two ends: the handshake's own `RX.INIT`, and the reset input. -/
theorem witness_MarkedClearedOnlyByInit_step :
    (let s := ((decoding true false 4 [1]).setHs (.running .init)).withAnswers [quiet];
      s.rx.marked = true ∧ s.nextOperation = some (.rxInit 4) ∧ ∃ t, step s = .next t ∧ t.rx.marked = false) ∧
    (let s := (decoding true false 4 [1]).withMoves [.reset];
      s.rx.marked = true ∧ s.nextOperation = none ∧ ∃ t, step s = .next t ∧ t.rx.marked = false) :=
  ⟨⟨rfl, rfl, _, rfl, rfl⟩, rfl, rfl, _, rfl, rfl⟩
theorem witness_BufferWritersComplete :
    (∃ t, exec (.rawData 9) (decoding true false 4 [1]) = .next t ∧ t.mem.buf .b1 ≠ (decoding true false 4 [1]).mem.buf .b1) ∧
    (∃ t, exec (.txSend .b1) ((decoding true false 4 [1]).withAnswers [{ quiet with event := some .reset }]) = .next t ∧
      t.mem.buf .b1 ≠ (decoding true false 4 [1]).mem.buf .b1) :=
  ⟨⟨_, rfl, by decide⟩, ⟨_, rfl, by decide⟩⟩
/-- The second half: the handshake's own `MB.SETI32 0, b`, and the reset input. -/
theorem witness_BufferWritersComplete_step :
    (let s := shaking .setB [quiet];
      s.nextOperation = some (.mbSeti32 .b0 0) ∧ ∃ t, step s = .next t ∧ t.mem.buf .b0 ≠ s.mem.buf .b0) ∧
    (let s := (decoding true false 4 [1]).withMoves [.reset];
      ∃ t, step s = .next t ∧ t.mem.buf .b1 ≠ s.mem.buf .b1) :=
  ⟨⟨rfl, _, rfl, by decide⟩, _, rfl, by decide⟩
theorem witness_DoneIsActiveAndComplete : (filled 256).mem.wf ∧ (bufs [] []).mem.wf := witness_LenReportsLength

/-! The wire, the encodings and the step. -/

theorem witness_WriteUsesParityMode :
    3 ≤ ([1, 2, 3] : List Byte).length ∧ (State.reset.setPmode .mark).tx.pmode = .mark ∧
    (State.reset.setPmode .space).tx.pmode = .space := by decide
/-- An answer to a read: this count, these bytes having arrived. -/
def reading (fails : Bool) (count : Int) (bs : List Byte) : LineAnswer := { quietAnswer fails count 0 with arrived := bs }

/-- A read that fails, reads of counts 0, 1 and 2 with two bytes there, and the host's request for a read. -/
theorem witness_ReadTakesFirstBytes :
    (reading true 1 []).fails = true ∧ (reading false 1 []).fails = false ∧
    (∀ c : Int, c ∈ ([0, 1, 2] : List Int) → 0 ≤ c ∧ c ≤ ((2 : Nat) : Int) ∧ c ≤ (([0xFF, 0x00] : List Byte).length : Int)) ∧
    (∀ f, ((asking .readLine).withAnswers [reading f 0 [0xFF, 0x00]]).Free ∧
      ((asking .readLine).withAnswers [reading f 0 [0xFF, 0x00]]).ports.moves = .readLine :: [] ∧
      ((asking .readLine).withAnswers [reading f 0 [0xFF, 0x00]]).env.answers = reading f 0 [0xFF, 0x00] :: [] ∧
      (reading f 0 [0xFF, 0x00]).event = none) ∧
    ((0 : Int) ≤ (reading false 0 [0xFF, 0x00]).count ∧ (reading false 0 [0xFF, 0x00]).count ≤ (Config.rxChunkMax : Int)) :=
  ⟨rfl, rfl, by decide, fun _ => ⟨⟨rfl, fun _ h => nomatch h⟩, rfl, rfl, rfl⟩, le_refl _, Int.natCast_nonneg _⟩
theorem witness_LoopBackRecoversMessage :
    ([0xFF] : List Byte) ≠ [] ∧ ([0xFF] : List Byte).length ≤ 256 ∧ List.replicate 256 (0xFF : Byte) ≠ [] ∧
    (List.replicate 256 (0xFF : Byte)).length ≤ 256 :=
  ⟨by decide, by decide, fun h => absurd (congrArg List.length h) (by rw [List.length_replicate]; decide),
    List.length_replicate.le⟩
theorem witness_DecodeOfEncode :
    (Instr.mbAppend .b1 [0xAA, 0xBB]).wf = true ∧
    encode (.mbAppend .b1 [0xAA, 0xBB]) = .command [0x11, 0x02, 0x00, 0xAA, 0xBB] := by decide
theorem witness_EncodeOfDecodedCommand : decodeCmd [0x15, 0x42] = .instr (.mbReset .b1) [0x42] := by decide

theorem free_reset (p : Ports) : (State.Free { State.reset with ports := p }) := ⟨rfl, fun _ h => nomatch h⟩

theorem witness_ReservedOpcodesRefused :
    (State.reset.withCmdIn [0x23, 0x14]).ports.cmdIn = 0x23 :: [0x14] ∧ reservedOpcode (0x23 : Byte).toNat = true ∧
    reservedOpcode 0x0F = true ∧ reservedOpcode 0x10 = false ∧ reservedOpcode 0xFF = true := by decide
theorem witness_StepRunsDecodedCommand :
    (∀ bs, ((asking .cmd).withCmdIn bs).Free ∧ ((asking .cmd).withCmdIn bs).ports.moves = .cmd :: []) ∧
    decodeCmd ((asking .cmd).withCmdIn [0x14]).ports.cmdIn = .instr (.mbReset .b0) [] ∧
    decodeCmd ((asking .cmd).withCmdIn [0x41, 0x14]).ports.cmdIn = .illegalCommand 0x41 [0x14] ∧
    decodeCmd ((asking .cmd).withCmdIn [0x12]).ports.cmdIn = .incomplete :=
  ⟨fun _ => ⟨free_reset _, rfl⟩, rfl, rfl, rfl⟩
theorem witness_StepRunsRawByteAndWire :
    (((asking .raw).withRawIn [0xFF]).Free ∧ ((asking .raw).withRawIn [0xFF]).ports.moves = .raw :: [] ∧
      ((asking .raw).withRawIn [0xFF]).ports.rawIn = 0xFF :: []) ∧
    ((asking (.wire 0x10C)).Free ∧ (asking (.wire 0x10C)).ports.moves = .wire 0x10C :: []) :=
  ⟨⟨free_reset _, rfl, rfl⟩, free_reset _, rfl⟩

/-- A good state with a decoder at work: a push of a byte that fills the buffer. -/
theorem witness_StepKeepsGoodState :
    let s := ((decoding true false 4 [1, 2, 3]).withRawIn [9]).withMoves [.raw]
    s.Good ∧ ∃ t, step s = .next t ∧ t.mem.b1 = [1, 2, 3, 9] :=
  ⟨⟨by decide, by decide, rfl, fun h => (nomatch h), fun _ => rfl, fun _ => by decide, fun _ h => nomatch h⟩, _, rfl, rfl⟩
theorem witness_ResetInputRestoresBlock : (asking .reset).Free ∧ (asking .reset).ports.moves = .reset :: [] :=
  ⟨free_reset _, rfl⟩
theorem witness_WireOnlyGrows :
    ∃ t, step (asking (.wire 0x10C)) = .next t ∧ t.env.lineTx = [⟨true, 0x0C⟩] := ⟨_, rfl, rfl⟩

/-! The deadline and the handshake. -/

theorem witness_DeadlineEndsUnfinishedHandshake :
    ((shaking .sendA []).env.alarm = .armed ∧ (shaking .sendA []).host.hs = .running .sendA ∧
      HsPoint.sendA.inReceive = false) ∧
    ((shaking .loop []).host.hs = .running .loop ∧ (shaking .loop []).rxDone = false) ∧
    (let s := { shaking .loop [] with rx := { Decoder.reset with phase := .active, explen := 0 } };
      s.env.alarm = .armed ∧ s.host.hs = .running .loop ∧ s.rxDone = true ∧ HsPoint.loop.inReceive = true) ∧
    (((shaking .loop []).setHs .idle).env.alarm = .armed ∧ ∀ pt, ((shaking .loop []).setHs .idle).host.hs ≠ .running pt) :=
  ⟨by decide, by decide, by decide, rfl, fun _ h => nomatch h⟩
theorem witness_DeadlineEndsReadLoop :
    (let s := shaking .loop [{ quiet with event := some .deadline }];
      s.env.alarm = .armed ∧ s.rxDone = false ∧ s.host.hs = .running .loop ∧
      s.env.answers = { quiet with event := some .deadline } :: [] ∧
      ({ quiet with event := some .deadline } : LineAnswer).event = some .deadline) ∧
    (let s := shaking (.push [0x11]) [{ quiet with event := some .deadline }];
      s.env.alarm = .armed ∧ s.rxDone = false ∧ s.host.hs = .running (.push [0x11]) ∧
      ∃ x xs, HsPoint.push [0x11] = .push (x :: xs)) :=
  ⟨by decide, by decide, by decide, by decide, _, _, rfl⟩
theorem witness_HandshakeBegins :
    (asking (.hsRun (some (5, 7)))).Free ∧ (asking (.hsRun (some (5, 7)))).ports.moves = .hsRun (some (5, 7)) :: [] ∧
    (asking (.hsRun none)).Free ∧ (asking (.hsRun none)).ports.moves = .hsRun none :: [] :=
  ⟨free_reset _, rfl, free_reset _, rfl⟩
/-- A move at which an operation of the block is performed (a command, a push, a send), and the four cases at the top of
the loop: `rx_done`, a failed read, an empty chunk, a chunk of two bytes. -/
theorem witness_HandshakeMovesFollowSequence :
    (∀ pt as, (shaking pt as).tx.txStep = .idle ∧ (shaking pt as).host.hs = .running pt) ∧
    ((shaking .setB [quiet]).hostOperation .setB = some (.mbSeti32 .b0 0) ∧
      (shaking .setB [quiet]).env.answers = quiet :: [] ∧ quiet.event = none) ∧
    (shaking (.push [0x11]) [quiet]).hostOperation (.push [0x11]) = some (.rawData 0x11) ∧
    (shaking .sendA (favourable 4)).hostOperation .sendA = some (.txSend .b0) ∧
    (decoding true false 0 []).rxDone = true ∧
    (∀ f c, (shaking .loop [reading f c [0xFF, 0x00]]).rxDone = false ∧
      (shaking .loop [reading f c [0xFF, 0x00]]).env.answers = reading f c [0xFF, 0x00] :: [] ∧
      (reading f c [0xFF, 0x00]).event = none ∧ (reading f c [0xFF, 0x00]).fails = f ∧
      (reading f c [0xFF, 0x00]).count = c) :=
  ⟨fun _ _ => ⟨rfl, rfl⟩, ⟨rfl, rfl, rfl⟩, rfl, rfl, rfl, fun _ _ => ⟨rfl, rfl, rfl, rfl, rfl⟩⟩

/-- The ends of a send at its first point: `Ok`, an error, no response by the deadline and by a reset, and the refusal. -/
theorem witness_HandshakeMovesFollowSequence_send :
    let after (s : State) := hsStep .perByte 1 .sendA s
    let event (e : Event) := shaking .sendA [{ quiet with event := some e }]
    let empty := { shaking .sendA [] with mem := { b0 := [], b1 := [] } }
    (∀ s ∈ [shaking .sendA (favourable 4), shaking .sendA [quietAnswer true 0 0], event .deadline, event .reset, empty],
      s.host.hs = .running .sendA) ∧
    (shaking .sendA (favourable 4)).RepliesCmd (after (shaking .sendA (favourable 4))) .ok ∧
    (shaking .sendA [quietAnswer true 0 0]).RepliesCmd (after (shaking .sendA [quietAnswer true 0 0]))
      (.err (.io .configure)) ∧
    ((after (event .deadline)).ports = (event .deadline).ports ∧
      (after (event .deadline)).host.hs = .ended .timeoutError) ∧
    ((after (event .reset)).ports = (event .reset).ports ∧ (after (event .reset)).host.hs = .running .stalled) ∧
    empty.RepliesCmd (after empty) (.refused .emptyFrame) :=
  ⟨by decide, rfl, rfl, ⟨rfl, rfl⟩, ⟨rfl, rfl⟩, rfl⟩

/-- The ends of a push (accepted as the completing byte and before it, refused, a ProtocolError), and of the read of the
sum. -/
theorem witness_HandshakeMovesFollowSequence_push :
    let at3 := (decoding true false 4 [1, 2, 3]).withAnswers [quiet]
    let at0 := (decoding false true 4 []).withAnswers [quiet]
    let fresh := State.reset.withAnswers [quiet]
    let after (s : State) := hsStep .perByte 1 (.push [0x00, 0x11]) s
    (at3.RepliesRaw (after at3) .ok ∧ (after at3).rxDone = true) ∧
    (at0.RepliesRaw (after at0) .ok ∧ (after at0).rxDone = false) ∧
    fresh.RepliesRaw (after fresh) (.refused .notActive) ∧
    (let s := (decoding false false 4 []).withAnswers [quiet];
      s.RepliesRaw (after s) (.err (.protocol .missingMarker))) ∧
    (let s := (bufs [] [12, 0, 0, 0]).withAnswers [quiet];
      s.RepliesCmd (hsStep .perByte 1 .get s) (.val (.int32 12))) ∧
    fresh.RepliesCmd (hsStep .perByte 1 .get fresh) (.fail .wrongLength) :=
  ⟨⟨rfl, rfl⟩, ⟨rfl, rfl⟩, rfl, rfl, rfl, rfl⟩

/-- A handshake waiting in its read loop, to which the deadline is delivered. -/
def timingOut : State := shaking .loop [{ quiet with event := some .deadline }]

theorem timingOut_fair : timingOut.FairRun
  | 0, _ => ⟨1, .inr rfl⟩
  | n + 1, h => by
    have e : stepN (n + 1) timingOut = stepN 1 timingOut := stepN_of_fixed (s := stepN 1 timingOut) rfl n
    rw [e] at h
    exact absurd h (by decide)

/-- A handshake whose payload is complete, with one byte of the chunk still to push. -/
def completing : State :=
  { shaking (.push [0xFF]) [quiet, quiet] with
    mem := { b0 := [0, 0, 0, 0], b1 := [12, 0, 0, 0] }
    rx := { marked := true, escaped := false, explen := 4, phase := .active, err := 0 } }

/-- The first half: a fair run that is not over at its start. The second: with a byte left to push, and with none. -/
theorem witness_FairHandshakeEnds :
    (timingOut.tx.txStep = .idle ∧ timingOut.env.alarm = .armed ∧ timingOut.FairRun ∧ ¬ timingOut.LoopOver) ∧
    (completing.tx.txStep = .idle ∧ completing.host.hs = .running (.push [0xFF]) ∧
      (HsPoint.push [0xFF]).inReceive = true ∧ completing.rxDone = true ∧ completing.rx.explen = 4 ∧
      (HsPoint.push [0xFF]).toPush < completing.env.answers.length ∧
      ∀ a ∈ completing.env.answers, a.event ≠ some .reset) ∧
    ((completing.setHs (.running .loop)).host.hs = .running .loop ∧ HsPoint.loop.inReceive = true ∧
      HsPoint.loop.toPush < (completing.setHs (.running .loop)).env.answers.length) :=
  ⟨⟨rfl, rfl, timingOut_fair, fun h => h.elim (fun k => k _ rfl) fun ⟨_, _, _, k⟩ => nomatch k⟩, by decide, by decide⟩
theorem witness_StepKeepsHandshakeSound :
    (shaking .setA [quiet]).HandshakeSound ∧
    (((shaking .compare []).setReceived 13).HandshakeSound ∧
      ∃ t, step ((shaking .compare []).setReceived 13) = .next t ∧ t.host.hs = .ended (.verificationError 13 12)) :=
  ⟨⟨rfl, by decide⟩, ⟨rfl, by decide⟩, _, rfl, by decide⟩
theorem witness_HandshakeVerifiesSum :
    (State.reset.withAnswers (handshakeAnswers (rawOfChars (frameOf (bytes32 12))))).env.rawRx = [] ∧
    (State.reset.withAnswers (handshakeAnswers (rawOfChars (frameOf (bytes32 12))))).env.answers =
      handshakeAnswers (rawOfChars (frameOf (bytes32 12))) ∧ (12 : Word32) = 5 + 7 ∧ (13 : Word32) ≠ 5 + 7 ∧
    (10 : Nat) ≤ 10 ∧ (rawOfChars (frameOf (bytes32 0xFFFFFFFF))).length = 10 :=
  ⟨rfl, rfl, by decide, by decide, le_refl _, by decide⟩

end Sys2Proof.Tests
end

section
/-! Which operation may change what in the block. `Confined op s t` is said once for every operation, every event that
resets nothing, every move of the handshake and every step; the invariant of the block's registers and the two lists of
writers (10_state.md R16, R19) are read off it. -/

namespace Sys2Proof.Machine

/-- What a change of the block by the operation `op` (or by none) keeps, short of a reset: the buffers and the decoder
stay legal, an idle encoder is left idle, `rx_marked` is cleared by `RX.INIT` only (R19), and a buffer is written by its
writers only (R16). -/
structure Confined (op : Option Instr) (s t : State) : Prop where
  good : BlockGood s.mem s.rx → BlockGood t.mem t.rx
  idle : s.tx.txStep = .idle → t.tx.txStep = .idle
  marked : s.rx.marked = true → t.rx.marked = false → ∃ len, op = some (.rxInit len)
  buf : ∀ sel, t.mem.buf sel ≠ s.mem.buf sel → ∃ i, op = some i ∧ writesBuffer sel i = true

/-- The same, or a reset of the block has fallen (R211). -/
def ConfinedOrReset (op : Option Instr) (s t : State) : Prop := Confined op s t ∨ t.block = State.reset.block

theorem Confined.trans {op : Option Instr} {s t u : State} (h : Confined op s t) (k : Confined op t u) :
    Confined op s u where
  good := k.good ∘ h.good
  idle := k.idle ∘ h.idle
  marked hs hu := by
    cases ht : t.rx.marked with
    | false => exact h.marked hs ht
    | true => exact k.marked ht hu
  buf sel hne := by
    by_cases ht : t.mem.buf sel = s.mem.buf sel
    · exact k.buf sel (ht ▸ hne)
    · exact h.buf sel ht

/-- A change of the line, the ports or the host is confined, whatever the operation. -/
theorem Confined.of_eq {op : Option Instr} {s t : State} (hmem : t.mem = s.mem) (hrx : t.rx = s.rx)
    (hidle : s.tx.txStep = .idle → t.tx.txStep = .idle) : Confined op s t where
  good g := by rw [hmem, hrx]; exact g
  idle := hidle
  marked hs ht := by rw [hrx, hs] at ht; exact nomatch ht
  buf sel hne := absurd (by rw [hmem]) hne

/-- The block's registers are its buffers, its decoder and its encoder. -/
theorem State.block_eq_iff (s t : State) : t.block = s.block ↔ t.mem = s.mem ∧ t.rx = s.rx ∧ t.tx = s.tx := by
  simp [State.block]

theorem Confined.of_block {op : Option Instr} {s t : State} (h : t.block = s.block) : Confined op s t := by
  obtain ⟨hmem, hrx, htx⟩ := (s.block_eq_iff t).1 h
  exact .of_eq hmem hrx fun i => by rw [htx]; exact i

theorem Confined.refl (op : Option Instr) (s : State) : Confined op s s := .of_block rfl

theorem ConfinedOrReset.after {op : Option Instr} {s t u : State} (k : ConfinedOrReset op t u) (h : Confined op s t) :
    ConfinedOrReset op s u :=
  k.imp_left h.trans

theorem ConfinedOrReset.with_block {op : Option Instr} {s t u : State} (k : ConfinedOrReset op s t)
    (h : u.block = t.block) : ConfinedOrReset op s u :=
  k.imp (fun c => c.trans (.of_block h)) h.trans

/-! ## The buffers' writers (R16) -/

/-- An operation on the buffers and the decoder that keeps both legal, with what it clears and writes. -/
theorem Keeps.confined {op : Option Instr} {s t : State} (k : Keeps s t)
    (marked : s.rx.marked = true → t.rx.marked = false → ∃ len, op = some (.rxInit len))
    (buf : ∀ sel, t.mem.buf sel ≠ s.mem.buf sel → ∃ i, op = some i ∧ writesBuffer sel i = true) : Confined op s t :=
  ⟨k.good, fun h => by rw [k.tx]; exact h, marked, buf⟩

/-- An operation that writes neither the buffers nor `rx_marked`. -/
theorem Keeps.confined_of_eq {op : Option Instr} {s t : State} (k : Keeps s t) (hmem : t.mem = s.mem)
    (hmarked : t.rx.marked = s.rx.marked) : Confined op s t :=
  k.confined (fun hs ht => by rw [hmarked, hs] at ht; exact nomatch ht) fun _ hne => absurd (by rw [hmem]) hne

/-- A write of `sel` changes no other buffer (R13). -/
theorem Memory.eq_of_buf_setBuf_ne {m : Memory} {sel x : BufSel} {bs : List Byte}
    (h : (m.setBuf sel bs).buf x ≠ m.buf x) : x = sel := by
  by_contra hx
  exact h (m.buf_setBuf_of_ne (Ne.symm hx) bs)

/-- A write that keeps the block legal, by one of the writers of the buffer. -/
theorem Keeps.confined_setBuf {i : Instr} {sel : BufSel} {s : State} {bs : List Byte} (k : Keeps s (s.setBuf sel bs))
    (hw : writesBuffer sel i = true) : Confined (some i) s (s.setBuf sel bs) :=
  k.confined (fun hs ht => by rw [State.setBuf_rx, hs] at ht; exact nomatch ht) fun x hne => by
    rw [Memory.eq_of_buf_setBuf_ne hne]
    exact ⟨i, rfl, hw⟩

theorem ownerCheck_confined {op : Option Instr} {sel : BufSel} {s : State} {w : Response × State}
    (h : ¬ s.HeldByDecoder sel → Confined op s w.2) : Confined op s (ownerCheck sel s w).2 := by
  rcases ownerCheck_cases sel s w with ⟨_, e⟩ | ⟨free, e⟩ <;> rw [e]
  · exact .refl op s
  · exact h free

/-- A writer that replaces the whole content of its buffer (R95, R98, R101). -/
theorem checkedSetBuf_confined {i : Instr} {sel : BufSel} (hw : writesBuffer sel i = true) (bs : List Byte)
    (hb : bs.length ≤ 256) (s : State) : Confined (some i) s (ownerCheck sel s (.ok, s.setBuf sel bs)).2 :=
  ownerCheck_confined fun free => (setBuf_keeps sel s bs hb free).confined_setBuf hw

/-- A writer that appends to its buffer (R93, R94). -/
theorem checkedAppend_confined {i : Instr} {sel : BufSel} (hw : writesBuffer sel i = true) (bs : List Byte) (s : State) :
    Confined (some i) s (ownerCheck sel s (appendBytes sel bs s)).2 := by
  refine ownerCheck_confined fun free => ?_
  have k := appendBytes_keeps sel bs s free
  rcases appendBytes_cases sel bs s with ⟨_, e⟩ | ⟨_, e⟩ <;> rw [e] at k ⊢
  · exact k.confined_setBuf hw
  · exact .refl _ s

theorem setInt32_confined {i : Instr} {sel : BufSel} (hw : writesBuffer sel i = true) (v : Word32) (s : State) :
    Confined (some i) s (setInt32 sel v s).2 :=
  checkedSetBuf_confined hw (bytes32 v) (by simp [bytes32]) s

theorem getInt32_confined (op : Option Instr) (sel : BufSel) (s : State) : Confined op s (getInt32 sel s).2 := by
  rcases getInt32_cases sel s with ⟨v, _, e⟩ | e <;> rw [e] <;> exact .refl op s

/-! ## The decoder -/

theorem raiseProtocol_confined (op : Option Instr) (c : ProtoCause) (s : State) : Confined op s (raiseProtocol c s).2 :=
  (raiseProtocol_keeps c s).confined_of_eq rfl rfl

theorem setEscaped_confined (op : Option Instr) (s : State) (b : Bool) :
    Confined op s (s.setRx { s.rx with escaped := b }) :=
  (setEscaped_keeps s b).confined_of_eq rfl rfl

theorem discardDecoder_confined (op : Option Instr) (s : State) : Confined op s (discardDecoder s) :=
  (discardDecoder_keeps s).confined_of_eq rfl rfl

theorem payload_confined {i : Instr} (hw : writesBuffer .b1 i = true) (v : Byte) (s : State) :
    Confined (some i) s (payload v s).2 := by
  have k := payload_keeps v s
  rcases payload_frame v s with ⟨c, e⟩ | ⟨_, _, _, e⟩ <;> rw [e] at k ⊢
  · exact raiseProtocol_confined _ c s
  · exact k.confined_setBuf hw

theorem caseLitff_confined (s : State) : Confined (some .rawLitff) s (caseLitff s).2 :=
  (setEscaped_confined _ s false).trans (payload_confined rfl _ _)

/-- The start marker sets `rx_marked` and clears `rx_escaped` (R135). -/
theorem caseMark_confined (op : Option Instr) (s : State) : Confined op s (caseMark s).2 := by
  by_cases hm : s.rx.marked = true
  · rw [caseMark, if_pos hm]
    exact raiseProtocol_confined op .duplicateMarker s
  · have k := caseMark_keeps s
    rw [caseMark, if_neg hm] at k ⊢
    exact k.confined (fun _ ht => nomatch ht) fun _ hne => absurd rfl hne

theorem ifActive_confined {op : Option Instr} {s : State} {w : Response × State} (h : Confined op s w.2) :
    Confined op s (ifActive s w).2 := by
  by_cases hp : s.rx.phase = .active
  · rw [ifActive_of hp]; exact h
  · rw [ifActive_of_not hp]; exact .refl op s

/-- A push does what the case of its byte may do (R67, R134). -/
theorem rxPush_confined (b : Byte) (s : State) : Confined (some (decodeRaw s.rx.escaped b)) s (rxPush b s).2 := by
  unfold rxPush decodeRaw
  refine ifActive_confined ?_
  repeat' split
  · exact caseMark_confined _ s
  · exact caseLitff_confined s
  · exact raiseProtocol_confined _ .badEscape s
  · exact setEscaped_confined _ s true
  · exact payload_confined rfl b s

theorem initDecoder_confined (len : BitVec 16) (s : State) :
    Confined (some (.rxInit len)) s (initDecoder len s).2 := by
  refine (initDecoder_keeps len s).confined (fun _ _ => ⟨len, rfl⟩) fun sel hne => ⟨_, rfl, ?_⟩
  unfold initDecoder at hne
  split at hne
  · exact absurd rfl hne
  · simpa [writesBuffer] using Memory.eq_of_buf_setBuf_ne hne

/-! ## The line and the events -/

theorem LineGrows.confined {op : Option Instr} {s t : State} (h : LineGrows s t)
    (hidle : s.tx.txStep = .idle → t.tx.txStep = .idle) : Confined op s t :=
  .of_eq h.mem h.rx hidle

/-- What cuts an operation off leaves the buffers and the decoder alone and the encoder idle, or resets the block (R187,
R211). -/
theorem CutBy.confinedOrReset {op : Option Instr} {s u t : State} (h : CutBy u t) (hmem : u.mem = s.mem)
    (hrx : u.rx = s.rx) : ConfinedOrReset op s t := by
  cases h with
  | reset block => exact .inr block
  | deadline mem rx tx => exact .inl (.of_eq (mem.trans hmem) (rx.trans hrx) fun _ => by rw [tx])

theorem deliverDeadline_confined (op : Option Instr) (s : State) : Confined op s (deliverDeadline s) := by
  cases hc : s.deadlineCuts with
  | true =>
    rw [deliverDeadline_of_cuts hc]
    exact .of_eq rfl rfl fun _ => rfl
  | false =>
    rw [deliverDeadline_of_not_cuts hc]
    split <;> exact .of_block rfl

theorem nextTurn_goesOn_confined {op : Option Instr} {s t : State} {a : LineAnswer} (h : nextTurn s = .goesOn a t) :
    Confined op s t := by
  obtain ⟨grows, tx, _⟩ := nextTurn_goesOn h
  exact grows.confined fun i => by rw [tx]; exact i

theorem nextTurn_cutOff_confinedOrReset {op : Option Instr} {s t : State} (h : nextTurn s = .cutOff t) :
    ConfinedOrReset op s t :=
  (nextTurn_cutOff h).confinedOrReset rfl rfl

theorem lineReadBytes_confined (op : Option Instr) (n : Nat) (a : LineAnswer) (s : State) :
    Confined op s (lineReadBytes n a s).2 := by
  obtain ⟨grows, tx⟩ := lineReadBytes_grows n a s
  exact grows.confined fun i => by rw [tx]; exact i

theorem SendOutcome.confinedOrReset {op : Option Instr} {s : State} {e : SendEnd} (h : SendOutcome s e) :
    ConfinedOrReset op s e.state := by
  cases h with
  | finished grows idle _ => exact .inl (.of_eq grows.mem grows.rx fun _ => idle)
  | abandoned grows cut => exact cut.confinedOrReset grows.mem grows.rx

theorem sendFrame_confinedOrReset (op : Option Instr) (sel : BufSel) (s : State) :
    ConfinedOrReset op s (sendFrame sel s).state := by
  rcases sendFrame_cases sel s with ⟨_, e⟩ | ⟨_, outcome⟩
  · rw [e]
    exact .inl (.of_block rfl)
  · exact outcome.confinedOrReset

/-! ## The operations -/

theorem answerCmd_confined {op : Option Instr} {s t : State} {r : Response × State} (k : Confined op s r.2)
    (h : answerCmd r = .next t) : Confined op s t := by
  cases h
  exact k.trans (.of_block rfl)

theorem answerRaw_confined {op : Option Instr} {s t : State} {r : Response × State} (k : Confined op s r.2)
    (h : answerRaw r = .next t) : Confined op s t := by
  cases h
  exact k.trans (.of_block rfl)

/-- Every operation is confined to what its row may change; only during a `TX.SEND` can a reset fall (R211). -/
theorem exec_confined {i : Instr} {s t : State} (h : exec i s = .next t) :
    Confined (some i) s t ∨ ((∃ sel, i = .txSend sel) ∧ t.block = State.reset.block) := by
  cases i with
  | mbAppend sel bs => exact .inl (answerCmd_confined (checkedAppend_confined (by simp [writesBuffer]) bs s) h)
  | mbAppendb sel b => exact .inl (answerCmd_confined (checkedAppend_confined (by simp [writesBuffer]) [b] s) h)
  | mbReset sel => exact .inl (answerCmd_confined (checkedSetBuf_confined (by simp [writesBuffer]) [] (by simp) s) h)
  | mbSeti32 sel v => exact .inl (answerCmd_confined (setInt32_confined (by simp [writesBuffer]) v s) h)
  | mbSetctl sel sp =>
    exact .inl (answerCmd_confined (checkedSetBuf_confined (by simp [writesBuffer]) (controlFrame sp)
      (by simp [controlFrame, controlBody, Config.controlHeader]) s) h)
  | mbGeti32 sel => exact .inl (answerCmd_confined (getInt32_confined _ sel s) h)
  | mbLen sel | mbCap sel | mbCksum sel | mbEq | mbHex sel => exact .inl (answerCmd_confined (.refl _ s) h)
  | rxInit len => exact .inl (answerCmd_confined (initDecoder_confined len s) h)
  | rxDrop => exact .inl (answerCmd_confined (discardDecoder_confined _ s) h)
  | rawEsc => exact .inl (answerRaw_confined (ifActive_confined (setEscaped_confined _ s true)) h)
  | rawData b => exact .inl (answerRaw_confined (ifActive_confined (payload_confined rfl b s)) h)
  | rawMark => exact .inl (answerRaw_confined (ifActive_confined (caseMark_confined _ s)) h)
  | rawLitff => exact .inl (answerRaw_confined (ifActive_confined (caseLitff_confined s)) h)
  | rawBadesc b => exact .inl (answerRaw_confined (ifActive_confined (raiseProtocol_confined _ .badEscape s)) h)
  | txSend sel =>
    cases h
    exact (sendFrame_confinedOrReset _ sel s).imp_right fun reset => ⟨⟨sel, rfl⟩, reset⟩
  | wireMark d | wireSpace d =>
    cases h
    exact .inl (.of_block rfl)

theorem exec_confinedOrReset {i : Instr} {s t : State} (h : exec i s = .next t) : ConfinedOrReset (some i) s t :=
  (exec_confined h).imp_right And.right

/-! ## The moves of the handshake -/

theorem hsTurn_confinedOrReset {op : Option Instr} {s : State} {k : State → State}
    (hk : ∀ t, LineGrows s t → ConfinedOrReset op t (k t)) : ConfinedOrReset op s (hsTurn s k) := by
  unfold hsTurn
  split
  · next h => exact nextTurn_cutOff_confinedOrReset h
  · next h => exact (hk _ (nextTurn_goesOn h).1).after (nextTurn_goesOn_confined h)

/-- The host's own part of a send leaves the block as the send does. -/
theorem hsSend_block (onward : HsPoint) (s : State) : (hsSend onward s).block = (sendFrame .b0 s).state.block := by
  unfold hsSend
  split
  · next e => rw [e]; rfl
  · next e => rw [e]; rfl
  · next e => rw [e]; split <;> rfl

theorem hsAfterPush_block (chk : RxDoneCheck) (rest : List Byte) (s : State) :
    (hsAfterPush chk rest s).block = s.block := by
  unfold hsAfterPush
  repeat' split
  all_goals rfl

/-- The host's own part of a push leaves the block as the push does. -/
theorem hsPush_block (chk : RxDoneCheck) (x : Byte) (rest : List Byte) (s : State) :
    (hsPush chk x rest s).block = (rxPush x s).2.block := by
  unfold hsPush
  split
  · next e => rw [e]; rfl
  · next e => rw [e]; exact hsAfterPush_block _ _ _

theorem hsGet_block (s : State) : (hsGet s).block = s.block := by
  unfold hsGet
  rcases getInt32_cases .b1 s with ⟨v, _, e⟩ | e <;> rw [e] <;> rfl

theorem hsCompare_block (s : State) : (hsCompare s).block = s.block := by
  unfold hsCompare
  split <;> rfl

theorem hsRead_confinedOrReset (op : Option Instr) (n : Nat) (s : State) : ConfinedOrReset op s (hsRead n s) := by
  unfold hsRead
  split
  · next h => exact nextTurn_cutOff_confinedOrReset h
  · next a t h =>
    have read : Confined op s (lineReadBytes n a t).2 :=
      (nextTurn_goesOn_confined h).trans (lineReadBytes_confined op n a t)
    split
    all_goals
      next e =>
        rw [e] at read
        exact .inl (read.trans (.of_block rfl))

theorem hsCommand_confinedOrReset {op : Option Instr} {s : State} {r : Response × State} (onward : HsPoint)
    (h : Confined op s r.2) : ConfinedOrReset op s (hsCommand onward r) :=
  .inl (h.trans (.of_block rfl))

/-- A move of the host changes the block as the operation it performs may (R164 to R168). -/
theorem hsStep_confinedOrReset (chk : RxDoneCheck) (n : Nat) (pt : HsPoint) (s : State) :
    ConfinedOrReset (s.hostOperation pt) s (hsStep chk n pt s) := by
  cases pt with
  | setA | setB => exact hsTurn_confinedOrReset fun t _ => hsCommand_confinedOrReset _ (setInt32_confined rfl _ t)
  | sendA | sendB => exact (sendFrame_confinedOrReset _ .b0 s).with_block (hsSend_block _ s)
  | init => exact hsTurn_confinedOrReset fun t _ => hsCommand_confinedOrReset _ (initDecoder_confined 4 t)
  | loop =>
    show ConfinedOrReset none s (if s.rxDone then s.hsGoto .get else hsRead n s)
    split
    · exact .inl (.of_block rfl)
    · exact hsRead_confinedOrReset _ n s
  | push chunk =>
    cases chunk with
    | nil => exact .inl (.of_block rfl)
    | cons x rest =>
      refine hsTurn_confinedOrReset fun t grows => ?_
      have push := rxPush_confined x t
      rw [grows.rx] at push
      exact .inl (push.trans (.of_block (hsPush_block chk x rest t)))
  | get => exact hsTurn_confinedOrReset fun t _ => .inl (.of_block (hsGet_block t))
  | compare => exact .inl (.of_block (hsCompare_block s))
  | stalled => exact hsTurn_confinedOrReset fun t _ => .inl (.refl _ t)

/-! ## The step -/

theorem takeCommand_confinedOrReset {s t : State} (h : takeCommand s = .next t) :
    ConfinedOrReset (s.askedOperation .cmd) s t := by
  unfold takeCommand at h
  unfold State.askedOperation
  cases e : decodeCmd s.ports.cmdIn with
  | instr i rest =>
    rw [e] at h
    exact (exec_confinedOrReset h).after (.of_block rfl)
  | illegalCommand op rest =>
    rw [e] at h
    exact .inl (answerCmd_confined (.of_block rfl) h)
  | incomplete =>
    rw [e] at h
    cases h
    exact .inl (.refl _ s)

theorem takeRaw_confinedOrReset {s t : State} (h : takeRaw s = .next t) : ConfinedOrReset (s.askedOperation .raw) s t := by
  unfold takeRaw at h
  unfold State.askedOperation
  cases e : s.ports.rawIn with
  | nil =>
    rw [e] at h
    cases h
    exact .inl (.refl _ s)
  | cons b rest =>
    rw [e] at h
    exact (exec_confinedOrReset h).after (.of_block rfl)

theorem takeReadLine_confinedOrReset (op : Option Instr) (s : State) : ConfinedOrReset op s (takeReadLine s) := by
  unfold takeReadLine
  split
  · next h => exact nextTurn_cutOff_confinedOrReset h
  · next h => exact .inl ((nextTurn_goesOn_confined h).trans (lineReadBytes_confined op _ _ _))

theorem hsBegin_block (draw : Option (Word32 × Word32)) (s : State) : (hsBegin draw s).block = s.block := by
  cases draw <;> rfl

/-- A request of the outside changes the block as the operation it asks for may. -/
theorem serve_confinedOrReset {m : Move} {s t : State} (h : serve m s = .next t) :
    ConfinedOrReset (s.askedOperation m) s t := by
  cases m with
  | cmd => exact takeCommand_confinedOrReset h
  | raw => exact takeRaw_confinedOrReset h
  | wire ch => exact exec_confinedOrReset h
  | readLine => cases h; exact takeReadLine_confinedOrReset _ s
  | hsRun draw => cases h; exact .inl (.of_block (hsBegin_block draw s))
  | deadline => cases h; exact .inl (deliverDeadline_confined _ s)
  | reset => cases h; exact .inr rfl

/-- What is asked for does not depend on the requests that wait behind. -/
theorem askedOperation_withMoves (s : State) (ms : List Move) (m : Move) :
    (s.withMoves ms).askedOperation m = s.askedOperation m := by
  cases m <;> rfl

theorem step_of_sending {s : State} (h : s.tx.txStep ≠ .idle) : step s = .next (resumeSend s).state := by
  simp [step, advance, h]

theorem step_of_running {s : State} {pt : HsPoint} (hi : s.tx.txStep = .idle) (hr : s.host.hs = .running pt) :
    step s = .next (hsStep Config.rxDoneCheck Config.rxChunkMax pt s) := by
  simp [step, advance, hi, hr]

theorem step_of_waiting {s : State} (hf : s.Free) (hm : s.ports.moves = []) : step s = .next s := by
  obtain ⟨hi, hr⟩ := hf
  unfold step advance
  cases hh : s.host.hs with
  | running pt => exact absurd hh (hr pt)
  | idle | ended r => simp [hi, hm]

theorem step_of_free {s : State} {m : Move} {ms : List Move} (hf : s.Free) (hm : s.ports.moves = m :: ms) :
    step s = serve m (s.withMoves ms) := by
  obtain ⟨hi, hr⟩ := hf
  unfold step advance
  cases hh : s.host.hs with
  | running pt => exact absurd hh (hr pt)
  | idle | ended r => simp [hi, hm]

theorem nextOperation_of_running {s : State} {pt : HsPoint} (hi : s.tx.txStep = .idle) (hr : s.host.hs = .running pt) :
    s.nextOperation = s.hostOperation pt := by
  simp [State.nextOperation, hi, hr]

theorem nextOperation_of_free {s : State} {m : Move} {ms : List Move} (hf : s.Free) (hm : s.ports.moves = m :: ms) :
    s.nextOperation = s.askedOperation m := by
  obtain ⟨hi, hr⟩ := hf
  unfold State.nextOperation
  cases hh : s.host.hs with
  | running pt => exact absurd hh (hr pt)
  | idle | ended r => simp [hi, hm]

/-- A step changes the block as the operation it performs may, or resets it. -/
theorem step_confinedOrReset {s t : State} (h : step s = .next t) : ConfinedOrReset s.nextOperation s t := by
  by_cases hi : s.tx.txStep = .idle
  · by_cases hr : ∃ pt, s.host.hs = .running pt
    · obtain ⟨pt, hr⟩ := hr
      rw [step_of_running hi hr] at h
      rw [nextOperation_of_running hi hr]
      cases h
      exact hsStep_confinedOrReset _ _ pt s
    · have hf : s.Free := ⟨hi, not_exists.1 hr⟩
      cases hm : s.ports.moves with
      | nil =>
        rw [step_of_waiting hf hm] at h
        cases h
        exact .inl (.refl _ s)
      | cons m ms =>
        rw [step_of_free hf hm] at h
        rw [nextOperation_of_free hf hm, ← askedOperation_withMoves s ms]
        exact (serve_confinedOrReset h).after (.of_block rfl)
  · rw [step_of_sending hi] at h
    cases h
    exact (resumeSend_outcome s hi).confinedOrReset

/-- A block at its reset values is legal (R31). -/
theorem good_of_block_reset {t : State} (h : t.block = State.reset.block) : t.Good := by
  obtain ⟨hmem, hrx, htx⟩ := (State.reset.block_eq_iff t).1 h
  rw [State.good_iff, hmem, hrx, htx]
  exact ⟨reset_blockGood, rfl⟩

/-- Settles O48: a confined change keeps the block legal, and the only other one is a reset. -/
theorem stepKeepsGoodState : Obligations.StepKeepsGoodState := by
  intro s t hs h
  rcases step_confinedOrReset h with confined | reset
  · obtain ⟨block, idle⟩ := s.good_iff.1 hs
    exact t.good_iff.2 ⟨confined.good block, confined.idle idle⟩
  · exact good_of_block_reset reset

/-- Settles O34: a confined operation or step clears `rx_marked` only as `RX.INIT`. -/
theorem markedClearedOnlyByInit : Obligations.MarkedClearedOnlyByInit := by
  refine ⟨fun i s t h hs ht => ?_, fun s t h hs ht => ?_⟩
  · refine (exec_confined h).imp_left fun confined => ?_
    obtain ⟨len, e⟩ := confined.marked hs ht
    exact ⟨len, Option.some.inj e⟩
  · exact (step_confinedOrReset h).imp_left fun confined => confined.marked hs ht

/-- Settles O35: a confined operation or step changes a buffer only as one of its writers. -/
theorem bufferWritersComplete : Obligations.BufferWritersComplete := by
  refine ⟨fun i sel s t h hne => ?_, fun sel s t h hne => ?_⟩
  · refine (exec_confined h).imp_left fun confined => ?_
    obtain ⟨j, e, hw⟩ := confined.buf sel hne
    rw [Option.some.inj e]
    exact hw
  · exact (step_confinedOrReset h).imp_left fun confined => confined.buf sel hne

/-! ## The status outputs, the step of a command, and reset -/

theorem rxDone_iff (s : State) :
    s.rxDone = true ↔ s.rx.phase = .active ∧ s.mem.len .b1 = s.rx.explen.toNat := by
  simp [State.rxDone, Memory.len_eq]

/-- A length fits the 9 bits of its status output (R14, R27). -/
theorem Memory.len_ofNat {m : Memory} (h : m.wf) (sel : BufSel) : (BitVec.ofNat 9 (m.len sel)).toNat = m.len sel := by
  have bound : m.len sel ≤ 256 := by
    cases sel
    · exact h.1
    · exact h.2
  rw [BitVec.toNat_ofNat]
  exact Nat.mod_eq_of_lt (by omega)

/-- Settles O36: each output is its register, and the two codes are read off the tables of R22 and R25. -/
theorem doneIsActiveAndComplete : Obligations.DoneIsActiveAndComplete := by
  intro s
  refine ⟨rxDone_iff s, fun h => ⟨Memory.len_ofNat h .b0, Memory.len_ofNat h .b1⟩, ?_, rfl, rfl, rfl, rfl, ?_⟩
  · show s.rx.phase.bits.toNat = _
    cases s.rx.phase <;> rfl
  · show s.tx.pmode.bits.toNat = _
    cases s.tx.pmode <;> rfl

/-- Settles O46: the three answers of the command port's decoder. -/
theorem stepRunsDecodedCommand : Obligations.StepRunsDecodedCommand := by
  intro ms s hf hm
  have taken : step s = takeCommand (s.withMoves ms) := step_of_free hf hm
  refine ⟨fun i rest e => ?_, fun op rest e => ?_, fun e => ?_⟩
  · rw [taken, takeCommand, State.withMoves_cmdIn, e]
  · rw [taken, takeCommand, State.withMoves_cmdIn, e]
    rfl
  · rw [taken, takeCommand, State.withMoves_cmdIn, e]

/-- Settles O49: the reset state is a block at its reset values, with no handshake. -/
theorem resetIsGood : Obligations.ResetIsGood := ⟨good_of_block_reset rfl, trivial⟩

/-- Settles O50, value by value; every buffer is empty, so no byte is read. -/
theorem resetValues : Obligations.ResetValues := by
  refine ⟨rfl, rfl, fun sel i => ?_, rfl, rfl, rfl, rfl, rfl, rfl, rfl, rfl, fun s => ⟨rfl, resetBlock_env s⟩⟩
  cases sel <;> rfl

end Sys2Proof.Machine
end

section
/-! The wire and the line's record (20_memory.md): what a write and a read of the line do, how the decoder takes the
driver's report of a frame, and that what is on the wire and in `line_ops` stays. -/

namespace Sys2Proof.Machine

/-! ## Writes (R49, R53) -/

/-- Running the row whose character has the parity of the mode, byte after byte, is writing in that mode. -/
theorem execAll_eq_emitAll {row : Byte → Instr} {p : Bool} (hrow : ∀ d s, exec (row d) s = .next (s.emit ⟨p, d⟩))
    (ds : List Byte) (s : State) (hp : ∀ t : State, t.tx = s.tx → t.parityBit = p) :
    execAll (ds.map row) s = .next (emitAll ds s) := by
  induction ds generalizing s with
  | nil => rfl
  | cons d ds ih =>
    rw [List.map_cons, execAll, hrow, emitAll, hp s rfl]
    exact ih (s.emit ⟨p, d⟩) hp

/-- A write answered with a count in range puts its first `c` bytes on the wire (R49). -/
theorem lineWriteBytes_lineTx {bs : List Byte} {c : Nat} (h : c ≤ bs.length) (w : Nat) (s : State) :
    (lineWriteBytes bs (quietAnswer false c w) s).2.env.lineTx = (emitAll (bs.take c) s).env.lineTx := by
  have sent : onWire (quietAnswer false c w) bs.length = c :=
    onWire_of_count _ _ rfl (Int.natCast_nonneg c) (Int.ofNat_le.2 h)
  rw [lineWriteBytes, sent, State.logOp_lineTx]

/-- A write in a mode, against the row that puts the mode's characters on the wire. -/
theorem lineWriteBytes_runsRow {row : Byte → Instr} {p : Bool} {s : State} {bs : List Byte} {c : Nat}
    (hrow : ∀ d s, exec (row d) s = .next (s.emit ⟨p, d⟩)) (hp : ∀ t : State, t.tx = s.tx → t.parityBit = p)
    (hemit : (emitAll (bs.take c) s).env.lineTx = s.env.lineTx ++ (bs.take c).map (fun x => ⟨p, x⟩))
    (h : c ≤ bs.length) (w : Nat) :
    ∃ t, execAll ((bs.take c).map row) s = .next t ∧
      (lineWriteBytes bs (quietAnswer false c w) s).2.env.lineTx = t.env.lineTx ∧
      t.env.lineTx = s.env.lineTx ++ (bs.take c).map (fun x => ⟨p, x⟩) :=
  ⟨_, execAll_eq_emitAll hrow _ s hp, lineWriteBytes_lineTx h w s, hemit⟩

theorem parityBit_of_mark {s : State} (h : s.tx.pmode = .mark) : s.parityBit = true := by
  rw [State.parityBit, h]

theorem parityBit_of_space {s : State} (h : s.tx.pmode = .space) : s.parityBit = false := by
  rw [State.parityBit, h]

/-- Settles O38: in each of the two modes the row's character is the mode's. -/
theorem writeUsesParityMode : Obligations.WriteUsesParityMode := by
  refine fun bs c w s hc => ⟨fun hm => ?_, fun hm => ?_⟩
  · exact lineWriteBytes_runsRow (fun _ _ => rfl) (fun t ht => parityBit_of_mark (ht ▸ hm))
      (by rw [emitAll_mark _ s hm]) hc w
  · exact lineWriteBytes_runsRow (fun _ _ => rfl) (fun t ht => parityBit_of_space (ht ▸ hm))
      (by rw [emitAll_space _ s hm]) hc w

/-! ## Reads (R50, R52) -/

/-- A failed read takes no byte and is recorded (log 15, log 25). -/
theorem lineReadBytes_of_fails {a : LineAnswer} (h : a.fails = true) (n : Nat) (s : State) :
    lineReadBytes n a s = (none, s.logOp (.readBytes n none)) := by
  rw [lineReadBytes, if_pos h]

/-- How many of the bytes `waiting` in `raw_rx` a read takes: the count of the answer, cut to what was asked for and to
what is there (R50; log 15). -/
def readCount (n : Nat) (a : LineAnswer) (waiting : List Byte) : Nat := min a.count.toNat (min n waiting.length)

theorem readCount_le_asked (n : Nat) (a : LineAnswer) (waiting : List Byte) : readCount n a waiting ≤ n := by
  unfold readCount; omega

theorem readCount_le_length (n : Nat) (a : LineAnswer) (waiting : List Byte) :
    readCount n a waiting ≤ waiting.length := by
  unfold readCount; omega

/-- A count in range is the number of bytes taken (R50). -/
theorem readCount_of_inRange {n : Nat} {a : LineAnswer} {waiting : List Byte} (h0 : 0 ≤ a.count)
    (hn : a.count ≤ (n : Int)) (hw : a.count ≤ (waiting.length : Int)) : (readCount n a waiting : Int) = a.count := by
  unfold readCount; omega

/-- A read that does not fail takes the first bytes of `raw_rx` and is recorded (R50, R52). -/
theorem lineReadBytes_of_not_fails {a : LineAnswer} (h : a.fails = false) (n : Nat) (s : State) :
    lineReadBytes n a s = (some (s.env.rawRx.take (readCount n a s.env.rawRx)), { s with env := { s.env with
      rawRx := s.env.rawRx.drop (readCount n a s.env.rawRx)
      lineOps := s.env.lineOps ++ [.readBytes n (some (s.env.rawRx.take (readCount n a s.env.rawRx)))] } }) := by
  have cut : min (min a.count.toNat n) s.env.rawRx.length = min (readCount n a s.env.rawRx) s.env.rawRx.length := by
    unfold readCount; omega
  rw [← List.take_eq_take_iff.2 cut, ← List.drop_eq_drop_iff.2 cut]
  simp [lineReadBytes, h, State.logOp]

/-- A read the host asks for outside the handshake, nothing falling before it: the bytes that arrived are queued, then
the line is read (log 15). -/
theorem step_readLine_of_quiet {s : State} {ms : List Move} {a : LineAnswer} {as : List LineAnswer} (hf : s.Free)
    (hm : s.ports.moves = .readLine :: ms) (h : s.env.answers = a :: as) (he : a.event = none) :
    step s = .next (lineReadBytes Config.rxChunkMax a { s.withMoves ms with env := { s.env with
      answers := as
      rawRx := s.env.rawRx ++ a.arrived } }).2 := by
  rw [step_of_free hf hm, serve, takeReadLine, nextTurn_of_quiet (s := s.withMoves ms) h he]
  rfl

/-- Settles O39: the two ends of a read, then the host's read outside the handshake as one of them. -/
theorem readTakesFirstBytes : Obligations.ReadTakesFirstBytes := by
  refine ⟨fun n a s => ⟨fun h => lineReadBytes_of_fails h n s, fun h => ?_⟩, fun ms a as s hf hm ha he => ?_⟩
  · exact ⟨readCount n a s.env.rawRx, readCount_le_asked _ _ _, readCount_le_length _ _ _, readCount_of_inRange,
      lineReadBytes_of_not_fails h n s⟩
  · rw [step_readLine_of_quiet hf hm ha he]
    refine ⟨fun h => by rw [lineReadBytes_of_fails h]; rfl, fun h => ?_⟩
    exact ⟨readCount Config.rxChunkMax a (s.env.rawRx ++ a.arrived), readCount_le_asked _ _ _,
      readCount_le_length _ _ _, readCount_of_inRange, by rw [lineReadBytes_of_not_fails h]⟩

/-! ## Loop-back through the reference driver (R54, R68) -/

/-- The driver reports a frame as the marker, then each byte of the message as data. -/
theorem rawOfChars_frameOf {m : List Byte} (h : m ≠ []) :
    rawOfChars (frameOf m) = Config.esc :: Config.markCode :: m.flatMap escapeByte := by
  cases m with
  | nil => exact absurd rfl h
  | cons d ds => simp [frameOf, rawOfChars, rawOfChar, List.flatMap_map]

/-- The report of the start marker is two accepted pushes (R135, R138). -/
theorem rxFeed_marker (rest : List Byte) (s : State) (active : s.rx.phase = .active) (unmarked : s.rx.marked = false)
    (unescaped : s.rx.escaped = false) :
    rxFeed (Config.esc :: Config.markCode :: rest) s = rxFeed rest
      ((s.setRx { s.rx with marked := true, escaped := false }).rawReply .ok |>.rawReply .ok) := by
  have esc : rxPush Config.esc s = (.ok, s.setRx { s.rx with escaped := true }) := by
    simp [rxPush, ifActive_of active, unescaped, caseEsc]
  have mark : rxPush Config.markCode ((s.setRx { s.rx with escaped := true }).rawReply .ok) =
      (.ok, (s.setRx { s.rx with marked := true, escaped := false }).rawReply .ok) := by
    simp [rxPush, ifActive, active, unmarked, caseMark, State.setRx, State.rawReply]
  rw [rxFeed, esc]
  dsimp only
  rw [rxFeed, mark]

/-- The reports of the bytes of a message that fits are all accepted and append it. -/
theorem rxFeed_message (m : List Byte) (s : State) (r : Receiving s)
    (h : s.mem.b1.length + m.length ≤ s.rx.explen.toNat) :
    rxFeed (m.flatMap escapeByte) s = { s with
      mem := { s.mem with b1 := s.mem.b1 ++ m }
      ports := { s.ports with rawOut := s.ports.rawOut ++ List.replicate (m.length + m.count 0xFF) .ok } } := by
  induction m generalizing s with
  | nil => simp [rxFeed]
  | cons d ds ih =>
    rw [List.length_cons] at h
    rw [List.flatMap_cons, rxFeed_escapeByte d _ s r (by omega), ih]
    · have pushes : (if d = 0xFF then 2 else 1) + (ds.length + ds.count 0xFF) =
          (d :: ds).length + (d :: ds).count 0xFF := by
        rw [List.length_cons, List.count_cons]
        by_cases hd : d = 0xFF
        · rw [if_pos hd, if_pos (beq_iff_eq.2 hd)]; omega
        · rw [if_neg hd, if_neg (mt beq_iff_eq.1 hd)]; omega
      simp only [List.append_assoc, List.replicate_append_replicate, pushes, List.singleton_append]
    · exact ⟨r.active, r.marked, r.unescaped, r.explen⟩
    · simp only [List.length_append, List.length_singleton]
      omega

/-- A length of at most `CAPACITY` is accepted, and the 9 bits of `rx_explen` hold it (R133, R21). -/
theorem initDecoder_of_le {n : Nat} (h : n ≤ 256) (s : State) :
    ∃ len : BitVec 9, len.toNat = n ∧ initDecoder (BitVec.ofNat 16 n) s = (.ok, freshDecoder len s) := by
  have fits : (BitVec.ofNat 16 n).toNat = n := by
    rw [BitVec.toNat_ofNat]; omega
  refine ⟨(BitVec.ofNat 16 n).setWidth 9, ?_, ?_⟩
  · rw [BitVec.toNat_setWidth, fits]; omega
  · rw [initDecoder, fits, if_neg (show ¬ Config.capacity < n from Nat.not_lt.2 h)]

/-- Settles O40: `RX.INIT`, the start marker, then the bytes of the message. -/
theorem loopBackRecoversMessage : Obligations.LoopBackRecoversMessage := by
  intro m s hne hlen
  obtain ⟨len, hlen', init⟩ := initDecoder_of_le hlen s
  refine ⟨(freshDecoder len s).cmdReply .ok, ?_, ?_⟩
  · rw [exec, execRxInit, init, answerCmd]
  · rw [rawOfChars_frameOf hne, rxFeed_marker _ _ rfl rfl rfl,
      rxFeed_message m _ ⟨rfl, rfl, rfl, hlen'.trans_le hlen⟩ (by simp [hlen'])]
    refine ⟨rfl, rfl, (rxDone_iff _).2 ⟨rfl, hlen'.symm⟩, rfl, rfl, ?_⟩
    have pushes : List.replicate (2 + m.length + m.count 0xFF) Response.ok =
        [.ok] ++ ([.ok] ++ List.replicate (m.length + m.count 0xFF) .ok) := by
      rw [Nat.add_assoc, List.replicate_add]; rfl
    rw [pushes, ← List.append_assoc, ← List.append_assoc]
    rfl

/-! ## The wire and the record only grow (R28, R56) -/

/-- What is on the wire and what is recorded of the line stays, in order. -/
structure RecordGrows (s t : State) : Prop where
  lineTx : s.env.lineTx <+: t.env.lineTx
  lineOps : s.env.lineOps <+: t.env.lineOps

theorem RecordGrows.trans {s t u : State} (h : RecordGrows s t) (k : RecordGrows t u) : RecordGrows s u :=
  ⟨h.lineTx.trans k.lineTx, h.lineOps.trans k.lineOps⟩

theorem RecordGrows.of_eq {s t : State} (htx : t.env.lineTx = s.env.lineTx) (hops : t.env.lineOps = s.env.lineOps) :
    RecordGrows s t :=
  ⟨htx ▸ List.prefix_refl _, hops ▸ List.prefix_refl _⟩

/-- What leaves the environment alone leaves the wire and the record alone. -/
theorem RecordGrows.of_env {s t : State} (h : t.env = s.env) : RecordGrows s t :=
  .of_eq (by rw [h]) (by rw [h])

/-- A change that leaves the environment alone may come first. -/
theorem RecordGrows.after {s t u : State} (k : RecordGrows t u) (h : t.env = s.env) : RecordGrows s u :=
  (RecordGrows.of_env h).trans k

theorem RecordGrows.refl (s : State) : RecordGrows s s := .of_env rfl

theorem LineGrows.recordGrows {s t : State} (h : LineGrows s t) : RecordGrows s t := ⟨h.lineTx, h.lineOps⟩

theorem CutBy.recordGrows {s t : State} (h : CutBy s t) : RecordGrows s t := by
  cases h with
  | reset _ _ _ htx hops => exact .of_eq htx hops
  | deadline _ _ _ _ _ htx hops => exact .of_eq htx hops

theorem SendOutcome.recordGrows {s : State} {e : SendEnd} (h : SendOutcome s e) : RecordGrows s e.state := by
  cases h with
  | finished grows _ _ => exact grows.recordGrows.trans (.of_env rfl)
  | abandoned grows cut => exact grows.recordGrows.trans cut.recordGrows

theorem sendFrame_recordGrows (sel : BufSel) (s : State) : RecordGrows s (sendFrame sel s).state := by
  rcases sendFrame_cases sel s with ⟨_, e⟩ | ⟨_, outcome⟩
  · rw [e]
    exact .of_env rfl
  · exact outcome.recordGrows

theorem deliverDeadline_recordGrows (s : State) : RecordGrows s (deliverDeadline s) := by
  cases hc : s.deadlineCuts with
  | true =>
    rw [deliverDeadline_of_cuts hc]
    exact .of_eq rfl rfl
  | false =>
    rw [deliverDeadline_of_not_cuts hc]
    split <;> exact .of_eq rfl rfl

/-! The operations. -/

theorem answerCmd_recordGrows {s t : State} {r : Response × State} (k : r.2.env = s.env) (h : answerCmd r = .next t) :
    RecordGrows s t := by
  cases h
  exact .of_env k

theorem answerRaw_recordGrows {s t : State} {r : Response × State} (k : r.2.env = s.env) (h : answerRaw r = .next t) :
    RecordGrows s t := by
  cases h
  exact .of_env k

theorem ownerCheck_env (sel : BufSel) {s : State} {w : Response × State} (h : w.2.env = s.env) :
    (ownerCheck sel s w).2.env = s.env := by
  rcases ownerCheck_cases sel s w with ⟨_, e⟩ | ⟨_, e⟩ <;> rw [e]
  exact h

theorem appendBytes_env (sel : BufSel) (bs : List Byte) (s : State) : (appendBytes sel bs s).2.env = s.env := by
  rcases appendBytes_cases sel bs s with ⟨_, e⟩ | ⟨_, e⟩ <;> rw [e]
  rfl

/-- Only `TX.SEND` and the line characters reach the wire, and they add to it. -/
theorem exec_recordGrows {i : Instr} {s t : State} (h : exec i s = .next t) : RecordGrows s t := by
  cases i with
  | mbAppend sel bs => exact answerCmd_recordGrows (ownerCheck_env sel (appendBytes_env sel bs s)) h
  | mbAppendb sel b => exact answerCmd_recordGrows (ownerCheck_env sel (appendBytes_env sel [b] s)) h
  | mbReset sel => exact answerCmd_recordGrows (ownerCheck_env sel (w := (.ok, s.setBuf sel [])) rfl) h
  | mbSetctl sel sp =>
    exact answerCmd_recordGrows (ownerCheck_env sel (w := (.ok, s.setBuf sel (controlFrame sp))) rfl) h
  | mbSeti32 sel v => exact answerCmd_recordGrows (setInt32_keeps sel v s).env h
  | mbGeti32 sel => exact answerCmd_recordGrows (getInt32_keeps sel s).env h
  | mbLen sel | mbCap sel | mbCksum sel | mbEq | mbHex sel | rxDrop => exact answerCmd_recordGrows rfl h
  | rxInit len => exact answerCmd_recordGrows (initDecoder_keeps len s).env h
  | rawEsc => exact answerRaw_recordGrows (ifActive_keeps s (caseEsc s) (setEscaped_keeps s true)).env h
  | rawData b => exact answerRaw_recordGrows (ifActive_keeps s _ (payload_keeps b s)).env h
  | rawMark => exact answerRaw_recordGrows (ifActive_keeps s _ (caseMark_keeps s)).env h
  | rawLitff => exact answerRaw_recordGrows (ifActive_keeps s _ (caseLitff_keeps s)).env h
  | rawBadesc b => exact answerRaw_recordGrows (ifActive_keeps s _ (raiseProtocol_keeps .badEscape s)).env h
  | txSend sel =>
    cases h
    exact sendFrame_recordGrows sel s
  | wireMark d | wireSpace d =>
    cases h
    exact (emit_grows _ s).recordGrows

/-! The moves of the handshake. -/

theorem hsTurn_recordGrows {s : State} {k : State → State} (hk : ∀ t, RecordGrows t (k t)) :
    RecordGrows s (hsTurn s k) := by
  unfold hsTurn
  split
  · next h => exact (nextTurn_cutOff h).recordGrows
  · next h => exact (nextTurn_goesOn h).1.recordGrows.trans (hk _)

/-- The host's own part of a send leaves the environment as the send does. -/
theorem hsSend_env (onward : HsPoint) (s : State) : (hsSend onward s).env = (sendFrame .b0 s).state.env := by
  unfold hsSend
  split
  · next e => rw [e]; rfl
  · next e => rw [e]; rfl
  · next e => rw [e]; split <;> rfl

theorem hsSend_recordGrows (onward : HsPoint) (s : State) : RecordGrows s (hsSend onward s) :=
  (sendFrame_recordGrows .b0 s).trans (.of_env (hsSend_env onward s))

theorem hsAfterPush_env (chk : RxDoneCheck) (rest : List Byte) (s : State) : (hsAfterPush chk rest s).env = s.env := by
  unfold hsAfterPush
  repeat' split
  all_goals rfl

/-- A push of the read loop touches the decoder and the host only. -/
theorem hsPush_env (chk : RxDoneCheck) (x : Byte) (rest : List Byte) (s : State) :
    (hsPush chk x rest s).env = s.env := by
  have push := (rxPush_keeps x s).env
  unfold hsPush
  split
  · next e => rw [e] at push; exact push
  · next e => rw [e] at push; exact (hsAfterPush_env chk rest _).trans push

theorem hsGet_env (s : State) : (hsGet s).env = s.env := by
  unfold hsGet
  rcases getInt32_cases .b1 s with ⟨v, _, e⟩ | e <;> rw [e] <;> rfl

theorem hsCompare_env (s : State) : (hsCompare s).env = s.env := by
  unfold hsCompare
  split <;> rfl

theorem hsRead_recordGrows (n : Nat) (s : State) : RecordGrows s (hsRead n s) := by
  unfold hsRead
  split
  · next h => exact (nextTurn_cutOff h).recordGrows
  · next a t h =>
    have read : RecordGrows s (lineReadBytes n a t).2 :=
      (nextTurn_goesOn h).1.recordGrows.trans (lineReadBytes_grows n a t).1.recordGrows
    split
    all_goals
      next e =>
        rw [e] at read
        exact read.trans (.of_env rfl)

/-- Every move of the host only adds to the wire and to the record. -/
theorem hsStep_recordGrows (chk : RxDoneCheck) (n : Nat) (pt : HsPoint) (s : State) :
    RecordGrows s (hsStep chk n pt s) := by
  cases pt with
  | setA => exact hsTurn_recordGrows fun t => .of_env (setInt32_keeps .b0 t.host.a t).env
  | setB => exact hsTurn_recordGrows fun t => .of_env (setInt32_keeps .b0 t.host.b t).env
  | sendA | sendB => exact hsSend_recordGrows _ s
  | init => exact hsTurn_recordGrows fun t => .of_env (initDecoder_keeps _ t).env
  | loop =>
    show RecordGrows s (if s.rxDone then s.hsGoto .get else hsRead n s)
    split
    · exact .of_env rfl
    · exact hsRead_recordGrows n s
  | push chunk =>
    cases chunk with
    | nil => exact .of_env rfl
    | cons x rest => exact hsTurn_recordGrows fun t => .of_env (hsPush_env chk x rest t)
  | get => exact hsTurn_recordGrows fun t => .of_env (hsGet_env t)
  | compare => exact .of_env (hsCompare_env s)
  | stalled => exact hsTurn_recordGrows .refl

/-! The step. -/

theorem takeCommand_recordGrows {s t : State} (h : takeCommand s = .next t) : RecordGrows s t := by
  unfold takeCommand at h
  split at h
  · exact (exec_recordGrows h).after rfl
  · exact answerCmd_recordGrows rfl h
  · cases h
    exact .refl s

theorem takeRaw_recordGrows {s t : State} (h : takeRaw s = .next t) : RecordGrows s t := by
  unfold takeRaw at h
  split at h
  · cases h
    exact .refl s
  · exact (exec_recordGrows h).after rfl

theorem takeReadLine_recordGrows (s : State) : RecordGrows s (takeReadLine s) := by
  unfold takeReadLine
  split
  · next h => exact (nextTurn_cutOff h).recordGrows
  · next h => exact (nextTurn_goesOn h).1.recordGrows.trans (lineReadBytes_grows _ _ _).1.recordGrows

/-- The start of HS.RUN writes the alarm only (R169). -/
theorem hsBegin_recordGrows (draw : Option (Word32 × Word32)) (s : State) : RecordGrows s (hsBegin draw s) := by
  cases draw <;> exact .of_eq rfl rfl

theorem serve_recordGrows {m : Move} {s t : State} (h : serve m s = .next t) : RecordGrows s t := by
  cases m with
  | cmd => exact takeCommand_recordGrows h
  | raw => exact takeRaw_recordGrows h
  | wire ch => exact exec_recordGrows h
  | readLine => cases h; exact takeReadLine_recordGrows s
  | hsRun draw => cases h; exact hsBegin_recordGrows draw s
  | deadline => cases h; exact deliverDeadline_recordGrows s
  | reset => cases h; exact .of_env rfl

/-- The four things a step can be (R18, R161, R201): a send going on, a move of the handshake, a wait, a request. -/
theorem step_recordGrows {s t : State} (h : step s = .next t) : RecordGrows s t := by
  by_cases hi : s.tx.txStep = .idle
  · by_cases hr : ∃ pt, s.host.hs = .running pt
    · obtain ⟨pt, hr⟩ := hr
      rw [step_of_running hi hr] at h
      cases h
      exact hsStep_recordGrows _ _ pt s
    · have hf : s.Free := ⟨hi, not_exists.1 hr⟩
      cases hm : s.ports.moves with
      | nil =>
        rw [step_of_waiting hf hm] at h
        cases h
        exact .refl s
      | cons m ms =>
        rw [step_of_free hf hm] at h
        exact (serve_recordGrows h).after rfl
  · rw [step_of_sending hi] at h
    cases h
    exact (resumeSend_outcome s hi).recordGrows

/-- Settles O53: whichever of the four a step is, it only adds to the wire and to the record. -/
theorem wireOnlyGrows : Obligations.WireOnlyGrows := by
  intro s t h
  obtain ⟨lineTx, lineOps⟩ := step_recordGrows h
  exact ⟨lineTx, lineOps⟩

end Sys2Proof.Machine
end

section
/-! The encodings (30_encoding.md) against the model: which opcode bytes are reserved, the case of a pushed byte, the
bytes of a response, and the line characters. -/

namespace Sys2Proof

/-! ## The opcode map (R72, R75) -/

theorem opcodeOf_eq_none_iff (op : Byte) : opcodeOf op = none ↔ ∀ r ∈ cmdRows, ¬ r.selects op = true := by
  rw [opcodeOf, Option.map_eq_none_iff, List.find?_eq_none]

/-- A row whose mask leaves nothing free is selected by its own byte. -/
theorem selects_of_exact (o : CmdOp) (p op : Byte) :
    (CmdRow.mk o p 0xFF).selects op = true ↔ op.toNat = p.toNat := by
  have all : op &&& 0xFF = op := BitVec.and_allOnes
  rw [CmdRow.selects, all, beq_iff_eq, BitVec.toNat_inj]

theorem toNat_and_0xFE (op : Byte) : (op &&& 0xFE).toNat = 2 * (op.toNat / 2) := by
  have shifted : op &&& (0xFE : Byte) = (op >>> 1) <<< 1 := by ext i hi; interval_cases i <;> simp
  have := op.isLt
  rw [shifted, BitVec.toNat_shiftLeft, BitVec.toNat_ushiftRight, Nat.shiftLeft_eq, Nat.shiftRight_eq_div_pow]
  omega

/-- A row whose mask leaves the buffer select free is selected by the two bytes that differ in it (R73). -/
theorem selects_of_bufSel (o : CmdOp) (p op : Byte) :
    (CmdRow.mk o p 0xFE).selects op = true ↔ 2 * (op.toNat / 2) = p.toNat := by
  rw [CmdRow.selects, beq_iff_eq, ← BitVec.toNat_inj, toNat_and_0xFE]

/-- R75's list is what the rows of R72 leave over. -/
theorem reservedOpcode_iff_opcodeOf (op : Byte) : Machine.reservedOpcode op.toNat = true ↔ opcodeOf op = none := by
  have := op.isLt
  simp only [opcodeOf_eq_none_iff, cmdRows, List.forall_mem_cons, selects_of_exact, selects_of_bufSel,
    List.not_mem_nil, false_implies, implies_true, and_true, BitVec.reduceToNat, Machine.reservedOpcode,
    Bool.or_eq_true, Bool.and_eq_true, decide_eq_true_eq]
  omega

theorem decodeOperands_ne_illegalCommand (o : CmdOp) (sel : BufSel) (ps : List Byte) (op : Byte) (rest : List Byte) :
    decodeOperands o sel ps ≠ .illegalCommand op rest := by
  fun_cases decodeOperands <;> exact nofun

/-- The command port's decoder refuses a byte exactly when no row is selected, and then takes it alone (R75). -/
theorem decodeCmd_illegalCommand_iff (op : Byte) (ps : List Byte) :
    decodeCmd (op :: ps) = .illegalCommand op ps ↔ opcodeOf op = none := by
  rw [decodeCmd]
  cases opcodeOf op with
  | none => simp
  | some o => simp [decodeOperands_ne_illegalCommand]

/-! ## The case of a raw byte (R67) -/

theorem decodeRaw_unescaped_esc : decodeRaw false Config.esc = .rawEsc := rfl

theorem decodeRaw_unescaped_data {b : Byte} (h : b ≠ Config.esc) : decodeRaw false b = .rawData b := by
  simp [decodeRaw, h]

theorem decodeRaw_escaped_mark : decodeRaw true Config.markCode = .rawMark := rfl

theorem decodeRaw_escaped_esc : decodeRaw true Config.esc = .rawLitff := rfl

theorem decodeRaw_escaped_other {b : Byte} (hm : b ≠ Config.markCode) (he : b ≠ Config.esc) :
    decodeRaw true b = .rawBadesc b := by
  simp [decodeRaw, hm, he]

/-! ## Little-endian values (R74) -/

theorem bytes16_of_toNat {x0 x1 : Byte} {v : BitVec 16} (h : v.toNat = x0.toNat + 256 * x1.toNat) :
    bytes16 v = [x0, x1] := by
  have hv : v = le16 x0 x1 := BitVec.eq_of_toNat_eq (by rw [h, le16_toNat])
  rw [hv, bytes16_le16]

theorem bytes32_of_toNat {x0 x1 x2 x3 : Byte} {v : Word32}
    (h : v.toNat = x0.toNat + 256 * x1.toNat + 65536 * x2.toNat + 16777216 * x3.toNat) :
    bytes32 v = [x0, x1, x2, x3] := by
  have hv : v = le32 x0 x1 x2 x3 := BitVec.eq_of_toNat_eq (by rw [h, le32_toNat])
  rw [hv, bytes32_le32]

/-- A count that two bytes can hold is not cut (R78). -/
theorem bytes16_ofNat {x0 x1 : Byte} {n : Nat} (h : n = x0.toNat + 256 * x1.toNat) :
    bytes16 (BitVec.ofNat 16 n) = [x0, x1] := by
  have := x0.isLt
  have := x1.isLt
  exact bytes16_of_toNat (by rw [BitVec.toNat_ofNat, Nat.mod_eq_of_lt (by omega), h])

end Sys2Proof

namespace Sys2Proof.Machine

/-! ## Reserved opcodes on the command port (R75) -/

theorem takeCommand_of_illegalCommand {s : State} {op : Byte} {rest : List Byte}
    (h : decodeCmd s.ports.cmdIn = .illegalCommand op rest) :
    takeCommand s = .next ((s.withCmdIn rest).cmdReply (.refused .illegalCommand)) := by
  rw [takeCommand, h]; rfl

/-- Settles O44: the reserved bytes are those no row selects, which the decoder refuses. -/
theorem reservedOpcodesRefused : Obligations.ReservedOpcodesRefused := by
  intro op ps
  have refused : reservedOpcode op.toNat = true ↔ decodeCmd (op :: ps) = .illegalCommand op ps := by
    rw [reservedOpcode_iff_opcodeOf, decodeCmd_illegalCommand_iff]
  refine ⟨reservedOpcode_iff_opcodeOf op, refused, fun s hin hres => ?_⟩
  have reads : decodeCmd s.ports.cmdIn = .illegalCommand op ps := by rw [hin, refused.1 hres]
  exact takeCommand_of_illegalCommand reads

/-! ## The dispatch of `RX.PUSH` (R134) -/

section
variable {s : State} {b : Byte}

theorem rxPush_unescaped_esc (h : s.rx.escaped = false) : rxPush Config.esc s = ifActive s (caseEsc s) := by
  simp [rxPush, h]

theorem rxPush_unescaped_data (h : s.rx.escaped = false) (hb : b ≠ Config.esc) :
    rxPush b s = ifActive s (caseData b s) := by
  simp [rxPush, h, hb]

theorem rxPush_escaped_mark (h : s.rx.escaped = true) : rxPush Config.markCode s = ifActive s (caseMark s) := by
  simp [rxPush, h]

theorem rxPush_escaped_esc (h : s.rx.escaped = true) : rxPush Config.esc s = ifActive s (caseLitff s) := by
  have distinct : Config.esc ≠ Config.markCode := by decide
  simp [rxPush, h, distinct]

theorem rxPush_escaped_other (h : s.rx.escaped = true) (hm : b ≠ Config.markCode) (he : b ≠ Config.esc) :
    rxPush b s = ifActive s (caseBadesc b s) := by
  simp [rxPush, h, hm, he]

end

/-- Settles O31: in each of the five cases of R67 the instruction found and the dispatch are the same case. -/
theorem pushIsItsCase : Obligations.PushIsItsCase := by
  intro b s
  cases h : s.rx.escaped with
  | false =>
    by_cases hb : b = Config.esc
    · rw [hb, decodeRaw_unescaped_esc, rxPush_unescaped_esc h]; rfl
    · rw [decodeRaw_unescaped_data hb, rxPush_unescaped_data h hb]; rfl
  | true =>
    by_cases hm : b = Config.markCode
    · rw [hm, decodeRaw_escaped_mark, rxPush_escaped_mark h]; rfl
    by_cases he : b = Config.esc
    · rw [he, decodeRaw_escaped_esc, rxPush_escaped_esc h]; rfl
    · rw [decodeRaw_escaped_other hm he, rxPush_escaped_other h hm he]; rfl

/-! ## The bytes of a response (R78) -/

/-- A text's bytes after the status byte: its count, then its characters. -/
theorem text_bytes {x0 x1 : Byte} {cs : List Byte} (h : cs.length = x0.toNat + 256 * x1.toNat) :
    (Value.text cs).bytes = [x0, x1] ++ cs := by
  rw [Value.bytes, bytes16_ofNat h]

/-- Settles O16: the codes are a table; the values are the little-endian bytes of R74. -/
theorem responseBytesOfTable : Obligations.ResponseBytesOfTable := by
  refine ⟨rfl, rfl, rfl, rfl, rfl, rfl, rfl, rfl, rfl, rfl, rfl, rfl, rfl, rfl, rfl, rfl, rfl, rfl, rfl,
    fun _ _ _ h => ?u16, fun _ _ _ _ _ h => ?int32, fun _ => rfl, rfl, rfl, fun _ _ _ h => ?text⟩
  case u16 => exact congrArg (0x00 :: ·) (bytes16_of_toNat h)
  case int32 => exact congrArg (0x00 :: ·) (bytes32_of_toNat h)
  case text => exact congrArg (0x00 :: ·) (text_bytes h)

/-! ## The line characters (R63, R64) -/

theorem exec_wireMark (d : Byte) (s : State) : exec (.wireMark d) s = .next (s.emit ⟨true, d⟩) := rfl

theorem exec_wireSpace (d : Byte) (s : State) : exec (.wireSpace d) s = .next (s.emit ⟨false, d⟩) := rfl

/-- Settles O37: each row puts its one character behind those on the wire. -/
theorem wireCharacterGoesOnLine : Obligations.WireCharacterGoesOnLine :=
  fun d s => ⟨exec_wireMark d s, exec_wireSpace d s⟩

end Sys2Proof.Machine
end

section
/-! The MessageBuffer operations (40_msgbuf.md): the layouts they store and the texts they render as arithmetic, what a
checked write answers, then the eleven operations and the laws about them. -/

namespace Sys2Proof

/-! ## Operands of the commands (R71 to R74) -/

/-- Byte `k` of a little-endian number, by division (R43). -/
theorem extractLsb'_byte {n : Nat} (v : BitVec n) (k : Nat) :
    v.extractLsb' (8 * k) 8 = BitVec.ofNat 8 (v.toNat / 256 ^ k) := by
  rw [BitVec.extractLsb', Nat.shiftRight_eq_div_pow, pow_mul]
  rfl

theorem bytes32_getElem? (v : Word32) {i : Nat} (h : i < 4) :
    (bytes32 v)[i]? = some (BitVec.ofNat 8 (v.toNat / 256 ^ i)) := by
  rw [← extractLsb'_byte]
  interval_cases i <;> rfl

/-- The operands of `MB.SETI32` give the number whose little-endian bytes they are (R74). -/
theorem decodeOperands_seti32 {x0 x1 x2 x3 : Byte} {v : Word32} (sel : BufSel) (ps : List Byte)
    (h : v.toNat = x0.toNat + 256 * x1.toNat + 65536 * x2.toNat + 16777216 * x3.toNat) :
    decodeOperands .seti32 sel (x0 :: x1 :: x2 :: x3 :: ps) = .instr (.mbSeti32 sel v) ps := by
  have hv : le32 x0 x1 x2 x3 = v := BitVec.eq_of_toNat_eq (by rw [le32_toNat, h])
  rw [decodeOperands, hv]

/-- The operands of `MB.APPEND`: a count that 16 bits can hold, then so many bytes (R74). -/
theorem decodeOperands_append {bs : List Byte} (h : bs.length < 65536) (sel : BufSel) (ps : List Byte) :
    decodeOperands .append sel (bytes16 (BitVec.ofNat 16 bs.length) ++ (bs ++ ps)) = .instr (.mbAppend sel bs) ps := by
  have count : (BitVec.ofNat 16 bs.length).toNat = bs.length := by
    rw [BitVec.toNat_ofNat]
    exact Nat.mod_eq_of_lt h
  have arrived : ¬ (bs ++ ps).length < bs.length := by simp
  rw [bytes16, List.cons_append, List.cons_append, List.nil_append, decodeOperands, le16_bytes16, count,
    if_neg arrived, List.take_left, List.drop_left]

end Sys2Proof

namespace Sys2Proof.Machine

/-! ## The layouts (R69, R70, R99, R100) -/

theorem int32Of_of_length_ne {bs : List Byte} (h : bs.length ≠ 4) : int32Of bs = none := by
  unfold int32Of
  split
  · exact absurd rfl h
  · rfl

/-- The 8-bit sum of a list is its sum modulo 256. -/
theorem foldl_add_toNat (bs : List Byte) (a : Byte) :
    (bs.foldl (· + ·) a).toNat = (a.toNat + (bs.map BitVec.toNat).sum) % 256 := by
  induction bs generalizing a with
  | nil => exact (Nat.mod_eq_of_lt a.isLt).symm
  | cons b bs ih =>
    rw [List.foldl_cons, ih, BitVec.toNat_add, List.map_cons, List.sum_cons]
    omega

theorem checksum_toNat (bs : List Byte) : (checksum bs).toNat = (bs.dropLast.map BitVec.toNat).sum % 256 := by
  rw [checksum, foldl_add_toNat]
  simp

/-- One byte more: the old last byte joins the sum (R106). -/
theorem checksum_concat {bs : List Byte} {last : Byte} (h : bs.getLast? = some last) (x : Byte) :
    checksum (bs ++ [x]) = checksum bs + last := by
  obtain ⟨front, rfl⟩ := List.getLast?_eq_some_iff.1 h
  simp only [checksum, List.dropLast_concat, List.foldl_append, List.foldl_cons, List.foldl_nil]

/-- The bytes below `len - 1`, read one by one, are all bytes but the last. -/
theorem Memory.map_read_range (m : Memory) (sel : BufSel) :
    (List.range (m.len sel - 1)).map (fun i => ((m.read sel i).getD 0).toNat) =
      (m.buf sel).dropLast.map BitVec.toNat := by
  refine List.ext_getElem (by simp [Memory.len_eq]) fun i hi _ => ?_
  have inside : i < (m.buf sel).length := by
    rw [List.length_map, List.length_range, Memory.len_eq] at hi
    omega
  simp [Memory.read_eq, inside]

/-- The six bytes of a control frame, its checksum by arithmetic (R70, R101). -/
theorem controlFrame_eq (sp : Byte) :
    controlFrame sp = [0x87, 0x09, 0x03, sp, sp, BitVec.ofNat 8 (0x93 + 2 * sp.toNat)] := by
  have sum : checksum (controlBody sp ++ [0x00]) = BitVec.ofNat 8 (0x93 + 2 * sp.toNat) := by
    apply BitVec.eq_of_toNat_eq
    rw [checksum_toNat, List.dropLast_concat, BitVec.toNat_ofNat]
    show (0x87 + (0x09 + (0x03 + (sp.toNat + (sp.toNat + 0))))) % 256 = (0x93 + 2 * sp.toNat) % 256
    omega
  rw [controlFrame, sum]
  rfl

/-! ## The text form (R103) -/

/-- A digit of the text form is the one R103's table gives. -/
theorem hexChars_getElem? (d : BitVec 4) : hexChars[d.toNat]? = some (hexDigit true d) := by
  revert d; decide

/-- The two digits of a byte are those of its quotient and its remainder by 16. -/
theorem hexByte_digits (b : Byte) :
    hexChars[b.toNat / 16]? = some (hexDigit true (b.extractLsb' 4 4)) ∧
      hexChars[b.toNat % 16]? = some (hexDigit true (b.extractLsb' 0 4)) := by
  have high : (b.extractLsb' 4 4).toNat = b.toNat / 16 := by
    have := b.isLt
    rw [BitVec.extractLsb'_toNat, Nat.shiftRight_eq_div_pow]
    omega
  have low : (b.extractLsb' 0 4).toNat = b.toNat % 16 := by
    rw [BitVec.extractLsb'_toNat]
    rfl
  rw [← high, ← low]
  exact ⟨hexChars_getElem? _, hexChars_getElem? _⟩

theorem hexText_cons_cons (u : Bool) (b c : Byte) (bs : List Byte) : hexText u (b :: c :: bs) =
    hexDigit u (b.extractLsb' 4 4) :: hexDigit u (b.extractLsb' 0 4) :: 0x20 :: hexText u (c :: bs) := rfl

theorem hexText_length (u : Bool) (bs : List Byte) : (hexText u bs).length = 3 * bs.length - 1 := by
  induction bs using hexText.induct with
  | case1 => rfl
  | case2 b => rfl
  | case3 b c bs ih =>
    simp only [hexText_cons_cons, List.length_cons] at ih ⊢
    omega

/-- Byte `i` is rendered in characters `3 i` and `3 i + 1`, and a space follows unless it is the last. -/
theorem hexText_getElem? (u : Bool) {bs : List Byte} {i : Nat} {b : Byte} (h : bs[i]? = some b) :
    (hexText u bs)[3 * i]? = some (hexDigit u (b.extractLsb' 4 4)) ∧
      (hexText u bs)[3 * i + 1]? = some (hexDigit u (b.extractLsb' 0 4)) ∧
      (i + 1 < bs.length → (hexText u bs)[3 * i + 2]? = some 0x20) := by
  induction bs using hexText.induct generalizing i with
  | case1 => exact nomatch h
  | case2 x =>
    cases i with
    | zero =>
      cases h
      exact ⟨rfl, rfl, fun later => absurd later (Nat.lt_irrefl 1)⟩
    | succ i => exact nomatch h
  | case3 x y bs ih =>
    cases i with
    | zero =>
      cases h
      exact ⟨rfl, rfl, fun _ => rfl⟩
    | succ i =>
      obtain ⟨high, low, space⟩ := ih h
      exact ⟨high, low, fun later => space (Nat.lt_of_succ_lt_succ later)⟩

/-! ## Buffers -/

theorem Memory.len_le {m : Memory} (h : m.wf) (sel : BufSel) : m.len sel ≤ 256 := by
  cases sel
  · exact h.1
  · exact h.2

theorem State.setBuf_buf_self (s : State) (sel : BufSel) : s.setBuf sel (s.mem.buf sel) = s := by
  cases sel <;> rfl

/-- Two contents are the same exactly when their lengths and their bytes below the length are. -/
theorem eq_iff_length_and_getElem? (xs ys : List Byte) :
    xs = ys ↔ xs.length = ys.length ∧ ∀ i, i < xs.length → xs[i]? = ys[i]? := by
  constructor
  · rintro rfl
    exact ⟨rfl, fun _ _ => rfl⟩
  · rintro ⟨same, below⟩
    exact List.ext_getElem?' fun i hi => below i (by rwa [← same, max_self] at hi)

/-! ## What a writing operation answers (R108) -/

/-- What a checked write `w` of a buffer leaves: the refusal and nothing else while the decoder holds the buffer, its own
answer otherwise, and in both cases nothing outside that buffer and the response port. -/
structure CheckedWrite (sel : BufSel) (w : Response × State) (s t : State) : Prop where
  outside : s.KeepsOutside t
  rx : t.rx = s.rx
  other : s.KeepsBuf t (otherBuf sel)
  held : s.HeldByDecoder sel → t = s.cmdReply (.refused .bufferOwned)
  free : ¬ s.HeldByDecoder sel → t = w.2.cmdReply w.1

theorem CheckedWrite.refused {sel : BufSel} {w : Response × State} {s t : State} (k : CheckedWrite sel w s t)
    (h : s.HeldByDecoder sel) : t.mem = s.mem ∧ s.RepliesCmd t (.refused .bufferOwned) := by
  rw [k.held h]
  exact ⟨rfl, rfl⟩

section
variable {sel : BufSel} {s : State} {w : Response × State}

theorem answerCmd_of_held (h : s.HeldByDecoder sel) (w : Response × State) :
    answerCmd (ownerCheck sel s w) = .next (s.cmdReply (.refused .bufferOwned)) := by
  rw [ownerCheck_held h, answerCmd]

theorem answerCmd_of_free (h : ¬ s.HeldByDecoder sel) (w : Response × State) :
    answerCmd (ownerCheck sel s w) = .next (w.2.cmdReply w.1) := by
  rw [ownerCheck_free h, answerCmd]

theorem answerCmd_checkedWrite {bs : List Byte} (hw : w.2 = s.setBuf sel bs) :
    ∃ t, answerCmd (ownerCheck sel s w) = .next t ∧ CheckedWrite sel w s t := by
  by_cases h : s.HeldByDecoder sel
  · exact ⟨_, answerCmd_of_held h w, ⟨rfl, rfl, rfl⟩, rfl, fun _ => rfl, fun _ => rfl, absurd h⟩
  · refine ⟨_, answerCmd_of_free h w, ?_, ?_, fun i => ?_, fun held => absurd held h, fun _ => rfl⟩ <;> rw [hw]
    · exact ⟨rfl, rfl, rfl⟩
    · rfl
    · exact Memory.read_setBuf_other s.mem sel bs i

/-- A write that replaces the content (R95, R98, R101). -/
theorem CheckedWrite.replaced {t : State} {bs : List Byte} (k : CheckedWrite sel (.ok, s.setBuf sel bs) s t)
    (h : ¬ s.HeldByDecoder sel) : s.RepliesCmd t .ok ∧ t.mem.len sel = bs.length ∧ ∀ i, t.mem.read sel i = bs[i]? := by
  rw [k.free h]
  exact ⟨rfl, congrArg List.length (s.mem.buf_setBuf_same sel bs), s.mem.read_setBuf_same sel bs⟩

end

/-! ## The writing operations -/

section
variable {sel : BufSel} {bs : List Byte} {s : State}

theorem appendBytes_of_fits (h : s.mem.len sel + bs.length ≤ 256) :
    appendBytes sel bs s = (.ok, s.setBuf sel (s.mem.buf sel ++ bs)) := by
  rcases appendBytes_cases sel bs s with ⟨_, e⟩ | ⟨exceeds, _⟩
  · exact e
  · omega

theorem appendBytes_of_not_fits (h : 256 < s.mem.len sel + bs.length) :
    appendBytes sel bs s = (.fail .capacityExceeded, s) := by
  rcases appendBytes_cases sel bs s with ⟨fits, _⟩ | ⟨_, e⟩
  · omega
  · exact e

/-- An append is a new content of its buffer, the old one when it fails. -/
theorem appendBytes_setBuf (sel : BufSel) (bs : List Byte) (s : State) :
    ∃ new, (appendBytes sel bs s).2 = s.setBuf sel new := by
  rcases appendBytes_cases sel bs s with ⟨_, e⟩ | ⟨_, e⟩ <;> rw [e]
  · exact ⟨_, rfl⟩
  · exact ⟨_, (s.setBuf_buf_self sel).symm⟩

/-- The append that fits, of a buffer the decoder does not hold. -/
theorem exec_mbAppend_of_fits (free : ¬ s.HeldByDecoder sel) (fits : s.mem.len sel + bs.length ≤ 256) :
    ∃ t, exec (.mbAppend sel bs) s = .next t ∧ t.rx = s.rx ∧ t.mem.buf sel = s.mem.buf sel ++ bs := by
  refine ⟨_, answerCmd_of_free free (appendBytes sel bs s), ?_⟩
  rw [appendBytes_of_fits fits]
  exact ⟨rfl, s.mem.buf_setBuf_same sel _⟩

/-- What the append that fits leaves in its buffer: the old bytes, then the new ones (R93). -/
theorem Memory.setBuf_append (m : Memory) (sel : BufSel) (bs : List Byte) :
    (m.setBuf sel (m.buf sel ++ bs)).len sel = m.len sel + bs.length ∧
      (∀ i, i < m.len sel → (m.setBuf sel (m.buf sel ++ bs)).read sel i = m.read sel i) ∧
      (∀ i, i < bs.length → (m.setBuf sel (m.buf sel ++ bs)).read sel (m.len sel + i) = bs[i]?) := by
  refine ⟨by simp [Memory.len_eq], fun i hi => ?_, fun i _ => ?_⟩
  · rw [Memory.read_setBuf_same, List.getElem?_append_left hi, Memory.read_eq]
  · rw [Memory.read_setBuf_same, Memory.len_eq, List.getElem?_append_right (Nat.le_add_right ..),
      Nat.add_sub_cancel_left]

end

/-- Settles O1: the refused, the fitting and the failing append, each by its answer. -/
theorem appendWritesAllOrNothing : Obligations.AppendWritesAllOrNothing := by
  intro sel bs s
  obtain ⟨new, hnew⟩ := appendBytes_setBuf sel bs s
  obtain ⟨t, run, k⟩ := answerCmd_checkedWrite hnew
  refine ⟨t, run, k.outside, k.rx, k.other, k.refused, fun free fits => ?_, fun free exceeds => ?_, fun count ps => ?_⟩
  · rw [k.free free, appendBytes_of_fits fits]
    exact ⟨rfl, s.mem.setBuf_append sel bs⟩
  · rw [k.free free, appendBytes_of_not_fits exceeds]
    exact ⟨rfl, rfl⟩
  · rw [decodeCmd_opByte .append 0x10 rfl rfl rfl rfl, decodeOperands_append count]

/-- Settles O2: O1 for a list of one byte. -/
theorem appendbWritesOneByte : Obligations.AppendbWritesOneByte := by
  intro sel b s
  obtain ⟨t, run, outside, rx, other, refused, fits, exceeds, _⟩ := appendWritesAllOrNothing sel [b] s
  refine ⟨rfl, t, run, outside, rx, other, refused, fun free room => ?_,
    fun free full => exceeds free (Nat.lt_succ_of_le full), fun ps => ?_⟩
  · obtain ⟨ok, len, old, new⟩ := fits free room
    exact ⟨ok, len, new 0 Nat.one_pos, old⟩
  · exact decodeCmd_opByte .appendb 0x12 rfl rfl rfl rfl sel (b :: ps)

/-- Settles O14: a full buffer has room for the empty append only. -/
theorem fullBufferTakesNothing : Obligations.FullBufferTakesNothing := by
  intro sel bs s free full
  refine ⟨_, answerCmd_of_free free (appendBytes sel bs s), ?_⟩
  by_cases hbs : bs = []
  · rw [if_pos hbs, appendBytes_of_fits (by simp [hbs, full]), hbs, List.append_nil, State.setBuf_buf_self]
    exact ⟨rfl, rfl⟩
  · have := List.length_pos_iff.2 hbs
    rw [if_neg hbs, appendBytes_of_not_fits (by omega)]
    exact ⟨rfl, rfl⟩

/-- Settles O3: the new content is the empty list. -/
theorem resetEmptiesBuffer : Obligations.ResetEmptiesBuffer := by
  intro sel s
  obtain ⟨t, run, k⟩ := answerCmd_checkedWrite (w := (.ok, s.setBuf sel [])) rfl
  exact ⟨t, run, k.outside, k.rx, k.other, k.refused, k.replaced, decodeCmd_opByte .reset 0x14 rfl rfl rfl rfl sel⟩

/-- Settles O6: the new content is the four bytes of the value. -/
theorem setInt32StoresLittleEndian : Obligations.SetInt32StoresLittleEndian := by
  intro sel v s
  obtain ⟨t, run, k⟩ := answerCmd_checkedWrite (w := (.ok, s.setBuf sel (bytes32 v))) rfl
  refine ⟨t, run, k.outside, k.rx, k.other, k.refused, fun free => ?_, fun _ _ _ _ ps h => ?_⟩
  · obtain ⟨ok, len, read⟩ := k.replaced free
    exact ⟨ok, len, fun i hi => (read i).trans (bytes32_getElem? v hi)⟩
  · rw [decodeCmd_opByte .seti32 0x1A rfl rfl rfl rfl, decodeOperands_seti32 sel ps h]

/-- Settles O9: the new content is the control frame, byte by byte. -/
theorem setControlWritesFrame : Obligations.SetControlWritesFrame := by
  intro sel sp s
  obtain ⟨t, run, k⟩ := answerCmd_checkedWrite (w := (.ok, s.setBuf sel (controlFrame sp))) rfl
  refine ⟨t, run, k.outside, k.rx, k.other, k.refused, fun free => ?_, fun ps => ?_⟩
  · rw [controlFrame_eq] at k
    obtain ⟨ok, len, read⟩ := k.replaced free
    exact ⟨ok, len, read 0, read 1, read 2, read 3, read 4, read 5⟩
  · exact decodeCmd_opByte .setctl 0x20 rfl rfl rfl rfl sel (sp :: ps)

/-! ## The reading operations: the next state is `s` with one response more -/

/-- Settles O4: a length of at most 256 fits the 16 bits of the response. -/
theorem lenReportsLength : Obligations.LenReportsLength := by
  intro sel s
  refine ⟨_, rfl, ⟨rfl, rfl, rfl⟩, rfl, rfl, ⟨BitVec.ofNat 16 (s.mem.len sel), _, _, rfl, fun wf => ?_, rfl, ?_⟩,
    decodeCmd_opByte .len 0x16 rfl rfl rfl rfl sel⟩
  · have := Memory.len_le wf sel
    rw [BitVec.toNat_ofNat]
    exact Nat.mod_eq_of_lt (by omega)
  · rw [← le16_toNat, le16_bytes16]

/-- Settles O5: the answer does not look at the state. -/
theorem capReportsCapacity : Obligations.CapReportsCapacity := fun sel s =>
  ⟨s.cmdReply (.val (.u16 256)), rfl, ⟨rfl, rfl, rfl⟩, rfl, rfl, rfl, decodeCmd_opByte .cap 0x18 rfl rfl rfl rfl sel⟩

/-- `MB.GETI32` answers and writes no state (R99). -/
theorem exec_mbGeti32 (sel : BufSel) (s : State) :
    exec (.mbGeti32 sel) s = .next (s.cmdReply (getInt32 sel s).1) := by
  show answerCmd (getInt32 sel s) = _
  rcases getInt32_cases sel s with ⟨_, _, e⟩ | e <;> rw [e, answerCmd]

theorem getInt32_of_length_ne {sel : BufSel} {s : State} (h : s.mem.len sel ≠ 4) :
    getInt32 sel s = (.fail .wrongLength, s) := by
  rw [getInt32, int32Of_of_length_ne h]

/-- A buffer of length 4 holds the four bytes that are read from it. -/
theorem Memory.buf_of_reads {m : Memory} {sel : BufSel} {x0 x1 x2 x3 : Byte} (len : m.len sel = 4)
    (h0 : m.read sel 0 = some x0) (h1 : m.read sel 1 = some x1) (h2 : m.read sel 2 = some x2)
    (h3 : m.read sel 3 = some x3) : m.buf sel = [x0, x1, x2, x3] := by
  refine (eq_iff_length_and_getElem? _ _).2 ⟨len, fun i hi => ?_⟩
  rw [← Memory.len_eq, len] at hi
  interval_cases i
  · exact h0
  · exact h1
  · exact h2
  · exact h3

/-- The sign of 32 bits by the top one (R99, 00_scope.md section 5). -/
theorem toInt_of_topBit (v : Word32) :
    v.toInt = if v.toNat < 2 ^ 31 then (v.toNat : Int) else (v.toNat : Int) - 2 ^ 32 := by
  rw [BitVec.toInt_eq_toNat_cond]
  split <;> split <;> omega

/-- Settles O7: the assembly is defined for four bytes, and its value is the sum of R74. -/
theorem getInt32AssemblesSigned : Obligations.GetInt32AssemblesSigned := by
  intro sel s
  refine ⟨_, exec_mbGeti32 sel s, ⟨rfl, rfl, rfl⟩, rfl, rfl, fun ne => ?_, fun x0 x1 x2 x3 len h0 h1 h2 h3 => ?_,
    decodeCmd_opByte .geti32 0x1C rfl rfl rfl rfl sel⟩
  · rw [getInt32_of_length_ne ne]
    rfl
  · have value : getInt32 sel s = (.val (.int32 (le32 x0 x1 x2 x3)), s) := by
      rw [getInt32, Memory.buf_of_reads len h0 h1 h2 h3, int32Of]
    rw [value]
    exact ⟨_, rfl, le32_toNat x0 x1 x2 x3, toInt_of_topBit _⟩

/-- Settles O12: the bytes stored are those the assembly reads back. -/
theorem setThenGetInt32 : Obligations.SetThenGetInt32 := by
  intro sel v s free
  refine ⟨_, _, answerCmd_of_free free (.ok, s.setBuf sel (bytes32 v)), exec_mbGeti32 sel _, rfl, ?_⟩
  rw [getInt32_of_bytes32 (v := v) (s.mem.buf_setBuf_same sel (bytes32 v))]
  rfl

theorem exec_mbCksum (sel : BufSel) (s : State) :
    exec (.mbCksum sel) s = .next (s.cmdReply (.val (.byte (checksum (s.mem.buf sel))))) := rfl

/-- Settles O8: the bytes read below the last are those the checksum adds. -/
theorem checksumSumsAllButLast : Obligations.ChecksumSumsAllButLast := by
  intro sel s
  refine ⟨_, exec_mbCksum sel s, ⟨rfl, rfl, rfl⟩, rfl, rfl, ⟨_, rfl, ?_⟩, decodeCmd_opByte .cksum 0x1E rfl rfl rfl rfl sel⟩
  rw [checksum_toNat, Memory.map_read_range]

theorem held_congr {s t : State} (h : t.rx = s.rx) (sel : BufSel) : t.HeldByDecoder sel ↔ s.HeldByDecoder sel := by
  rw [State.HeldByDecoder, State.HeldByDecoder, h]

theorem execAll_pair {i j : Instr} {s t u : State} (first : exec i s = .next t) (second : exec j t = .next u) :
    execAll [i, j] s = .next u := by
  simp only [execAll, first, second]

/-- Reset and append of at most 256 bytes make them the content of a buffer the decoder does not hold (R80). -/
theorem execAll_mbSet {sel : BufSel} {s : State} (free : ¬ s.HeldByDecoder sel) {bs : List Byte}
    (h : bs.length ≤ 256) : ∃ t, execAll (mbSet sel bs) s = .next t ∧ t.mem.buf sel = bs := by
  obtain ⟨t, emptied, k⟩ := answerCmd_checkedWrite (w := (.ok, s.setBuf sel [])) rfl
  obtain ⟨_, len, _⟩ := k.replaced free
  have empty : t.mem.buf sel = [] := List.length_eq_zero_iff.1 len
  obtain ⟨u, appended, _, content⟩ :=
    exec_mbAppend_of_fits (mt (held_congr k.rx sel).1 free) (bs := bs) (by rw [len, List.length_nil]; omega)
  exact ⟨u, execAll_pair emptied appended, by rw [content, empty, List.nil_append]⟩

/-- Settles O13: the checksum of the longer content, then the pseudo-operation that rebuilds the old one. -/
theorem checksumOfLongerBuffer : Obligations.ChecksumOfLongerBuffer := by
  intro sel x last s free room hlast
  obtain ⟨t, appended, rx, content⟩ := exec_mbAppend_of_fits free (bs := [x]) room
  have longer : checksum (t.mem.buf sel) = checksum (s.mem.buf sel) + last := by
    rw [content, checksum_concat (List.getLast?_eq_getElem?.trans hlast)]
  obtain ⟨w, rebuilt, old⟩ := execAll_mbSet (mt (held_congr rx sel).1 free) (bs := s.mem.buf sel) room.le
  refine ⟨_, t, _, _, w, exec_mbCksum sel s, rfl, appended, exec_mbCksum sel t, ?_, rebuilt, old⟩
  rw [longer]
  rfl

/-- Settles O10: the answer decides the equality of the two contents. -/
theorem eqComparesContents : Obligations.EqComparesContents := by
  intro s
  refine ⟨_, decide (s.mem.b0 = s.mem.b1), rfl, ⟨rfl, rfl, rfl⟩, rfl, rfl, rfl, ?_, fun _ => rfl⟩
  rw [decide_eq_true_iff]
  exact eq_iff_length_and_getElem? s.mem.b0 s.mem.b1

/-- Settles O11: the text's length, and its characters position by position. -/
theorem hexRendersTwoDigits : Obligations.HexRendersTwoDigits := by
  intro sel s
  refine ⟨_, hexText true (s.mem.buf sel), rfl, ⟨rfl, rfl, rfl⟩, rfl, rfl, rfl, hexText_length true _, fun i b h => ?_,
    decodeCmd_opByte .hex 0x24 rfl rfl rfl rfl sel⟩
  obtain ⟨high, low, space⟩ := hexText_getElem? true h
  obtain ⟨highDigit, lowDigit⟩ := hexByte_digits b
  exact ⟨high.trans highDigit.symm, low.trans lowDigit.symm, space⟩

/-! ## Who is answered `Refused(BufferOwned)` (R108) -/

section
variable {s t : State}

/-- The response port tells the response. -/
theorem repliesCmd_cmdReply_iff (h : t.ports = s.ports) (r q : Response) : s.RepliesCmd (t.cmdReply r) q ↔ r = q := by
  simp [State.RepliesCmd, State.cmdReply, h]

theorem not_repliesCmd_of_cmdOut (h : t.ports.cmdOut = s.ports.cmdOut) (r : Response) : ¬ s.RepliesCmd t r := by
  intro replies
  have one : s.ports.cmdOut = s.ports.cmdOut ++ [r] := h.symm.trans (congrArg Ports.cmdOut replies)
  simp at one

theorem answerCmd_response {w : Response × State} {r : Response} (hw : w.2.ports = s.ports)
    (run : answerCmd w = .next t) (replies : s.RepliesCmd t r) : w.1 = r := by
  cases run
  exact (repliesCmd_cmdReply_iff hw _ _).1 replies

/-- A push is answered on the raw-byte port. -/
theorem answerRaw_not_repliesCmd {w : Response × State} (hw : Keeps s w.2) (run : answerRaw w = .next t)
    (r : Response) : ¬ s.RepliesCmd t r := by
  cases run
  have same : (w.2.rawReply w.1).ports.cmdOut = s.ports.cmdOut := by
    rw [State.rawReply_cmdOut, hw.ports]
  exact not_repliesCmd_of_cmdOut same r

/-- A checked write that has no such answer of its own is refused by the check only. -/
theorem held_of_bufferOwned {sel : BufSel} {w : Response × State} (hw : w.2.ports = s.ports)
    (own : w.1 ≠ .refused .bufferOwned) (run : answerCmd (ownerCheck sel s w) = .next t)
    (replies : s.RepliesCmd t (.refused .bufferOwned)) : s.HeldByDecoder sel := by
  by_contra free
  rw [ownerCheck_free free] at run
  exact own (answerCmd_response hw run replies)

theorem held_of_replace_bufferOwned {sel : BufSel} {bs : List Byte}
    (run : answerCmd (ownerCheck sel s (.ok, s.setBuf sel bs)) = .next t)
    (replies : s.RepliesCmd t (.refused .bufferOwned)) : s.HeldByDecoder sel :=
  held_of_bufferOwned (w := (.ok, s.setBuf sel bs)) (s.setBuf_ports sel bs) nofun run replies

theorem held_of_append_bufferOwned {sel : BufSel} {bs : List Byte}
    (run : answerCmd (ownerCheck sel s (appendBytes sel bs s)) = .next t)
    (replies : s.RepliesCmd t (.refused .bufferOwned)) : s.HeldByDecoder sel := by
  rcases appendBytes_cases sel bs s with ⟨_, e⟩ | ⟨_, e⟩ <;> rw [e] at run
  · exact held_of_replace_bufferOwned run replies
  · exact held_of_bufferOwned (w := (.fail .capacityExceeded, s)) rfl nofun run replies

end

theorem getInt32_response (sel : BufSel) (s : State) : (getInt32 sel s).1 ≠ .refused .bufferOwned := by
  rcases getInt32_cases sel s with ⟨_, _, e⟩ | e <;> rw [e] <;> exact nofun

theorem initDecoder_response (len : BitVec 16) (s : State) : (initDecoder len s).1 ≠ .refused .bufferOwned := by
  unfold initDecoder
  split <;> exact nofun

theorem CutBy.ports_eq {s t : State} (h : CutBy s t) : t.ports = s.ports := by
  cases h with
  | reset _ ports => exact ports
  | deadline _ _ _ ports => exact ports

/-- A send in progress is never refused, and returns no response when it is cut off (R187). -/
theorem SendOutcome.not_bufferOwned {s : State} {e : SendEnd} (h : SendOutcome s e) :
    ¬ s.RepliesCmd e.state (.refused .bufferOwned) := by
  cases h with
  | finished grows _ resp =>
    rw [SendEnd.state, repliesCmd_cmdReply_iff grows.ports]
    rcases resp with rfl | rfl | rfl <;> exact nofun
  | abandoned grows cut =>
    exact not_repliesCmd_of_cmdOut (congrArg Ports.cmdOut (cut.ports_eq.trans grows.ports)) _

/-- A send is refused only for an empty buffer (R124). -/
theorem sendFrame_not_bufferOwned (sel : BufSel) (s : State) :
    ¬ s.RepliesCmd (sendFrame sel s).state (.refused .bufferOwned) := by
  rcases sendFrame_cases sel s with ⟨_, e⟩ | ⟨_, outcome⟩
  · rw [e, SendEnd.state, repliesCmd_cmdReply_iff rfl]
    exact nofun
  · exact outcome.not_bufferOwned

/-- Settles O15: the check refuses the five writers, and no other operation has this answer. -/
theorem ownedBufferWritesRefused : Obligations.OwnedBufferWritesRefused := by
  refine fun s => ⟨fun sel i held writer => ?_, fun i t run replies => ?_⟩
  · rcases writer with ⟨bs, rfl⟩ | ⟨b, rfl⟩ | rfl | ⟨v, rfl⟩ | ⟨sp, rfl⟩ <;> exact answerCmd_of_held held _
  cases i with
  | mbAppend sel bs =>
    obtain ⟨rfl, active⟩ := held_of_append_bufferOwned run replies
    exact ⟨active, .inl ⟨bs, rfl⟩⟩
  | mbAppendb sel b =>
    obtain ⟨rfl, active⟩ := held_of_append_bufferOwned run replies
    exact ⟨active, .inr (.inl ⟨b, rfl⟩)⟩
  | mbReset sel =>
    obtain ⟨rfl, active⟩ := held_of_replace_bufferOwned run replies
    exact ⟨active, .inr (.inr (.inl rfl))⟩
  | mbSeti32 sel v =>
    obtain ⟨rfl, active⟩ := held_of_replace_bufferOwned run replies
    exact ⟨active, .inr (.inr (.inr (.inl ⟨v, rfl⟩)))⟩
  | mbSetctl sel sp =>
    obtain ⟨rfl, active⟩ := held_of_replace_bufferOwned run replies
    exact ⟨active, .inr (.inr (.inr (.inr ⟨sp, rfl⟩)))⟩
  | mbLen sel | mbCap sel | mbCksum sel | mbEq | mbHex sel | rxDrop => exact nomatch answerCmd_response rfl run replies
  | mbGeti32 sel => exact absurd (answerCmd_response (getInt32_keeps sel s).ports run replies) (getInt32_response sel s)
  | rxInit len => exact absurd (answerCmd_response (initDecoder_keeps len s).ports run replies) (initDecoder_response len s)
  | txSend sel =>
    cases run
    exact absurd replies (sendFrame_not_bufferOwned sel s)
  | rawEsc => exact absurd replies (answerRaw_not_repliesCmd (ifActive_keeps s _ (setEscaped_keeps s true)) run _)
  | rawData b => exact absurd replies (answerRaw_not_repliesCmd (ifActive_keeps s _ (payload_keeps b s)) run _)
  | rawMark => exact absurd replies (answerRaw_not_repliesCmd (ifActive_keeps s _ (caseMark_keeps s)) run _)
  | rawLitff => exact absurd replies (answerRaw_not_repliesCmd (ifActive_keeps s _ (caseLitff_keeps s)) run _)
  | rawBadesc b =>
    exact absurd replies (answerRaw_not_repliesCmd (ifActive_keeps s _ (raiseProtocol_keeps .badEscape s)) run _)
  | wireMark d | wireSpace d =>
    cases run
    exact absurd replies (not_repliesCmd_of_cmdOut rfl _)

end Sys2Proof.Machine
end

section
/-! The FrameEncoder (41_encoder.md): the six steps of a `TX.SEND` as they go when nothing falls between them, where it
ends when one of them fails, and what it can leave whatever the environment answers. -/

namespace Sys2Proof.Machine

/-! ## A send on its way -/

/-- `TX.SEND sel`, begun in `s`, on its way: at step `pos` in parity mode `m`, with `chars` put on the wire, `ops`
recorded, and `as` the environment's answers still to come. -/
def State.duringSend (s : State) (sel : BufSel) (pos : TxStep) (m : PMode) (chars : List LineChar) (ops : List LineOp)
    (as : List LineAnswer) : State :=
  { s with
    tx := { pmode := m, txStep := pos, txSel := sel }
    env := { s.env with
      lineTx := s.env.lineTx ++ chars
      lineOps := s.env.lineOps ++ ops
      answers := as } }

section
variable {s : State} {sel : BufSel} {pos : TxStep} {m : PMode} {chars : List LineChar} {ops : List LineOp}
  {as : List LineAnswer} {d : Byte} {ds : List Byte} {f : Bool} {c : Int} {w : Nat}

@[simp] theorem duringSend_sending : (s.duringSend sel pos m chars ops as).sending = s.mem.buf sel := rfl

@[simp] theorem duringSend_setPmode (m' : PMode) :
    (s.duringSend sel pos m chars ops as).setPmode m' = s.duringSend sel pos m' chars ops as := rfl

@[simp] theorem duringSend_logOp (op : LineOp) :
    (s.duringSend sel pos m chars ops as).logOp op = s.duringSend sel pos m chars (ops ++ [op]) as := by
  simp [State.duringSend, State.logOp]

@[simp] theorem endSend_duringSend (r : Response) :
    endSend r (s.duringSend sel pos m chars ops as) = .finished r (s.duringSend sel .idle m chars ops as) := rfl

@[simp] theorem raiseIo_duringSend (cause : IoCause) : raiseIo cause (s.duringSend sel pos m chars ops as) =
    .finished (.err (.io cause)) (s.duringSend sel .idle m chars ops as) := rfl

@[simp] theorem lineDelay_duringSend : lineDelay (s.duringSend sel pos m chars ops as) =
    s.duringSend sel pos m chars (ops ++ [.delay]) as :=
  duringSend_logOp .delay

@[simp] theorem lineSetParityMark_duringSend : lineSetParityMark (quietAnswer f c w)
    (s.duringSend sel pos m chars ops as) =
      (!f, s.duringSend sel pos (if f then .unknown else .mark) chars (ops ++ [.setParityMark !f]) as) := by
  rw [lineSetParityMark, duringSend_setPmode, duringSend_logOp]
  rfl

@[simp] theorem lineSetParitySpace_duringSend : lineSetParitySpace (quietAnswer f c w)
    (s.duringSend sel pos m chars ops as) =
      (!f, s.duringSend sel pos (if f then .unknown else .space) chars (ops ++ [.setParitySpace !f]) as) := by
  rw [lineSetParitySpace, duringSend_setPmode, duringSend_logOp]
  rfl

@[simp] theorem writeReport_quietAnswer : writeReport (quietAnswer f c w) = if f then none else some c := rfl

/-- A write in a mode whose characters have parity `p` (`emitAll_mark`, `emitAll_space`). -/
theorem lineWriteBytes_duringSend {p : Bool}
    (hemit : ∀ ds (t : State), t.tx.pmode = m →
      emitAll ds t = { t with env := { t.env with lineTx := t.env.lineTx ++ ds.map (fun x => ⟨p, x⟩) } })
    (bs : List Byte) (a : LineAnswer) :
    lineWriteBytes bs a (s.duringSend sel pos m chars ops as) =
      (writeReport a, s.duringSend sel pos m (chars ++ (bs.take (onWire a bs.length)).map (fun x => ⟨p, x⟩))
        (ops ++ [.writeBytes bs (writeReport a)]) as) := by
  rw [lineWriteBytes, hemit _ _ rfl]
  simp [State.duringSend, State.logOp]

/-- An interaction before which nothing falls only moves the send to its next step. -/
theorem sendStep_duringSend (pos' : TxStep) (k : LineAnswer → State → SendEnd) :
    sendStep pos' (s.duringSend sel pos m chars ops (quietAnswer f c w :: as)) k =
      k (quietAnswer f c w) (s.duringSend sel pos' m chars ops as) := by
  rw [sendStep_of_quiet pos' k rfl rfl]
  simp [State.duringSend, quietAnswer]

/-- A buffer that holds something is sent from step 1 on (R116). -/
theorem sendFrame_of_cons (hbuf : s.mem.buf sel = d :: ds) :
    sendFrame sel s = sendStep1 (s.duringSend sel s.tx.txStep s.tx.pmode [] [] s.env.answers) := by
  simp [sendFrame, hbuf, State.duringSend]

/-! ## The six steps (R117 to R122) -/

theorem sendStep1_ok : sendStep1 (s.duringSend sel pos m chars ops (quietAnswer false c w :: as)) =
    sendStep2 (s.duringSend sel .step1 .mark chars (ops ++ [.setParityMark true]) as) := by
  simp [sendStep1, sendStep_duringSend]

theorem sendStep1_fails : sendStep1 (s.duringSend sel pos m chars ops (quietAnswer true c w :: as)) =
    .finished (.err (.io .configure)) (s.duringSend sel .idle .unknown chars (ops ++ [.setParityMark false]) as) := by
  simp [sendStep1, sendStep_duringSend]

/-- Step 2 once the write has been performed: what is left is the test of its report (R118, R49). -/
theorem sendStep2_written (hbuf : s.mem.buf sel = d :: ds) :
    sendStep2 (s.duringSend sel pos .mark chars ops (quietAnswer f c w :: as)) =
      let t := s.duringSend sel .step2 .mark (chars ++ List.take (onWire (quietAnswer f c w) 1) [⟨true, d⟩])
        (ops ++ [.writeBytes [d] (if f then none else some c)]) as
      if f = true ∨ c < 1 then raiseIo .write t else sendStep3 t := by
  simp only [sendStep2, sendStep_duringSend, lineWriteBytes_duringSend emitAll_mark, duringSend_sending, hbuf,
    writeReport_quietAnswer, List.map_take]
  cases f <;> simp

theorem sendStep3_ok : sendStep3 (s.duringSend sel pos m chars ops (quietAnswer f c w :: as)) =
    sendStep4 (s.duringSend sel .step3 m chars (ops ++ [.delay]) as) := by
  simp [sendStep3, sendStep_duringSend]

theorem sendStep4_ok : sendStep4 (s.duringSend sel pos m chars ops (quietAnswer false c w :: as)) =
    sendStep5 (s.duringSend sel .step4 .space chars (ops ++ [.setParitySpace true]) as) := by
  simp [sendStep4, sendStep_duringSend]

theorem sendStep4_fails : sendStep4 (s.duringSend sel pos m chars ops (quietAnswer true c w :: as)) =
    .finished (.err (.io .configure)) (s.duringSend sel .idle .unknown chars (ops ++ [.setParitySpace false]) as) := by
  simp [sendStep4, sendStep_duringSend]

/-- Step 5 has nothing to do for a buffer of one byte (R121). -/
theorem sendStep5_of_single (hbuf : s.mem.buf sel = [d]) :
    sendStep5 (s.duringSend sel pos m chars ops as) = sendStep6 (s.duringSend sel pos m chars ops as) := by
  simp [sendStep5, hbuf]

/-- Step 5 once the write has been performed: what is left is the test of its report (R121, R49). -/
theorem sendStep5_written (hbuf : s.mem.buf sel = d :: ds) (hne : ds ≠ []) :
    sendStep5 (s.duringSend sel pos .space chars ops (quietAnswer f c w :: as)) =
      let t := s.duringSend sel .step5 .space
        (chars ++ (ds.take (onWire (quietAnswer f c w) ds.length)).map (fun x => ⟨false, x⟩))
        (ops ++ [.writeBytes ds (if f then none else some c)]) as
      if f = true ∨ c ≠ (ds.length : Int) then raiseIo .write t else sendStep6 t := by
  have more : 1 < (d :: ds).length := by
    simpa using List.length_pos_iff.2 hne
  simp only [sendStep5, sendStep_duringSend, lineWriteBytes_duringSend emitAll_space, duringSend_sending, hbuf,
    writeReport_quietAnswer, List.drop_succ_cons, List.drop_zero, if_pos more]
  cases f
  · by_cases hc : c = (ds.length : Int) <;> simp [hc]
  · simp

theorem sendStep6_ok : sendStep6 (s.duringSend sel pos m chars ops (quietAnswer f c w :: as)) =
    .finished .ok (s.duringSend sel .idle m chars (ops ++ [.delay]) as) := by
  simp [sendStep6, sendStep_duringSend]

/-! ## The steps together -/

/-- Steps 1 to 3: the first byte is written with mark parity, with a count of at least 1 (R117 to R119, D14). -/
theorem sendFrame_marked (hbuf : s.mem.buf sel = d :: ds) (hc : 1 ≤ c)
    (ha : s.env.answers = quiet :: quietAnswer false c w :: quiet :: as) :
    sendFrame sel s = sendStep4 (s.duringSend sel .step3 .mark
      (List.take (onWire (quietAnswer false c w) 1) [⟨true, d⟩])
      [.setParityMark true, .writeBytes [d] (some c), .delay] as) := by
  have enough : ¬ (false = true ∨ c < 1) := by simpa using hc
  rw [sendFrame_of_cons hbuf, ha, quiet, sendStep1_ok, sendStep2_written hbuf]
  dsimp only
  rw [if_neg enough, sendStep3_ok]
  rfl

/-- Steps 4 to 6: the rest is written with space parity, in one write if there is any (R120 to R122). -/
theorem sendStep4_delivers (hbuf : s.mem.buf sel = d :: ds) :
    sendStep4 (s.duringSend sel pos m chars ops
      (quiet :: ((if ds = [] then [] else [quietAnswer false ds.length 0]) ++ quiet :: as))) =
    .finished .ok (s.duringSend sel .idle .space (chars ++ ds.map (fun x => ⟨false, x⟩))
      (ops ++ [.setParitySpace true] ++ (if ds = [] then [] else [.writeBytes ds (some (ds.length : Int))]) ++ [.delay])
      as) := by
  rw [quiet, sendStep4_ok]
  by_cases hne : ds = []
  · subst hne
    rw [sendStep5_of_single hbuf]
    simp [sendStep6_ok]
  · have all : onWire (quietAnswer false ds.length 0) ds.length = ds.length :=
      onWire_of_count _ _ rfl (Int.natCast_nonneg _) le_rfl
    simp [hne, sendStep5_written hbuf hne, sendStep6_ok, all]

/-- A reported count in range is the number of characters on the wire (R49). -/
theorem onWire_quietAnswer (n : Nat) (h0 : 0 ≤ c) (hn : c ≤ (n : Int)) :
    (onWire (quietAnswer false c w) n : Int) = c := by
  rw [onWire_of_count _ _ rfl h0 hn]
  exact Int.toNat_of_nonneg h0

/-- The whole send: only the count of the first write is free (R126, D14). -/
theorem sendFrame_delivers (hbuf : s.mem.buf sel = d :: ds) (hc : 1 ≤ c)
    (ha : s.env.answers = [quiet, quietAnswer false c w, quiet, quiet] ++
      (if ds = [] then [] else [quietAnswer false ds.length 0]) ++ quiet :: as) :
    sendFrame sel s = .finished .ok (s.duringSend sel .idle .space
      (List.take (onWire (quietAnswer false c w) 1) [⟨true, d⟩] ++ ds.map (fun x => ⟨false, x⟩))
      ([.setParityMark true, .writeBytes [d] (some c), .delay, .setParitySpace true] ++
        (if ds = [] then [] else [.writeBytes ds (some (ds.length : Int))]) ++ [.delay]) as) := by
  rw [List.append_assoc] at ha
  rw [sendFrame_marked hbuf hc ha]
  exact sendStep4_delivers hbuf

/-- The answers to a frame of `ds.length + 1` bytes, by its bytes after the first. -/
theorem favourable_cons : favourable (d :: ds).length ++ as = [quiet, quietAnswer false 1 0, quiet, quiet] ++
    (if ds = [] then [] else [quietAnswer false ds.length 0]) ++ quiet :: as := by
  cases ds <;> simp [favourable, quiet]

/-- A send that returns a response, as the meaning of its command. -/
theorem exec_txSend_of_finished {r : Response} {t : State} (h : sendFrame sel s = .finished r t) :
    exec (.txSend sel) s = .next (t.cmdReply r) := by
  rw [exec, execTxSend, h, SendEnd.state]

end

/-! ## Whatever the environment answers (R127, R130, R186) -/

section
variable {s t : State} {e : SendEnd}

theorem CutBy.txStep_idle (h : CutBy s t) : t.tx.txStep = .idle := by
  cases h with
  | reset block =>
    obtain ⟨_, _, tx⟩ := (State.reset.block_eq_iff t).1 block
    rw [tx]
    rfl
  | deadline _ _ tx => rw [tx]

theorem CutBy.keeps_or_resets (h : CutBy s t) : (t.mem = s.mem ∧ t.rx = s.rx) ∨ t.block = State.reset.block := by
  cases h with
  | reset block => exact .inr block
  | deadline mem rx => exact .inl ⟨mem, rx⟩

theorem SendOutcome.txStep_idle (h : SendOutcome s e) : e.state.tx.txStep = .idle := by
  cases h with
  | finished _ idle _ => exact idle
  | abandoned _ cut => exact cut.txStep_idle

theorem SendOutcome.keeps_or_resets (h : SendOutcome s e) :
    (e.state.mem = s.mem ∧ e.state.rx = s.rx) ∨ e.state.block = State.reset.block := by
  cases h with
  | finished grows _ _ => exact .inl ⟨grows.mem, grows.rx⟩
  | abandoned grows cut => exact cut.keeps_or_resets.imp_left fun ⟨mem, rx⟩ => ⟨mem.trans grows.mem, rx.trans grows.rx⟩

/-- A send in progress returns one of three responses, or, cut off, none (log 22). -/
theorem SendOutcome.replies (h : SendOutcome s e) : e.state.ports = s.ports ∨
    ∃ r, (r = .ok ∨ r = .err (.io .write) ∨ r = .err (.io .configure)) ∧ s.RepliesCmd e.state r := by
  cases h with
  | finished grows _ resp => exact .inr ⟨_, resp, (repliesCmd_cmdReply_iff grows.ports _ _).2 rfl⟩
  | abandoned grows cut => exact .inl (cut.ports_eq.trans grows.ports)

end

/-! ## The statements -/

/-- Settles O17: the send with the count of its first write free; a favourable environment answers it with 1. -/
theorem sendPutsFrameOnWire : Obligations.SendPutsFrameOnWire := by
  refine ⟨fun sel d ds rest s hbuf ha => ?_, fun sel d ds c w rest s hbuf hc ha => ?_⟩
  · rw [favourable_cons] at ha
    exact ⟨_, exec_txSend_of_finished (sendFrame_delivers hbuf le_rfl ha), rfl, rfl, rfl, rfl, rfl, rfl, rfl⟩
  · have one : c = 1 → onWire (quietAnswer false c w) 1 = 1 := by
      rintro rfl
      exact Int.ofNat.inj (onWire_quietAnswer 1 (by decide) le_rfl)
    exact ⟨_, onWire (quietAnswer false c w) 1, exec_txSend_of_finished (sendFrame_delivers hbuf hc ha), rfl, rfl, rfl,
      rfl, rfl, rfl, onWire_le _ 1, one, rfl⟩

/-- Settles O18. -/
theorem sendEmptyRefused : Obligations.SendEmptyRefused := by
  intro sel s hlen
  have empty : s.mem.buf sel = [] := List.length_eq_zero_iff.1 hlen
  exact exec_txSend_of_finished (by rw [sendFrame, empty])

/-- Settles O19: step 1, then the failing end of step 2. -/
theorem sendFirstWriteFails : Obligations.SendFirstWriteFails := by
  intro sel d ds f c w rest s hbuf ha hfail
  have run : sendFrame sel s = .finished (.err (.io .write)) (s.duringSend sel .idle .mark
      (List.take (onWire (quietAnswer f c w) 1) [⟨true, d⟩])
      [.setParityMark true, .writeBytes [d] (if f then none else some c)] rest) := by
    rw [sendFrame_of_cons hbuf, ha, quiet, sendStep1_ok, sendStep2_written hbuf]
    dsimp only
    rw [if_pos hfail]
    rfl
  have none_sent : f = false → c = 0 → onWire (quietAnswer f c w) 1 = 0 := by
    rintro rfl rfl
    exact Int.ofNat.inj (onWire_quietAnswer 1 le_rfl (by decide))
  exact ⟨_, _, exec_txSend_of_finished run, rfl, rfl, rfl, rfl, rfl, rfl, onWire_le _ 1, none_sent, rfl⟩

/-- Settles O20: steps 1 to 4, then the failing end of step 5. -/
theorem sendSecondWriteFails : Obligations.SendSecondWriteFails := by
  intro sel d ds f c w rest s hbuf hne ha hfail
  have run : sendFrame sel s = .finished (.err (.io .write)) (s.duringSend sel .idle .space
      (⟨true, d⟩ :: (ds.take (onWire (quietAnswer f c w) ds.length)).map (fun x => ⟨false, x⟩))
      [.setParityMark true, .writeBytes [d] (some 1), .delay, .setParitySpace true,
        .writeBytes ds (if f then none else some c)] rest) := by
    rw [sendFrame_marked hbuf le_rfl ha, quiet, sendStep4_ok, sendStep5_written hbuf hne]
    dsimp only
    rw [if_pos hfail]
    rfl
  have reported : f = false → 0 ≤ c → c ≤ (ds.length : Int) → (onWire (quietAnswer f c w) ds.length : Int) = c := by
    rintro rfl h0 hn
    exact onWire_quietAnswer _ h0 hn
  exact ⟨_, _, exec_txSend_of_finished run, rfl, rfl, rfl, rfl, rfl, rfl, onWire_le _ _, reported, rfl⟩

/-- Settles O21: the failing end of step 1, and steps 1 to 3 with the failing end of step 4. -/
theorem sendConfigureFails : Obligations.SendConfigureFails := by
  refine fun sel d ds c w rest s hbuf => ⟨fun ha => ?_, fun ha => ?_⟩
  · have run : sendFrame sel s = .finished (.err (.io .configure))
        (s.duringSend sel .idle .unknown [] [.setParityMark false] rest) := by
      rw [sendFrame_of_cons hbuf, ha, sendStep1_fails]
      rfl
    exact ⟨_, exec_txSend_of_finished run, rfl, rfl, rfl, rfl, rfl, rfl, by simp [State.duringSend]⟩
  · have run : sendFrame sel s = .finished (.err (.io .configure)) (s.duringSend sel .idle .unknown [⟨true, d⟩]
        [.setParityMark true, .writeBytes [d] (some 1), .delay, .setParitySpace false] rest) := by
      rw [sendFrame_marked hbuf le_rfl ha, sendStep4_fails]
      rfl
    exact ⟨_, exec_txSend_of_finished run, rfl, rfl, rfl, rfl, rfl, rfl, rfl⟩

/-- Settles O22: the refusal of an empty buffer leaves the state as it was but for the response, and any other end is
that of a send in progress. -/
theorem sendEndsForEveryAnswer : Obligations.SendEndsForEveryAnswer := by
  intro sel s hidle
  obtain ⟨lineTx, lineOps⟩ := sendFrame_recordGrows sel s
  rcases sendFrame_cases sel s with ⟨_, refused⟩ | ⟨_, outcome⟩
  · exact ⟨_, exec_txSend_of_finished refused, hidle, .inl ⟨rfl, rfl⟩, by simp, by simp, .inr ⟨_, by simp, rfl⟩⟩
  · refine ⟨_, rfl, outcome.txStep_idle, outcome.keeps_or_resets, lineTx, lineOps, outcome.replies.imp_right ?_⟩
    rintro ⟨r, resp, replies⟩
    refine ⟨r, ?_, replies⟩
    rcases resp with rfl | rfl | rfl <;> simp

end Sys2Proof.Machine
end

section
/-! The FrameDecoder (42_decoder.md): how a push is answered in and outside `ACTIVE`, the three ends of payload
handling, the two ends of a push, and the statements about its cases. -/

namespace Sys2Proof.Machine

/-! ## How a push is answered (R134, R144) -/

section
variable {s t : State}

/-- A push of an `ACTIVE` decoder answers what its case gives. -/
theorem answerRaw_of_active (h : s.rx.phase = .active) (w : Response × State) :
    answerRaw (ifActive s w) = .next (w.2.rawReply w.1) := by
  rw [ifActive_of h, answerRaw]

theorem repliesRaw_rawReply (h : t.ports = s.ports) (r : Response) : s.RepliesRaw (t.rawReply r) r := by
  rw [State.RepliesRaw, State.rawReply, h]

/-- Outside `ACTIVE` every push is refused, whatever its case. -/
theorem exec_push_of_not_active {i : Instr} (push : isPush i = true) (h : s.rx.phase ≠ .active) :
    exec i s = .next (s.rawReply (.refused .notActive)) := by
  cases i with
  | rawEsc | rawData b | rawMark | rawLitff | rawBadesc b => exact congrArg answerRaw (ifActive_of_not h _)
  | mbAppend | mbAppendb | mbReset | mbLen | mbCap | mbSeti32 | mbGeti32 | mbCksum | mbSetctl | mbEq | mbHex | txSend
  | rxInit | rxDrop | wireMark | wireSpace => exact nomatch push

/-- Any number of pushes outside `ACTIVE`: one refusal each, and nothing else. -/
theorem execAll_pushes_of_not_active {is : List Instr} (pushes : ∀ i ∈ is, isPush i = true)
    (h : s.rx.phase ≠ .active) :
    execAll is s = .next { s with
      ports := { s.ports with rawOut := s.ports.rawOut ++ List.replicate is.length (.refused .notActive) } } := by
  induction is generalizing s with
  | nil => simp [execAll]
  | cons i is ih =>
    obtain ⟨push, later⟩ := List.forall_mem_cons.1 pushes
    rw [execAll, exec_push_of_not_active push h]
    refine (ih (s := s.rawReply (.refused .notActive)) later h).trans ?_
    simp [State.rawReply, List.replicate_succ]

end

/-- Settles O32: one refusal for each push. -/
theorem pushesRefusedOutsideActive : Obligations.PushesRefusedOutsideActive :=
  fun _ _ outside pushes => ⟨_, execAll_pushes_of_not_active pushes outside, rfl, rfl, ⟨rfl, rfl, rfl⟩, rfl⟩

/-! ## Payload handling (R140) -/

section
variable {v : Byte} {s : State}

theorem payload_of_unmarked (h : s.rx.marked = false) : payload v s = raiseProtocol .missingMarker s := by
  rw [payload, if_pos h]

theorem payload_of_full (marked : s.rx.marked = true) (full : s.rx.explen.toNat ≤ s.mem.len .b1) :
    payload v s = raiseProtocol .overrun s := by
  simp [payload, marked, full]

theorem payload_of_fits (legal : s.rx.explen.toNat ≤ 256) (marked : s.rx.marked = true)
    (fits : s.mem.len .b1 < s.rx.explen.toNat) : payload v s = (.ok, s.setBuf .b1 (s.mem.b1 ++ [v])) := by
  have room : s.mem.len .b1 + [v].length ≤ 256 := by
    rw [List.length_singleton]; omega
  simp [payload, marked, Nat.not_le.2 fits, appendBytes_of_fits room]

/-- Payload handling writes `B[1]`, the phase and `rx_err` only. -/
theorem payload_keepsBuf_b0 (v : Byte) (s : State) : s.KeepsBuf (payload v s).2 .b0 := by
  rcases payload_frame v s with ⟨c, e⟩ | ⟨_, _, _, e⟩ <;> rw [e]
  · exact fun _ => rfl
  · exact Memory.read_setBuf_other s.mem .b1 _

/-- What payload handling of `v` in `s`, answered on the raw-byte port, leaves: the marker test, the length test, then
the append. -/
structure PayloadHandled (v : Byte) (s t : State) : Prop where
  outside : s.KeepsOutside t
  other : s.KeepsBuf t .b0
  unmarked : s.rx.marked = false → t.mem = s.mem ∧ s.RepliesRaw t (.err (.protocol .missingMarker)) ∧
    t.rx = { s.rx with phase := .failed, err := 0x22 }
  full : s.rx.marked = true → s.rx.explen.toNat ≤ s.mem.len .b1 →
    t.mem = s.mem ∧ s.RepliesRaw t (.err (.protocol .overrun)) ∧ t.rx = { s.rx with phase := .failed, err := 0x23 }
  fits : s.rx.marked = true → s.mem.len .b1 < s.rx.explen.toNat →
    s.RepliesRaw t .ok ∧ t.rx = s.rx ∧ t.mem.len .b1 = s.mem.len .b1 + 1 ∧
      t.mem.read .b1 (s.mem.len .b1) = some v ∧ ∀ i, i < s.mem.len .b1 → t.mem.read .b1 i = s.mem.read .b1 i

theorem payload_handled (legal : s.rx.explen.toNat ≤ 256) (v : Byte) :
    PayloadHandled v s ((payload v s).2.rawReply (payload v s).1) where
  outside := ⟨(payload_keeps v s).tx, (payload_keeps v s).env, (payload_keeps v s).host⟩
  other := payload_keepsBuf_b0 v s
  unmarked h := by
    rw [payload_of_unmarked h]
    exact ⟨rfl, rfl, rfl⟩
  full marked full := by
    rw [payload_of_full marked full]
    exact ⟨rfl, rfl, rfl⟩
  fits marked fits := by
    obtain ⟨len, old, new⟩ := s.mem.setBuf_append .b1 [v]
    rw [payload_of_fits legal marked fits]
    exact ⟨rfl, rfl, len, new 0 Nat.one_pos, old⟩

end

/-- Settles O27: an ordinary byte is payload as it stands. -/
theorem dataIsPayload : Obligations.DataIsPayload := by
  intro b s active unescaped ordinary legal
  have k := payload_handled legal b
  refine ⟨?_, _, answerRaw_of_active active (caseData b s), k.outside, k.other, k.unmarked, k.full,
    fun marked fits => ?_⟩
  · rw [unescaped, decodeRaw_unescaped_data ordinary]
  · obtain ⟨ok, rx, len, new, old⟩ := k.fits marked fits
    refine ⟨ok, rx, len, new, old, ?_⟩
    rw [rxDone_iff, ← len, ← rx]
    exact and_iff_right ((congrArg Decoder.phase rx).trans active)

/-- Settles O29: payload handling of `0xFF` in the state with `rx_escaped` cleared. -/
theorem litffIsPayload : Obligations.LitffIsPayload := by
  intro s active escaped legal
  have k := payload_handled (s := s.setRx { s.rx with escaped := false }) legal 0xFF
  refine ⟨?_, _, answerRaw_of_active active (caseLitff s), k.outside, k.other, k.unmarked, k.full, k.fits⟩
  rw [escaped]
  exact decodeRaw_escaped_esc

/-! ## The two ends of a push (R144, R189, R192) -/

/-- What a push of the `ACTIVE` decoder of `s` gives: it is accepted and the decoder goes on, or it raises one
ProtocolError, before which only `rx_escaped` may have been written (R136). -/
inductive PushEnd (s : State) : Response × State → Prop where
  | accepted {t : State} (active : t.rx.phase = .active) (err : t.rx.err = s.rx.err) : PushEnd s (.ok, t)
  | raised (c : ProtoCause) (e : Bool) : PushEnd s (raiseProtocol c (s.setRx { s.rx with escaped := e }))

section
variable {s : State}

theorem payload_pushEnd (h : s.rx.phase = .active) (v : Byte) (e : Bool) :
    PushEnd s (payload v (s.setRx { s.rx with escaped := e })) := by
  rcases payload_frame v (s.setRx { s.rx with escaped := e }) with ⟨c, eq⟩ | ⟨_, _, _, eq⟩ <;> rw [eq]
  · exact .raised c e
  · exact .accepted h rfl

theorem caseMark_pushEnd (h : s.rx.phase = .active) : PushEnd s (caseMark s) := by
  unfold caseMark
  split
  · exact .raised .duplicateMarker s.rx.escaped
  · exact .accepted h rfl

theorem rxPush_pushEnd (h : s.rx.phase = .active) (b : Byte) : PushEnd s (rxPush b s) := by
  rw [rxPush, ifActive_of h]
  repeat' split
  · exact caseMark_pushEnd h
  · exact payload_pushEnd h Config.esc false
  · exact .raised .badEscape s.rx.escaped
  · exact .accepted h rfl
  · exact payload_pushEnd h b s.rx.escaped

end

/-- Settles O33: the two ends of a push, and the refusal of every push after the second. -/
theorem protocolErrorFailsDecoder : Obligations.ProtocolErrorFailsDecoder := by
  intro b s active
  have k := rxPush_keeps b s
  have ended := rxPush_pushEnd active b
  refine ⟨_, pushIsItsCase b s, ⟨k.tx, k.env, k.host⟩, ?_⟩
  generalize rxPush b s = w at k ended ⊢
  cases ended with
  | accepted phase err => exact .inl ⟨phase, err, repliesRaw_rawReply k.ports .ok⟩
  | raised c e =>
    refine .inr ⟨rfl, rfl, rfl, ⟨c, rfl, rfl⟩, fun is pushes => ?_⟩
    exact ⟨_, execAll_pushes_of_not_active pushes nofun, rfl, rfl⟩

/-! ## The other cases of a push -/

/-- Settles O26: the case writes `rx_escaped` and answers `Ok`. -/
theorem escSetsEscaped : Obligations.EscSetsEscaped := by
  intro s active unescaped
  refine ⟨?_, _, answerRaw_of_active active (caseEsc s), ⟨rfl, rfl, rfl⟩, rfl, rfl, rfl⟩
  rw [unescaped]
  exact decodeRaw_unescaped_esc

/-- Settles O28: the duplicate test decides. -/
theorem markStartsFrame : Obligations.MarkStartsFrame := by
  intro s active escaped
  refine ⟨?_, _, answerRaw_of_active active (caseMark s), ?_⟩
  · rw [escaped]
    exact decodeRaw_escaped_mark
  cases marked : s.rx.marked with
  | false =>
    rw [caseMark, if_neg (by simp [marked])]
    exact ⟨⟨rfl, rfl, rfl⟩, rfl, fun _ => ⟨rfl, rfl⟩, nofun⟩
  | true =>
    rw [caseMark, if_pos marked]
    exact ⟨⟨rfl, rfl, rfl⟩, rfl, nofun, fun _ => ⟨rfl, rfl⟩⟩

/-- Settles O30: the case raises `BadEscape` on the state as it is. -/
theorem badescRaisesError : Obligations.BadescRaisesError := by
  intro b s active escaped notMark notEsc
  refine ⟨?_, _, answerRaw_of_active active (caseBadesc b s), ⟨rfl, rfl, rfl⟩, rfl, rfl, rfl⟩
  rw [escaped, decodeRaw_escaped_other notMark notEsc]

/-! ## `RX.INIT` and `RX.DROP` (R133, R145) -/

theorem initDecoder_of_gt {len : BitVec 16} (h : 256 < len.toNat) (s : State) :
    initDecoder len s = (.refused .illegalOperand, s) := by
  rw [initDecoder, if_pos (show Config.capacity < len.toNat from h)]

/-- The operand of `RX.INIT` is the number whose little-endian bytes follow the opcode (R74). -/
theorem decodeCmd_rxInit {x0 x1 : Byte} {len : BitVec 16} (h : len.toNat = x0.toNat + 256 * x1.toNat)
    (ps : List Byte) : decodeCmd (0x40 :: x0 :: x1 :: ps) = .instr (.rxInit len) ps := by
  have value : len = le16 x0 x1 := BitVec.eq_of_toNat_eq (by rw [h, le16_toNat])
  rw [value]
  rfl

/-- Settles O24: the length test decides between the refusal and the fresh decoder. -/
theorem initMakesFreshDecoder : Obligations.InitMakesFreshDecoder := by
  intro len s
  refine ⟨fun tooLong => ?_, fun legal => ?_, fun _ _ ps h => decodeCmd_rxInit h ps⟩
  · rw [exec, execRxInit, initDecoder_of_gt tooLong, answerCmd]
  · obtain ⟨explen, same, init⟩ := initDecoder_of_le legal s
    rw [BitVec.ofNat_toNat, BitVec.setWidth_eq] at init
    refine ⟨(freshDecoder explen s).cmdReply .ok, ?_, ⟨rfl, rfl, rfl⟩, fun _ => rfl, rfl, rfl, rfl, rfl, same, rfl, rfl,
      ?_⟩
    · rw [exec, execRxInit, init, answerCmd]
    · rw [rxDone_iff, ← same]
      exact (and_iff_right rfl).trans eq_comm

/-- Settles O25: the decoder is `IDLE`, so that it neither is done nor holds `B[1]`. -/
theorem dropDiscardsDecoder : Obligations.DropDiscardsDecoder := by
  intro s
  refine ⟨(discardDecoder s).cmdReply .ok, rfl, ⟨rfl, rfl, rfl⟩, rfl, rfl, rfl, rfl, ?_, fun _ => rfl⟩
  rintro ⟨_, active⟩
  exact nomatch active

/-! ## The step of a raw byte and of a line character -/

/-- Settles O47: a request of the outside is served by its own port. -/
theorem stepRunsRawByteAndWire : Obligations.StepRunsRawByteAndWire := by
  refine fun ms s free => ⟨fun b rest asked waiting => ?_, fun ch asked => step_of_free free asked⟩
  have taken : step s = takeRaw (s.withMoves ms) := step_of_free free asked
  rw [taken, takeRaw, State.withMoves_rawIn, waiting]
  rfl

end Sys2Proof.Machine
end

section
/-! The handshake's moves (43_handshake.md): what a send, a push and a reading of the sum are to the host, that every
step keeps the host's side sound, and the sequence of the moves. -/

namespace Sys2Proof.Machine

/-! ## What leaves the host alone (R163, R169) -/

/-- The host's variables are the same in `t` as in `s`, and an alarm that is on is not turned off. -/
structure Undisturbed (s t : State) : Prop where
  host : t.host = s.host
  alarm : s.env.alarm ≠ .off → t.env.alarm ≠ .off

/-- The same, or the deadline has ended the handshake (R187). -/
def UndisturbedOrTimedOut (s t : State) : Prop := Undisturbed s t ∨ t.host.hs = .ended .timeoutError

section
variable {s t u : State}

theorem Undisturbed.of_env (host : t.host = s.host) (env : t.env = s.env) : Undisturbed s t :=
  ⟨host, fun on => by rw [env]; exact on⟩

theorem Undisturbed.trans (h : Undisturbed s t) (k : Undisturbed t u) : Undisturbed s u :=
  ⟨k.host.trans h.host, k.alarm ∘ h.alarm⟩

theorem Keeps.undisturbed (h : Keeps s t) : Undisturbed s t := .of_env h.host h.env

theorem LineGrows.undisturbed (h : LineGrows s t) : Undisturbed s t := ⟨h.host, h.alarm⟩

theorem UndisturbedOrTimedOut.after (k : UndisturbedOrTimedOut t u) (h : Undisturbed s t) :
    UndisturbedOrTimedOut s u :=
  k.imp_left h.trans

theorem CutBy.undisturbedOrTimedOut (h : CutBy s t) : UndisturbedOrTimedOut s t := by
  cases h with
  | reset _ _ host _ _ alarm => exact .inl ⟨host, fun on => by rw [alarm]; exact on⟩
  | deadline _ _ _ _ host => exact .inr (by rw [host])

theorem SendOutcome.undisturbedOrTimedOut {e : SendEnd} (h : SendOutcome s e) : UndisturbedOrTimedOut s e.state := by
  cases h with
  | finished grows => exact .inl ⟨grows.host, grows.alarm⟩
  | abandoned grows cut => exact cut.undisturbedOrTimedOut.after grows.undisturbed

theorem sendFrame_undisturbedOrTimedOut (sel : BufSel) (s : State) :
    UndisturbedOrTimedOut s (sendFrame sel s).state := by
  rcases sendFrame_cases sel s with ⟨_, e⟩ | ⟨_, outcome⟩
  · rw [e]
    exact .inl (.of_env rfl rfl)
  · exact outcome.undisturbedOrTimedOut

theorem deliverDeadline_undisturbedOrTimedOut (s : State) : UndisturbedOrTimedOut s (deliverDeadline s) := by
  cases hc : s.deadlineCuts with
  | true =>
    rw [deliverDeadline_of_cuts hc]
    exact .inr rfl
  | false =>
    rw [deliverDeadline_of_not_cuts hc]
    split
    · exact .inl ⟨rfl, fun _ => nofun⟩
    · exact .inl (.of_env rfl rfl)

theorem answerCmd_undisturbed {r : Response × State} (k : Keeps s r.2) (h : answerCmd r = .next t) :
    Undisturbed s t := by
  cases h
  exact k.undisturbed.trans (.of_env rfl rfl)

theorem answerRaw_undisturbed {r : Response × State} (k : Keeps s r.2) (h : answerRaw r = .next t) :
    Undisturbed s t := by
  cases h
  exact k.undisturbed.trans (.of_env rfl rfl)

/-- An operation of the block writes no variable of the host; only during a `TX.SEND` can the deadline fall. -/
theorem exec_undisturbedOrTimedOut {i : Instr} (h : exec i s = .next t) : UndisturbedOrTimedOut s t := by
  cases i with
  | mbAppend sel bs =>
    exact .inl (answerCmd_undisturbed (ownerCheck_keeps sel s _ fun free => appendBytes_keeps sel bs s free) h)
  | mbAppendb sel b =>
    exact .inl (answerCmd_undisturbed (ownerCheck_keeps sel s _ fun free => appendBytes_keeps sel [b] s free) h)
  | mbReset sel =>
    exact .inl (answerCmd_undisturbed
      (ownerCheck_keeps sel s (.ok, s.setBuf sel []) fun free => setBuf_keeps sel s [] (by simp) free) h)
  | mbSetctl sel sp =>
    exact .inl (answerCmd_undisturbed (ownerCheck_keeps sel s (.ok, s.setBuf sel (controlFrame sp)) fun free =>
      setBuf_keeps sel s _ (by simp [controlFrame, controlBody, Config.controlHeader]) free) h)
  | mbSeti32 sel v => exact .inl (answerCmd_undisturbed (setInt32_keeps sel v s) h)
  | mbGeti32 sel => exact .inl (answerCmd_undisturbed (getInt32_keeps sel s) h)
  | mbLen sel | mbCap sel | mbCksum sel | mbEq | mbHex sel => exact .inl (answerCmd_undisturbed (.refl s) h)
  | rxInit len => exact .inl (answerCmd_undisturbed (initDecoder_keeps len s) h)
  | rxDrop => exact .inl (answerCmd_undisturbed (discardDecoder_keeps s) h)
  | rawEsc => exact .inl (answerRaw_undisturbed (ifActive_keeps s (caseEsc s) (setEscaped_keeps s true)) h)
  | rawData b => exact .inl (answerRaw_undisturbed (ifActive_keeps s _ (payload_keeps b s)) h)
  | rawMark => exact .inl (answerRaw_undisturbed (ifActive_keeps s _ (caseMark_keeps s)) h)
  | rawLitff => exact .inl (answerRaw_undisturbed (ifActive_keeps s _ (caseLitff_keeps s)) h)
  | rawBadesc b => exact .inl (answerRaw_undisturbed (ifActive_keeps s _ (raiseProtocol_keeps .badEscape s)) h)
  | txSend sel =>
    cases h
    exact sendFrame_undisturbedOrTimedOut sel s
  | wireMark d | wireSpace d =>
    cases h
    exact .inl ⟨rfl, id⟩

theorem takeReadLine_undisturbedOrTimedOut (s : State) : UndisturbedOrTimedOut s (takeReadLine s) := by
  unfold takeReadLine
  split
  · next h => exact (nextTurn_cutOff h).undisturbedOrTimedOut
  · next h => exact .inl ((nextTurn_goesOn h).1.undisturbed.trans (lineReadBytes_grows _ _ _).1.undisturbed)

/-! ## A send of the handshake (R164, R170) -/

/-- What the host's send of `B[0]` leads to: it is answered and the host goes on (log 8 for the refusal), it fails with
an IoError, the deadline has cut it, or a reset has and the host waits (log 8, log 22). -/
inductive SendMove (onward : HsPoint) (s t : State) : Prop where
  | answered {r : Response} (resp : r = .ok ∨ r = .refused .emptyFrame) (reply : s.RepliesCmd t r)
      (host : t.host = { s.host with hs := .running onward }) (alarm : s.env.alarm ≠ .off → t.env.alarm ≠ .off)
  | failed {c : IoCause} (reply : s.RepliesCmd t (.err (.io c)))
      (host : t.host = { s.host with hs := .ended (.ioError c) })
  | timedOut (ports : t.ports = s.ports) (host : t.host = { s.host with hs := .ended .timeoutError })
      (mem : t.mem = s.mem) (rx : t.rx = s.rx)
  | stalled (ports : t.ports = s.ports) (host : t.host = { s.host with hs := .running .stalled })
      (block : t.block = State.reset.block) (alarm : s.env.alarm ≠ .off → t.env.alarm ≠ .off)

theorem hsSend_of_going {onward : HsPoint} {r : Response} (h : sendFrame .b0 s = .finished r t)
    (going : ∀ c, r ≠ .err (.io c)) : hsSend onward s = (t.cmdReply r).hsGoto onward := by
  rw [hsSend, h]
  cases r with
  | err c =>
    cases c with
    | io c => exact absurd rfl (going c)
    | protocol | verification | timeout => rfl
  | ok | val | fail | refused => rfl

theorem hsSend_of_ioError {onward : HsPoint} {c : IoCause} (h : sendFrame .b0 s = .finished (.err (.io c)) t) :
    hsSend onward s = (t.cmdReply (.err (.io c))).hsEnd (.ioError c) := by
  rw [hsSend, h]

/-- A send that was cut off leaves the host of a handshake that still runs waiting. -/
theorem hsSend_of_abandoned_running {onward pt : HsPoint} (h : sendFrame .b0 s = .abandoned t)
    (running : t.host.hs = .running pt) : hsSend onward s = t.hsGoto .stalled := by
  simp only [hsSend, h, running]

theorem hsSend_of_abandoned_ended {onward : HsPoint} {r : HsResult} (h : sendFrame .b0 s = .abandoned t)
    (ended : t.host.hs = .ended r) : hsSend onward s = t := by
  simp only [hsSend, h, ended]

/-- A send that is cut off, by what cut it (R187, R211). -/
theorem CutBy.sendMove {onward pt : HsPoint} (running : s.host.hs = .running pt) (grows : LineGrows s u)
    (cut : CutBy u t) (h : sendFrame .b0 s = .abandoned t) : SendMove onward s (hsSend onward s) := by
  have ports := cut.ports_eq.trans grows.ports
  cases cut with
  | reset block _ host _ _ alarm =>
    have kept : t.host = s.host := host.trans grows.host
    rw [hsSend_of_abandoned_running h (by rw [kept, running])]
    exact .stalled ports (congrArg (fun v : HostVars => { v with hs := .running .stalled }) kept) block
      fun on => by rw [State.hsGoto_env, alarm]; exact grows.alarm on
  | deadline mem rx _ _ host =>
    rw [hsSend_of_abandoned_ended h (by rw [host])]
    exact .timedOut ports (host.trans (by rw [grows.host])) (mem.trans grows.mem) (rx.trans grows.rx)

/-- A send that returns a response, by the response. -/
theorem LineGrows.sendMove {onward : HsPoint} {r : Response} (grows : LineGrows s t)
    (resp : r = .ok ∨ r = .err (.io .write) ∨ r = .err (.io .configure)) (h : sendFrame .b0 s = .finished r t) :
    SendMove onward s (hsSend onward s) := by
  have reply : s.RepliesCmd (t.cmdReply r) r := (repliesCmd_cmdReply_iff grows.ports r r).2 rfl
  rcases resp with rfl | rfl | rfl
  · rw [hsSend_of_going h nofun]
    exact .answered (.inl rfl) reply (by rw [State.hsGoto_host, State.cmdReply_host, grows.host]) grows.alarm
  all_goals
    rw [hsSend_of_ioError h]
    exact .failed reply (by rw [State.hsEnd_host, State.cmdReply_host, grows.host])

theorem hsSend_move (onward : HsPoint) {pt : HsPoint} (running : s.host.hs = .running pt) :
    SendMove onward s (hsSend onward s) := by
  rcases sendFrame_cases .b0 s with ⟨_, e⟩ | ⟨_, outcome⟩
  · rw [hsSend_of_going e nofun]
    exact .answered (.inr rfl) rfl rfl id
  · generalize e : sendFrame .b0 s = ended at outcome
    cases outcome with
    | finished grows _ resp => exact grows.sendMove resp e
    | abandoned grows cut => exact cut.sendMove running grows e

/-! ## A push of the read loop, a reading of the sum (R165 to R167, R170) -/

/-- Where the host goes after a push that did not end the handshake, `done` being `rx_done` then (R166). -/
def afterPush (chk : RxDoneCheck) (rest : List Byte) (done : Bool) : HsPoint :=
  if chk = .perByte ∧ done = true then .get else if rest = [] then .loop else .push rest

theorem hsAfterPush_eq (chk : RxDoneCheck) (rest : List Byte) (s : State) :
    hsAfterPush chk rest s = s.hsGoto (afterPush chk rest s.rxDone) := by
  by_cases leaves : chk = .perByte ∧ s.rxDone = true
  · simp [hsAfterPush, afterPush, leaves]
  · cases rest <;> simp [hsAfterPush, afterPush, leaves]

theorem hsPush_of_error {chk : RxDoneCheck} {x : Byte} {rest : List Byte} {c : ProtoCause}
    (h : rxPush x s = (.err (.protocol c), t)) :
    hsPush chk x rest s = (t.rawReply (.err (.protocol c))).hsEnd (.protocolError c) := by
  rw [hsPush, h]

theorem hsPush_of_going {chk : RxDoneCheck} {x : Byte} {rest : List Byte} {r : Response} (h : rxPush x s = (r, t))
    (going : ∀ c, r ≠ .err (.protocol c)) :
    hsPush chk x rest s = (t.rawReply r).hsGoto (afterPush chk rest t.rxDone) := by
  have after := hsAfterPush_eq chk rest (t.rawReply r)
  rw [hsPush, h]
  cases r with
  | err c =>
    cases c with
    | protocol c => exact absurd rfl (going c)
    | io | verification | timeout => exact after
  | ok | val | fail | refused => exact after

/-- The two ends of the host's push: a ProtocolError of the byte, or it goes on. -/
theorem hsPush_cases (chk : RxDoneCheck) (x : Byte) (rest : List Byte) (s : State) :
    (∃ c t, rxPush x s = (.err (.protocol c), t) ∧
      hsPush chk x rest s = (t.rawReply (.err (.protocol c))).hsEnd (.protocolError c)) ∨
    (∃ r t, rxPush x s = (r, t) ∧ (∀ c, r ≠ .err (.protocol c)) ∧
      hsPush chk x rest s = (t.rawReply r).hsGoto (afterPush chk rest t.rxDone)) := by
  rcases e : rxPush x s with ⟨r, t⟩
  by_cases raised : ∃ c, r = .err (.protocol c)
  · obtain ⟨c, rfl⟩ := raised
    exact .inl ⟨c, t, rfl, hsPush_of_error e⟩
  · have going := not_exists.1 raised
    exact .inr ⟨r, t, rfl, going, hsPush_of_going e going⟩

theorem hsGet_of_value {v : Word32} (h : getInt32 .b1 s = (.val (.int32 v), t)) :
    hsGet s = ((t.cmdReply (.val (.int32 v))).setReceived v).hsGoto .compare := by
  rw [hsGet, h]

theorem hsGet_of_failure (h : getInt32 .b1 s = (.fail .wrongLength, t)) :
    hsGet s = (t.cmdReply (.fail .wrongLength)).hsGoto .stalled := by
  rw [hsGet, h]

/-- The two ends of a reading of the sum. -/
theorem hsGet_cases (s : State) :
    (∃ v, getInt32 .b1 s = (.val (.int32 v), s) ∧
      hsGet s = ((s.cmdReply (.val (.int32 v))).setReceived v).hsGoto .compare) ∨
    (getInt32 .b1 s = (.fail .wrongLength, s) ∧ hsGet s = (s.cmdReply (.fail .wrongLength)).hsGoto .stalled) := by
  rcases getInt32_cases .b1 s with ⟨v, _, e⟩ | e
  · exact .inl ⟨v, e, hsGet_of_value e⟩
  · exact .inr ⟨e, hsGet_of_failure e⟩

/-! ## Soundness (R163, R168, R169) -/

/-- What `State.HandshakeSound` asks of a running handshake. -/
def State.Underway (s : State) : Prop := s.host.expectedSum = s.host.a + s.host.b ∧ s.env.alarm ≠ .off

theorem handshakeSound_of_running {pt : HsPoint} (h : s.host.hs = .running pt) : s.HandshakeSound ↔ s.Underway := by
  simp [State.HandshakeSound, State.Underway, h]

/-- Wherever the host goes in a handshake that is under way. -/
theorem State.Underway.sound_goto (h : s.Underway) (pt : HsPoint) : (s.hsGoto pt).HandshakeSound := h

theorem Undisturbed.underway (k : Undisturbed s t) (h : s.Underway) : t.Underway := by
  obtain ⟨sum, on⟩ := h
  exact ⟨by rw [k.host]; exact sum, k.alarm on⟩

theorem Undisturbed.sound (k : Undisturbed s t) (h : s.HandshakeSound) : t.HandshakeSound := by
  cases hs : s.host.hs with
  | running pt =>
    exact (handshakeSound_of_running (k.host ▸ hs)).2 (k.underway ((handshakeSound_of_running hs).1 h))
  | idle => simp [State.HandshakeSound, k.host, hs]
  | ended r =>
    unfold State.HandshakeSound at h ⊢
    rw [k.host]
    rw [hs] at h ⊢
    cases r <;> exact h

theorem sound_of_timedOut (h : s.host.hs = .ended .timeoutError) : s.HandshakeSound := by
  simp [State.HandshakeSound, h]

theorem UndisturbedOrTimedOut.sound (k : UndisturbedOrTimedOut s t) (h : s.HandshakeSound) : t.HandshakeSound :=
  k.elim (fun calm => calm.sound h) sound_of_timedOut

end

section
variable {s : State}

theorem hsTurn_sound {k : State → State} (h : s.HandshakeSound)
    (hk : ∀ t, Undisturbed s t → (k t).HandshakeSound) : (hsTurn s k).HandshakeSound := by
  unfold hsTurn
  split
  · next cut => exact (nextTurn_cutOff cut).undisturbedOrTimedOut.sound h
  · next on => exact hk _ (nextTurn_goesOn on).1.undisturbed

theorem hsCommand_sound {onward : HsPoint} {r : Response × State} (h : s.Underway) (k : Keeps s r.2) :
    (hsCommand onward r).HandshakeSound :=
  (k.undisturbed.underway h).sound_goto onward

theorem SendMove.sound {onward : HsPoint} {t : State} (h : s.Underway) (k : SendMove onward s t) :
    t.HandshakeSound := by
  obtain ⟨sum, on⟩ := h
  cases k with
  | answered _ _ host alarm | stalled _ host _ alarm =>
    exact (handshakeSound_of_running (by rw [host])).2 ⟨by rw [host]; exact sum, alarm on⟩
  | failed _ host | timedOut _ host => simp [State.HandshakeSound, host]

theorem hsRead_sound (n : Nat) (h : s.Underway) (sound : s.HandshakeSound) : (hsRead n s).HandshakeSound := by
  unfold hsRead
  split
  · next cut => exact (nextTurn_cutOff cut).undisturbedOrTimedOut.sound sound
  · next a t on =>
    have read : (lineReadBytes n a t).2.Underway :=
      ((nextTurn_goesOn on).1.undisturbed.trans (lineReadBytes_grows n a t).1.undisturbed).underway h
    split
    · trivial
    all_goals
      next e =>
        rw [e] at read
        exact read.sound_goto _

theorem hsPush_sound (chk : RxDoneCheck) (x : Byte) (rest : List Byte) (h : s.Underway) :
    (hsPush chk x rest s).HandshakeSound := by
  have push := (rxPush_keeps x s).undisturbed.underway h
  rcases hsPush_cases chk x rest s with ⟨c, t, e, eq⟩ | ⟨r, t, e, _, eq⟩ <;> rw [eq]
  · trivial
  · rw [e] at push
    exact State.Underway.sound_goto (s := t.rawReply r) push _

theorem hsGet_sound (h : s.Underway) : (hsGet s).HandshakeSound := by
  rcases hsGet_cases s with ⟨v, _, eq⟩ | ⟨_, eq⟩ <;> rw [eq]
  · exact State.Underway.sound_goto (s := (s.cmdReply (.val (.int32 v))).setReceived v) h _
  · exact State.Underway.sound_goto (s := s.cmdReply (.fail .wrongLength)) h _

/-- The comparison decides between equal sums and two unequal ones (R168). -/
theorem hsCompare_sound (h : s.Underway) : (hsCompare s).HandshakeSound := by
  obtain ⟨sum, _⟩ := h
  unfold hsCompare
  split
  · next equal => exact ⟨equal, sum⟩
  · next unequal => exact ⟨rfl, rfl, unequal, sum⟩

/-- Every move of a running handshake keeps it sound. -/
theorem hsStep_sound (chk : RxDoneCheck) (n : Nat) {pt : HsPoint} (running : s.host.hs = .running pt)
    (sound : s.HandshakeSound) : (hsStep chk n pt s).HandshakeSound := by
  have h : s.Underway := (handshakeSound_of_running running).1 sound
  cases pt with
  | setA | setB => exact hsTurn_sound sound fun t calm => hsCommand_sound (calm.underway h) (setInt32_keeps .b0 _ t)
  | sendA | sendB => exact (hsSend_move _ running).sound h
  | init => exact hsTurn_sound sound fun t calm => hsCommand_sound (calm.underway h) (initDecoder_keeps _ t)
  | loop =>
    show (if s.rxDone then s.hsGoto .get else hsRead n s).HandshakeSound
    split
    · exact h.sound_goto .get
    · exact hsRead_sound n h sound
  | push chunk =>
    cases chunk with
    | nil => exact h.sound_goto .loop
    | cons x rest => exact hsTurn_sound sound fun t calm => hsPush_sound chk x rest (calm.underway h)
  | get => exact hsTurn_sound sound fun t calm => hsGet_sound (calm.underway h)
  | compare => exact hsCompare_sound h
  | stalled => exact hsTurn_sound sound fun t calm => calm.sound sound

/-- The start of HS.RUN makes the sum and arms the alarm (R163, R169), or ends at once (R162). -/
theorem hsBegin_sound (draw : Option (Word32 × Word32)) (s : State) : (hsBegin draw s).HandshakeSound := by
  cases draw with
  | none => trivial
  | some operands => exact ⟨rfl, nofun⟩

theorem takeCommand_undisturbedOrTimedOut {t : State} (h : takeCommand s = .next t) : UndisturbedOrTimedOut s t := by
  unfold takeCommand at h
  split at h
  · exact (exec_undisturbedOrTimedOut h).after (.of_env rfl rfl)
  · cases h
    exact .inl (.of_env rfl rfl)
  · cases h
    exact .inl (.of_env rfl rfl)

theorem takeRaw_undisturbedOrTimedOut {t : State} (h : takeRaw s = .next t) : UndisturbedOrTimedOut s t := by
  unfold takeRaw at h
  split at h
  · cases h
    exact .inl (.of_env rfl rfl)
  · exact (exec_undisturbedOrTimedOut h).after (.of_env rfl rfl)

theorem serve_sound {m : Move} {t : State} (sound : s.HandshakeSound) (h : serve m s = .next t) :
    t.HandshakeSound := by
  cases m with
  | cmd => exact (takeCommand_undisturbedOrTimedOut h).sound sound
  | raw => exact (takeRaw_undisturbedOrTimedOut h).sound sound
  | wire ch => exact (exec_undisturbedOrTimedOut h).sound sound
  | readLine => cases h; exact (takeReadLine_undisturbedOrTimedOut s).sound sound
  | hsRun draw => cases h; exact hsBegin_sound draw s
  | deadline => cases h; exact (deliverDeadline_undisturbedOrTimedOut s).sound sound
  | reset => cases h; exact (Undisturbed.of_env rfl rfl).sound sound

end

/-- Settles O57: a send going on leaves the host alone, a move of the handshake keeps it sound, and so does a request
of the outside, of which only the start of HS.RUN writes the host's variables. -/
theorem stepKeepsHandshakeSound : Obligations.StepKeepsHandshakeSound := by
  intro s t sound h
  by_cases hi : s.tx.txStep = .idle
  · by_cases hr : ∃ pt, s.host.hs = .running pt
    · obtain ⟨pt, running⟩ := hr
      rw [step_of_running hi running] at h
      cases h
      exact hsStep_sound _ _ running sound
    · have free : s.Free := ⟨hi, not_exists.1 hr⟩
      cases hm : s.ports.moves with
      | nil =>
        rw [step_of_waiting free hm] at h
        cases h
        exact sound
      | cons m ms =>
        rw [step_of_free free hm] at h
        exact serve_sound (s := s.withMoves ms) ((Undisturbed.of_env rfl rfl).sound sound) h
  · rw [step_of_sending hi] at h
    cases h
    exact (resumeSend_outcome s hi).undisturbedOrTimedOut.sound sound

end Sys2Proof.Machine
end

section
/-! The handshake's start, the deadline in its read loop, and the sequence of its moves when nothing falls before them
(43_handshake.md). -/

namespace Sys2Proof.Machine

/-! ## The start, and the deadline (R162, R163, R169) -/

/-- Settles O56: the request starts HS.RUN, which writes the host's variables and the alarm. -/
theorem handshakeBegins : Obligations.HandshakeBegins := by
  refine fun ms s free => ⟨fun x y asked => ?_, fun asked => ?_⟩
  · exact ⟨_, step_of_free free asked, rfl, rfl, rfl, BitVec.toNat_add x y, rfl, rfl⟩
  · exact ⟨_, step_of_free free asked, rfl, rfl, rfl⟩

section
variable {s : State} {a : LineAnswer} {as : List LineAnswer} {pt : HsPoint}

/-- The state with the first answer taken and what arrived with it queued. -/
def State.took (s : State) (a : LineAnswer) (as : List LineAnswer) : State :=
  { s with env := { s.env with answers := as, rawRx := s.env.rawRx ++ a.arrived } }

@[simp] theorem took_rxDone : (s.took a as).rxDone = s.rxDone := rfl
@[simp] theorem took_alarm : (s.took a as).env.alarm = s.env.alarm := rfl
@[simp] theorem took_host : (s.took a as).host = s.host := rfl

theorem hsTurn_took (k : State → State) (ha : s.env.answers = a :: as) (he : a.event = none) :
    hsTurn s k = k (s.took a as) :=
  hsTurn_of_quiet k ha he

theorem hsStep_loop_of_done (chk : RxDoneCheck) (n : Nat) (h : s.rxDone = true) :
    hsStep chk n .loop s = s.hsGoto .get := by
  rw [hsStep, if_pos h]

theorem hsStep_loop_of_not_done (chk : RxDoneCheck) (n : Nat) (h : s.rxDone = false) :
    hsStep chk n .loop s = hsRead n s := by
  simp [hsStep, h]

/-- A deadline that finds the handshake without its payload cuts what it falls before (R187). -/
theorem nextTurn_of_deadline (armed : s.env.alarm = .armed) (unfinished : s.rxDone = false)
    (running : s.host.hs = .running pt) (ha : s.env.answers = a :: as) (he : a.event = some .deadline) :
    nextTurn s = .cutOff { s.took a as with
      env := { (s.took a as).env with alarm := .fired }
      host := { s.host with hs := .ended .timeoutError }
      tx := { s.tx with txStep := .idle } } := by
  have answer : s.nextAnswer = a := by rw [State.nextAnswer, ha]
  have taken : s.takeAnswer = s.took a as := by rw [State.takeAnswer, ha]; rfl
  have cuts : (s.took a as).deadlineCuts = true := by
    simp [State.deadlineCuts, armed, running, unfinished]
  rw [nextTurn, answer, he, taken]
  simp only [cuts, if_true, deliverDeadline_of_cuts cuts]
  rfl

end

/-- Settles O55: in the loop without a complete payload, and before a push, the host's move is cut. -/
theorem deadlineEndsReadLoop : Obligations.DeadlineEndsReadLoop := by
  intro chk n a as pt s armed unfinished running waits ha he
  have turn := nextTurn_of_deadline armed unfinished running ha he
  rcases waits with rfl | ⟨x, xs, rfl⟩
  · rw [hsStep_loop_of_not_done chk n unfinished, hsRead, turn]
    exact ⟨rfl, rfl, rfl, rfl, rfl⟩
  · have move : hsStep chk n (.push (x :: xs)) s = hsTurn s (hsPush chk x xs) := rfl
    rw [move, hsTurn, turn]
    exact ⟨rfl, rfl, rfl, rfl, rfl⟩

/-! ## A move performs its operation (R164 to R167) -/

/-- `u` is `t` but for the host's variables. -/
def SameButHost (t u : State) : Prop := u.block = t.block ∧ u.ports = t.ports ∧ u.env = t.env

section
variable {s t : State}

theorem sameButHost_hsGoto (t : State) (pt : HsPoint) : SameButHost t (t.hsGoto pt) := ⟨rfl, rfl, rfl⟩

theorem sameButHost_hsEnd (t : State) (r : HsResult) : SameButHost t (t.hsEnd r) := ⟨rfl, rfl, rfl⟩

/-- The host's own part of a send leaves the ports as the send does. -/
theorem hsSend_ports (onward : HsPoint) (s : State) : (hsSend onward s).ports = (sendFrame .b0 s).state.ports := by
  unfold hsSend
  split
  · next e => rw [e]; rfl
  · next e => rw [e]; rfl
  · next e => rw [e]; split <;> rfl

theorem hsPush_sameButHost (chk : RxDoneCheck) (x : Byte) (rest : List Byte) (s : State) :
    SameButHost ((rxPush x s).2.rawReply (rxPush x s).1) (hsPush chk x rest s) := by
  rcases hsPush_cases chk x rest s with ⟨c, t, e, eq⟩ | ⟨r, t, e, _, eq⟩ <;> rw [e, eq]
  · exact sameButHost_hsEnd _ _
  · exact sameButHost_hsGoto _ _

theorem hsGet_sameButHost (s : State) :
    SameButHost ((getInt32 .b1 s).2.cmdReply (getInt32 .b1 s).1) (hsGet s) := by
  rcases hsGet_cases s with ⟨v, e, eq⟩ | ⟨e, eq⟩ <;> rw [e, eq] <;> exact ⟨rfl, rfl, rfl⟩

/-- A send is the `TX.SEND 0` of the operand, whatever falls during it. -/
theorem hsSend_performs (onward : HsPoint) (s : State) :
    ∃ t, exec (.txSend .b0) s = .next t ∧ SameButHost t (hsSend onward s) :=
  ⟨_, rfl, hsSend_block onward s, hsSend_ports onward s, hsSend_env onward s⟩

/-- Any other move that performs an operation, with nothing falling before it, is that operation. -/
theorem hsStep_performs (chk : RxDoneCheck) (n : Nat) {pt : HsPoint} {i : Instr} {a : LineAnswer}
    {as : List LineAnswer} (hi : s.hostOperation pt = some i) (notA : pt ≠ .sendA) (notB : pt ≠ .sendB)
    (ha : s.env.answers = a :: as) (he : a.event = none) :
    ∃ t, exec i (s.took a as) = .next t ∧ SameButHost t (hsStep chk n pt s) := by
  have turn := fun k => hsTurn_took k ha he
  cases pt with
  | sendA => exact absurd rfl notA
  | sendB => exact absurd rfl notB
  | setA | setB | init =>
    cases hi
    exact ⟨_, rfl, by rw [hsStep, turn]; exact sameButHost_hsGoto _ _⟩
  | push chunk =>
    cases chunk with
    | nil => exact nomatch hi
    | cons x rest =>
      cases hi
      exact ⟨_, pushIsItsCase x (s.took a as), by rw [hsStep, turn]; exact hsPush_sameButHost chk x rest _⟩
  | get =>
    cases hi
    exact ⟨_, rfl, by rw [hsStep, turn]; exact hsGet_sameButHost _⟩
  | loop | compare | stalled => exact nomatch hi

/-! ## Where the host goes (R164 to R168, R170) -/

/-- After `MB.SETI32 0, a`, `MB.SETI32 0, b` and `RX.INIT 4` the host goes on, whatever they answer. -/
theorem hsCommand_host (onward : HsPoint) {r : Response × State} (k : Keeps s r.2) :
    (hsCommand onward r).host = { s.host with hs := .running onward } := by
  rw [hsCommand, State.hsGoto_host, State.cmdReply_host, k.host]

theorem SendMove.of_reply {onward : HsPoint} {r : Response} (k : SendMove onward s t) (reply : s.RepliesCmd t r) :
    (r = .ok ∨ r = .refused .emptyFrame) ∧ t.host = { s.host with hs := .running onward } ∨
      ∃ c, r = .err (.io c) ∧ t.host = { s.host with hs := .ended (.ioError c) } := by
  have same : ∀ q, s.RepliesCmd t q → q = r := fun q other => by
    simpa using (congrArg Ports.cmdOut other).symm.trans (congrArg Ports.cmdOut reply)
  cases k with
  | answered resp other host => exact .inl ⟨same _ other ▸ resp, host⟩
  | failed other host => exact .inr ⟨_, (same _ other).symm, host⟩
  | timedOut ports | stalled ports => exact absurd reply (not_repliesCmd_of_cmdOut (congrArg Ports.cmdOut ports) r)

theorem SendMove.of_silent {onward : HsPoint} (k : SendMove onward s t) (silent : t.ports = s.ports) :
    (t.host = { s.host with hs := .ended .timeoutError } ∧ t.mem = s.mem ∧ t.rx = s.rx) ∨
      (t.host = { s.host with hs := .running .stalled } ∧ t.block = State.reset.block) := by
  have quiet := not_repliesCmd_of_cmdOut (congrArg Ports.cmdOut silent)
  cases k with
  | answered _ reply | failed reply => exact absurd reply (quiet _)
  | timedOut _ host mem rx => exact .inl ⟨host, mem, rx⟩
  | stalled _ host block => exact .inr ⟨host, block⟩

/-- The raw-byte port tells the answer of a push. -/
theorem repliesRaw_rawReply_iff (h : t.ports = s.ports) (r q : Response) : s.RepliesRaw (t.rawReply r) q ↔ r = q := by
  simp [State.RepliesRaw, State.rawReply, h]

theorem hsPush_host_of_going {chk : RxDoneCheck} {x : Byte} {rest : List Byte} {r : Response}
    (reply : s.RepliesRaw (hsPush chk x rest s) r) (going : ∀ c, r ≠ .err (.protocol c)) :
    (hsPush chk x rest s).host =
      { s.host with hs := .running (afterPush chk rest (hsPush chk x rest s).rxDone) } := by
  have k := rxPush_keeps x s
  rcases hsPush_cases chk x rest s with ⟨c, t, e, eq⟩ | ⟨r', t, e, _, eq⟩ <;> rw [eq] at reply ⊢ <;> rw [e] at k
  · exact absurd ((repliesRaw_rawReply_iff k.ports _ _).1 reply).symm (going c)
  · rw [State.hsGoto_host, State.rawReply_host, k.host]
    rfl

theorem hsPush_host_of_error {chk : RxDoneCheck} {x : Byte} {rest : List Byte} {c : ProtoCause}
    (reply : s.RepliesRaw (hsPush chk x rest s) (.err (.protocol c))) :
    (hsPush chk x rest s).host = { s.host with hs := .ended (.protocolError c) } := by
  have k := rxPush_keeps x s
  rcases hsPush_cases chk x rest s with ⟨c', t, e, eq⟩ | ⟨r, t, e, going, eq⟩ <;> rw [eq] at reply ⊢ <;> rw [e] at k
  · cases (repliesRaw_rawReply_iff k.ports _ _).1 reply
    rw [State.hsEnd_host, State.rawReply_host, k.host]
  · exact absurd ((repliesRaw_rawReply_iff k.ports _ _).1 reply) (going c)

theorem hsGet_host_of_value {v : Word32} (reply : s.RepliesCmd (hsGet s) (.val (.int32 v))) :
    (hsGet s).host = { s.host with hs := .running .compare, receivedSum := v } := by
  rcases hsGet_cases s with ⟨w, _, eq⟩ | ⟨_, eq⟩ <;> rw [eq] at reply ⊢
  · cases (repliesCmd_cmdReply_iff rfl _ _).1 reply
    rfl
  · exact nomatch (repliesCmd_cmdReply_iff rfl _ _).1 reply

theorem hsGet_host_of_failure (reply : s.RepliesCmd (hsGet s) (.fail .wrongLength)) :
    (hsGet s).host = { s.host with hs := .running .stalled } := by
  rcases hsGet_cases s with ⟨w, _, eq⟩ | ⟨_, eq⟩ <;> rw [eq] at reply ⊢
  · exact nomatch (repliesCmd_cmdReply_iff rfl _ _).1 reply
  · rfl

theorem hsCompare_eq (s : State) : hsCompare s =
    s.hsEnd (if s.host.receivedSum = s.host.expectedSum then .success
      else .verificationError s.host.receivedSum s.host.expectedSum) := by
  unfold hsCompare
  split <;> rfl

/-! ## The read loop (R165) -/

section
variable {a : LineAnswer} {as : List LineAnswer} (ha : s.env.answers = a :: as) (he : a.event = none)
include ha he

theorem hsRead_of_fails (n : Nat) (hf : a.fails = true) :
    hsRead n s = ((s.took a as).logOp (.readBytes n none)).hsEnd (.ioError .read) := by
  rw [hsRead, nextTurn_of_quiet ha he]
  simp only [lineReadBytes_of_fails hf]
  rfl

theorem hsRead_of_chunk {n : Nat} {t : State} {chunk : List Byte}
    (read : lineReadBytes n a (s.took a as) = (some chunk, t)) :
    hsRead n s = t.hsGoto (if chunk = [] then .loop else .push chunk) := by
  have turn : nextTurn s = .goesOn a (s.took a as) := nextTurn_of_quiet ha he
  simp only [hsRead, turn, read]
  cases chunk <;> rfl

/-- A read that does not fail brings the host to the push of its chunk, or round again when it takes no byte. -/
theorem hsRead_of_not_fails {n k : Nat} (hf : a.fails = false) (hk : k = readCount n a (s.env.rawRx ++ a.arrived)) :
    hsRead n s = State.hsGoto { s with env := { s.env with
      answers := as
      rawRx := (s.env.rawRx ++ a.arrived).drop k
      lineOps := s.env.lineOps ++ [.readBytes n (some ((s.env.rawRx ++ a.arrived).take k))] } }
      (if k = 0 then .loop else .push ((s.env.rawRx ++ a.arrived).take k)) := by
  have bound : k ≤ (s.env.rawRx ++ a.arrived).length := hk ▸ readCount_le_length _ _ _
  have empty : (s.env.rawRx ++ a.arrived).take k = [] ↔ k = 0 := by
    rw [← List.length_eq_zero_iff, List.length_take, min_eq_left bound]
  rw [← if_congr empty rfl rfl, hk]
  exact hsRead_of_chunk ha he (lineReadBytes_of_not_fails hf n (s.took a as))

end
end

/-- Settles O58: each clause is the lemma about its move. -/
theorem handshakeMovesFollowSequence : Obligations.HandshakeMovesFollowSequence := by
  refine ⟨fun pt s hi hr => step_of_running hi hr, fun chk n pt i s _ hi => ⟨fun send => ?_, fun a as => ?_⟩,
    fun chk n a as s ha he => ⟨?_, ?_, ?_⟩, fun chk n pt onward s t running place moved => ?_,
    fun chk n x rest a as s t ha he moved => ?_, fun chk n a as s t ha he moved => ?_, fun chk n s => hsCompare_eq s,
    fun chk n s => ⟨hsStep_loop_of_done chk n, fun a as unfinished ha he => ⟨fun hf => ?_, fun hf => ?_⟩⟩⟩
  · rcases send with rfl | rfl <;> cases hi <;> exact hsSend_performs _ s
  · exact hsStep_performs chk n hi
  · rw [hsStep, hsTurn_took _ ha he]
    exact hsCommand_host (s := s.took a as) .sendA (setInt32_keeps .b0 _ _)
  · rw [hsStep, hsTurn_took _ ha he]
    exact hsCommand_host (s := s.took a as) .sendB (setInt32_keeps .b0 _ _)
  · rw [hsStep, hsTurn_took _ ha he]
    exact hsCommand_host (s := s.took a as) .loop (initDecoder_keeps _ _)
  · have move : SendMove onward s t := by
      rcases place with ⟨rfl, rfl⟩ | ⟨rfl, rfl⟩ <;> rw [moved] <;> exact hsSend_move _ running
    refine ⟨fun ok => ?_, fun c failed => ?_, move.of_silent, fun empty => ?_⟩
    · simpa using move.of_reply ok
    · simpa using move.of_reply failed
    · simpa using move.of_reply empty
  · have push : t = hsPush chk x rest (s.took a as) := moved.trans (hsTurn_took _ ha he)
    rw [push]
    exact ⟨fun answered => answered.elim (hsPush_host_of_going · nofun) (hsPush_host_of_going · nofun),
      fun c => hsPush_host_of_error⟩
  · have get : t = hsGet (s.took a as) := moved.trans (hsTurn_took _ ha he)
    rw [get]
    exact ⟨fun v => hsGet_host_of_value, hsGet_host_of_failure⟩
  · rw [hsStep_loop_of_not_done chk n unfinished, hsRead_of_fails ha he n hf]
    rfl
  · rw [hsStep_loop_of_not_done chk n unfinished, hsRead_of_not_fails ha he hf rfl]
    exact ⟨_, readCount_le_asked _ _ _, readCount_le_length _ _ _, readCount_of_inRange, rfl⟩

end Sys2Proof.Machine
end

section
/-! The whole handshake (43_handshake.md R171, 95_test_vectors.md S8, H1, H2): its moves one after another in an
environment in which both sends go well and the peer's frame arrives in one read. -/

namespace Sys2Proof.Machine

/-! ## A run of the host's moves -/

/-- The next move of the host, if a handshake runs. -/
def hsMove (chk : RxDoneCheck) (n : Nat) (s : State) : State :=
  match s.host.hs with
  | .running pt => hsStep chk n pt s
  | .idle => s
  | .ended _ => s

section
variable {chk : RxDoneCheck} {n : Nat} {s : State}

theorem hsMove_of_running {pt : HsPoint} (h : s.host.hs = .running pt) : hsMove chk n s = hsStep chk n pt s := by
  simp only [hsMove, h]

theorem hsMove_of_ended {r : HsResult} (h : s.host.hs = .ended r) : hsMove chk n s = s := by
  simp only [hsMove, h]

/-- HS.RUN is its start and then the host's moves, as many as `fuel` says. -/
theorem hsRun_eq_iterate (chk : RxDoneCheck) (n : Nat) (draw : Option (Word32 × Word32)) (fuel : Nat) (s : State) :
    hsRun chk n draw fuel s = (hsMove chk n)^[fuel] (hsBegin draw s) := by
  have move : hsRun chk n draw fuel s = (List.range fuel).foldl (fun t _ => hsMove chk n t) (hsBegin draw s) := by
    unfold hsRun
    congr 1
    funext t _
    unfold hsMove
    cases t.host.hs <;> rfl
  rw [move, List.foldl_const, List.length_range]

theorem iterate_hsMove_two (s : State) : (hsMove chk n)^[2] s = hsMove chk n (hsMove chk n s) := rfl

/-- A handshake that has ended stays as it is. -/
theorem iterate_hsMove_of_ended {t : State} {j m : Nat} {r : HsResult} (run : (hsMove chk n)^[j] s = t)
    (ended : t.host.hs = .ended r) (le : j ≤ m) : (hsMove chk n)^[m] s = t := by
  obtain ⟨d, rfl⟩ := Nat.exists_eq_add_of_le' le
  rw [Function.iterate_add_apply, run, Function.iterate_fixed (hsMove_of_ended ended)]

/-- A quiet answer brings nothing. -/
theorem took_quiet (s : State) (as : List LineAnswer) : s.took quiet as = s.withAnswers as := by
  simp [State.took, State.withAnswers, quiet, quietAnswer]

/-! ## Sending an operand (R164) -/

/-- What a `MB.SETI32 0, v` and the `TX.SEND 0` after it leave when both go well. -/
structure OperandSent (v : Word32) (onward : HsPoint) (as : List LineAnswer) (s t : State) : Prop where
  b0 : t.mem.b0 = bytes32 v
  pmode : t.tx.pmode = .space
  host : t.host = { s.host with hs := .running onward }
  lineTx : t.env.lineTx = s.env.lineTx ++ frameOf (bytes32 v)
  answers : t.env.answers = as
  rawRx : t.env.rawRx = s.env.rawRx

theorem setInt32_b0 (v : Word32) (s : State) : setInt32 .b0 v s = (.ok, s.setBuf .b0 (bytes32 v)) :=
  ownerCheck_free (not_held_b0 s) _

/-- A favourable environment puts the frame of the operand on the wire (R126). -/
theorem hsSend_operand (send onward : HsPoint) (v : Word32) {as : List LineAnswer}
    (ha : s.env.answers = favourable 4 ++ as) :
    OperandSent v onward as s (hsSend onward (hsCommand send (setInt32 .b0 v s))) := by
  have command : hsCommand send (setInt32 .b0 v s) = ((s.setBuf .b0 (bytes32 v)).cmdReply .ok).hsGoto send := by
    rw [hsCommand, setInt32_b0]
  have delivered := sendFrame_delivers (s := hsCommand send (setInt32 .b0 v s)) (sel := .b0) (c := 1) (w := 0)
    (by rw [command]; rfl) le_rfl (by rw [command]; exact ha)
  rw [hsSend_of_going delivered nofun, command]
  exact ⟨rfl, rfl, rfl, rfl, rfl, rfl⟩

/-- The two moves of an operand: `MB.SETI32 0` at `set`, then the send at `send`. -/
theorem operand_moves {set send onward : HsPoint} {v : Word32} {as : List LineAnswer}
    (running : s.host.hs = .running set)
    (first : hsStep chk n set s = hsCommand send (setInt32 .b0 v (s.took quiet (favourable 4 ++ as))))
    (second : ∀ t, hsStep chk n send t = hsSend onward t) :
    OperandSent v onward as s ((hsMove chk n)^[2] s) := by
  rw [took_quiet] at first
  rw [iterate_hsMove_two, hsMove_of_running running, first, hsMove_of_running (pt := send) rfl, second]
  obtain ⟨b0, pmode, host, lineTx, answers, rawRx⟩ :=
    hsSend_operand send onward v (s := s.withAnswers (favourable 4 ++ as)) (as := as) rfl
  exact ⟨b0, pmode, host, lineTx, answers, rawRx⟩

/-! ## The read loop on the peer's frame (R165, R166) -/

/-- The handshake begun in `s`, in its read loop: the host at `pt`, the payload `got`, `pushed` bytes accepted, and
`left` quiet answers to come. -/
def State.duringRead (s : State) (pt : HsPoint) (marked escaped : Bool) (got : List Byte) (pushed left : Nat) : State :=
  { s with
    mem := { s.mem with b1 := got }
    rx := { marked := marked, escaped := escaped, explen := 4, phase := .active, err := 0x00 }
    env := { s.env with answers := List.replicate left quiet }
    ports := { s.ports with rawOut := s.ports.rawOut ++ List.replicate pushed .ok }
    host := { s.host with hs := .running pt } }

end

section
variable {chk : RxDoneCheck} {n : Nat} {s : State} {pt : HsPoint} {mk es : Bool} {got : List Byte} {p k : Nat}

@[simp] theorem duringRead_rxDone : (s.duringRead pt mk es got p k).rxDone = decide (got.length = 4) := by
  simp [State.rxDone, State.duringRead]

@[simp] theorem duringRead_hsGoto (pt' : HsPoint) :
    (s.duringRead pt mk es got p k).hsGoto pt' = s.duringRead pt' mk es got p k := rfl

theorem duringRead_rawReply :
    (s.duringRead pt mk es got p k).rawReply .ok = s.duringRead pt mk es got (p + 1) k := by
  simp [State.duringRead, State.rawReply, List.replicate_succ']

theorem duringRead_took : (s.duringRead pt mk es got p (k + 1)).took quiet (List.replicate k quiet) =
    s.duringRead pt mk es got p k := by
  rw [took_quiet]
  rfl

/-- A move of the read loop takes the next quiet answer. -/
theorem hsTurn_duringRead (f : State → State) :
    hsTurn (s.duringRead pt mk es got p (k + 1)) f = f (s.duringRead pt mk es got p k) := by
  rw [hsTurn_took f (a := quiet) (as := List.replicate k quiet) rfl rfl, duringRead_took]

/-- A push that is accepted. -/
theorem hsMove_push {x : Byte} {rest : List Byte} {mk' es' : Bool} {got' : List Byte}
    (h : ∀ pt, rxPush x (s.duringRead pt mk es got p k) = (.ok, s.duringRead pt mk' es' got' p k)) :
    hsMove chk n (s.duringRead (.push (x :: rest)) mk es got p (k + 1)) =
      s.duringRead (afterPush chk rest (decide (got'.length = 4))) mk' es' got' (p + 1) k := by
  rw [hsMove_of_running (pt := .push (x :: rest)) rfl, hsStep, hsTurn_duringRead, hsPush_of_going (h _) nofun,
    duringRead_rxDone, duringRead_rawReply, duringRead_hsGoto]

/-- While the payload is not complete the host pushes on. -/
theorem afterPush_of_not_done {rest : List Byte} (h : rest ≠ []) : afterPush chk rest false = .push rest := by
  simp [afterPush, h]

theorem rxPush_esc (pt : HsPoint) : rxPush Config.esc (s.duringRead pt mk false got p k) =
    (.ok, s.duringRead pt mk true got p k) := by
  rw [rxPush_unescaped_esc rfl, ifActive_of rfl]
  rfl

theorem rxPush_mark (pt : HsPoint) : rxPush Config.markCode (s.duringRead pt false true got p k) =
    (.ok, s.duringRead pt true false got p k) := by
  rw [rxPush_escaped_mark rfl, ifActive_of rfl]
  rfl

section
variable (room : got.length < 4)
include room

theorem payload_duringRead (v : Byte) (pt : HsPoint) : payload v (s.duringRead pt true es got p k) =
    (.ok, s.duringRead pt true es (got ++ [v]) p k) :=
  payload_of_fits (s := s.duringRead pt true es got p k) (by simp [State.duringRead]) rfl room

theorem rxPush_data {d : Byte} (ordinary : d ≠ Config.esc) (pt : HsPoint) :
    rxPush d (s.duringRead pt true false got p k) = (.ok, s.duringRead pt true false (got ++ [d]) p k) := by
  rw [rxPush_unescaped_data rfl ordinary, ifActive_of rfl]
  exact payload_duringRead room d pt

theorem rxPush_literal (pt : HsPoint) : rxPush Config.esc (s.duringRead pt true true got p k) =
    (.ok, s.duringRead pt true false (got ++ [Config.esc]) p k) := by
  rw [rxPush_escaped_esc rfl, ifActive_of rfl]
  exact payload_duringRead room Config.esc pt

/-- The report of one byte is one push, or two when it is doubled (R54, R68). -/
theorem iterate_hsMove_byte (d : Byte) (rest : List Byte) :
    (hsMove chk n)^[(escapeByte d).length]
        (s.duringRead (.push (escapeByte d ++ rest)) true false got p (k + (escapeByte d).length)) =
      s.duringRead (afterPush chk rest (decide (got.length + 1 = 4))) true false (got ++ [d])
        (p + (escapeByte d).length) k := by
  have complete : (got ++ [d]).length = got.length + 1 := List.length_append
  by_cases special : d = Config.esc
  · have report : escapeByte d = [Config.esc, Config.esc] := if_pos special
    have partway : decide (got.length = 4) = false := decide_eq_false (by omega)
    subst special
    rw [report]
    show (hsMove chk n)^[2] (s.duringRead (.push (Config.esc :: Config.esc :: rest)) true false got p (k + 2)) = _
    rw [iterate_hsMove_two, hsMove_push rxPush_esc, partway, afterPush_of_not_done (List.cons_ne_nil _ _),
      hsMove_push (rxPush_literal room), complete]
    rfl
  · have report : escapeByte d = [d] := if_neg special
    rw [report, ← complete]
    exact hsMove_push (n := n) (rxPush_data room special)

end

theorem flatMap_escapeByte_ne_nil {m : List Byte} (h : m ≠ []) : m.flatMap escapeByte ≠ [] := by
  obtain ⟨d, ds, rfl⟩ := List.exists_cons_of_ne_nil h
  rw [List.flatMap_cons, escapeByte]
  split <;> simp

/-- The driver's report of a message has at most two bytes for each of its own. -/
theorem length_flatMap_escapeByte_le (m : List Byte) : (m.flatMap escapeByte).length ≤ 2 * m.length := by
  induction m with
  | nil => simp
  | cons d ds ih =>
    have byte : (escapeByte d).length ≤ 2 := by
      rw [escapeByte]
      split <;> simp
    rw [List.flatMap_cons, List.length_append, List.length_cons]
    omega

/-- The report of the start marker is two pushes. -/
theorem iterate_hsMove_marker {rest : List Byte} (more : rest ≠ []) :
    (hsMove chk n)^[2] (s.duringRead (.push (Config.esc :: Config.markCode :: rest)) false false [] p (k + 2)) =
      s.duringRead (.push rest) true false [] (p + 2) k := by
  rw [iterate_hsMove_two, hsMove_push rxPush_esc]
  show hsMove chk n (s.duringRead (afterPush chk _ false) _ _ _ _ _) = _
  rw [afterPush_of_not_done (List.cons_ne_nil _ _), hsMove_push rxPush_mark]
  show s.duringRead (afterPush chk _ false) _ _ _ _ _ = _
  rw [afterPush_of_not_done more]

/-- The reports of the bytes of a message that completes the payload; only after the last of them is `rx_done` true. -/
theorem iterate_hsMove_message {m : List Byte} (hne : m ≠ []) (hlen : got.length + m.length = 4) :
    (hsMove chk n)^[(m.flatMap escapeByte).length]
        (s.duringRead (.push (m.flatMap escapeByte)) true false got p (k + (m.flatMap escapeByte).length)) =
      s.duringRead (afterPush chk [] true) true false (got ++ m) (p + (m.flatMap escapeByte).length) k := by
  induction m generalizing got p with
  | nil => exact absurd rfl hne
  | cons d ds ih =>
    rw [List.length_cons] at hlen
    have regroup : k + (escapeByte d ++ ds.flatMap escapeByte).length =
        k + (ds.flatMap escapeByte).length + (escapeByte d).length := by
      rw [List.length_append]; omega
    rw [List.flatMap_cons, regroup, List.length_append, Nat.add_comm (escapeByte d).length, Function.iterate_add_apply,
      iterate_hsMove_byte (by omega)]
    by_cases last : ds = []
    · subst last
      have done : decide (got.length + 1 = 4) = true := decide_eq_true hlen
      rw [done]
      simp
    · have undone : decide (got.length + 1 = 4) = false := by
        have := List.length_pos_iff.2 last
        exact decide_eq_false (by omega)
      rw [undone, afterPush_of_not_done (flatMap_escapeByte_ne_nil last),
        ih last (by rw [List.length_append, List.length_singleton]; omega),
        List.append_assoc, List.singleton_append, Nat.add_right_comm p, Nat.add_assoc p]

/-! ## The end of the loop, the sum and the comparison (R166 to R168) -/

/-- The result of comparing the received number with the sum (R168). -/
def compareSums (received expected : Word32) : HsResult :=
  if received = expected then .success else .verificationError received expected

/-- The end of a handshake that received `v`. -/
def State.verified (s : State) (v : Word32) : State :=
  ((s.cmdReply (.val (.int32 v))).setReceived v).hsEnd (compareSums v s.host.expectedSum)

theorem iterate_hsMove_get {v : Word32} : (hsMove chk n)^[2] (s.duringRead .get mk es (bytes32 v) p (k + 1)) =
    (s.duringRead .get mk es (bytes32 v) p k).verified v := by
  have sum := hsGet_of_value (getInt32_of_bytes32 (sel := .b1) (s := s.duringRead .get mk es (bytes32 v) p k) rfl)
  have get : hsMove chk n (s.duringRead .get mk es (bytes32 v) p (k + 1)) = _ :=
    (hsMove_of_running (pt := .get) rfl).trans ((hsTurn_duringRead hsGet).trans sum)
  rw [iterate_hsMove_two, get, hsMove_of_running (pt := .compare) rfl, hsStep, hsCompare_eq]
  rfl

/-- With the payload complete the handshake ends in two moves more, or in three when the host looks at `rx_done` at the
top of the loop only (R166). -/
theorem handshake_verifies {v : Word32} : ∃ j ≤ 3,
    (hsMove chk n)^[j] (s.duringRead (afterPush chk [] true) mk es (bytes32 v) p (k + 1)) =
      (s.duringRead .get mk es (bytes32 v) p k).verified v := by
  cases chk with
  | perByte => exact ⟨2, by decide, iterate_hsMove_get⟩
  | perChunk =>
    have top : hsMove .perChunk n (s.duringRead .loop mk es (bytes32 v) p (k + 1)) =
        s.duringRead .get mk es (bytes32 v) p (k + 1) := by
      rw [hsMove_of_running (pt := .loop) rfl, hsStep_loop_of_done _ _ duringRead_rxDone, duringRead_hsGoto]
    refine ⟨3, le_rfl, ?_⟩
    show (hsMove .perChunk n)^[2] (hsMove .perChunk n (s.duringRead .loop mk es (bytes32 v) p (k + 1))) = _
    rw [top]
    exact iterate_hsMove_get

end

/-! ## The whole handshake -/

section
variable {chk : RxDoneCheck} {n : Nat} {s : State}

/-- The answer of a read that brings these raw bytes. -/
def arrival (bs : List Byte) : LineAnswer := { quietAnswer false bs.length 0 with arrived := bs }

theorem initDecoder_four (s : State) :
    initDecoder (Config.expLenDefault.setWidth 16) s = (.ok, freshDecoder 4 s) := rfl

/-- The read that brings the peer's frame as one chunk. -/
theorem hsStep_loop_arrival {bs : List Byte} {as : List LineAnswer} (undone : s.rxDone = false)
    (empty : s.env.rawRx = []) (hne : bs ≠ []) (hlen : bs.length ≤ n) (ha : s.env.answers = arrival bs :: as) :
    hsStep chk n .loop s = ((s.withAnswers as).logOp (.readBytes n (some bs))).hsGoto (.push bs) := by
  have waiting : s.env.rawRx ++ (arrival bs).arrived = bs := by
    rw [empty]; rfl
  have whole : bs.length = readCount n (arrival bs) (s.env.rawRx ++ (arrival bs).arrived) := by
    have count : (arrival bs).count.toNat = bs.length := rfl
    rw [waiting, readCount, count]
    omega
  have some_read : ¬ bs.length = 0 := by simpa using hne
  rw [hsStep_loop_of_not_done chk n undone, hsRead_of_not_fails ha rfl rfl whole, waiting, if_neg some_read,
    List.take_length, List.drop_length, ← empty]
  rfl

/-- What the host's moves up to `RX.INIT` leave when both sends go well. -/
structure OperandsSent (x y : Word32) (as : List LineAnswer) (s t : State) : Prop where
  running : t.host.hs = .running .init
  expectedSum : t.host.expectedSum = x + y
  b0 : t.mem.b0 = bytes32 y
  pmode : t.tx.pmode = .space
  lineTx : t.env.lineTx = s.env.lineTx ++ frameOf (bytes32 x) ++ frameOf (bytes32 y)
  answers : t.env.answers = as
  rawRx : t.env.rawRx = s.env.rawRx

theorem operands_moves {x y : Word32} {as : List LineAnswer}
    (ha : s.env.answers = quiet :: (favourable 4 ++ quiet :: (favourable 4 ++ as))) :
    OperandsSent x y as s ((hsMove chk n)^[4] (hsBegin (some (x, y)) s)) := by
  have sentA : OperandSent x .setB _ _ ((hsMove chk n)^[2] (hsBegin (some (x, y)) s)) :=
    operand_moves rfl (hsTurn_took _ ha rfl) fun _ => rfl
  rw [Function.iterate_add_apply _ 2 2]
  generalize (hsMove chk n)^[2] (hsBegin (some (x, y)) s) = t at sentA ⊢
  have setB : hsStep chk n .setB t = hsCommand .sendB (setInt32 .b0 y (t.took quiet (favourable 4 ++ as))) := by
    rw [hsStep, hsTurn_took _ sentA.answers rfl, took_host, sentA.host]
    rfl
  have sentB : OperandSent y .init as t ((hsMove chk n)^[2] t) :=
    operand_moves (by rw [sentA.host]) setB fun _ => rfl
  refine ⟨?_, ?_, sentB.b0, sentB.pmode, ?_, sentB.answers, sentB.rawRx.trans sentA.rawRx⟩
  · rw [sentB.host]
  · rw [sentB.host, sentA.host]
    rfl
  · rw [sentB.lineTx, sentA.lineTx]
    rfl

/-- `RX.INIT 4`, then the read (R165). -/
theorem read_moves {bs : List Byte} {k : Nat} (running : s.host.hs = .running .init) (empty : s.env.rawRx = [])
    (hne : bs ≠ []) (hlen : bs.length ≤ n) (ha : s.env.answers = quiet :: arrival bs :: List.replicate k quiet) :
    (hsMove chk n)^[2] s =
      ((s.cmdReply .ok).logOp (.readBytes n (some bs))).duringRead (.push bs) false false [] 0 k := by
  have init : hsMove chk n s =
      ((freshDecoder 4 (s.withAnswers (arrival bs :: List.replicate k quiet))).cmdReply .ok).hsGoto .loop := by
    rw [hsMove_of_running running, hsStep, hsTurn_took _ ha rfl, took_quiet, initDecoder_four, hsCommand]
  rw [iterate_hsMove_two, init, hsMove_of_running (pt := .loop) rfl]
  refine Eq.trans (hsStep_loop_arrival (as := List.replicate k quiet) rfl empty hne hlen rfl) ?_
  simp only [State.duringRead, List.replicate_zero, List.append_nil]
  rfl

theorem bytes32_ne_nil (v : Word32) : bytes32 v ≠ [] := List.cons_ne_nil _ _

/-- The driver's report of a frame of four bytes has at most ten bytes (R54). -/
theorem length_report_le (v : Word32) : (rawOfChars (frameOf (bytes32 v))).length ≤ 10 := by
  have bytes : ((bytes32 v).flatMap escapeByte).length ≤ 8 := length_flatMap_escapeByte_le (bytes32 v)
  rw [rawOfChars_frameOf (bytes32_ne_nil v), List.length_cons, List.length_cons]
  omega

/-- The pushes of the peer's frame, to the end of the handshake. -/
theorem report_moves (chk : RxDoneCheck) (n : Nat) (v : Word32) (s : State) :
    ∃ j ≤ 13, ∃ p left, (hsMove chk n)^[j]
        (s.duringRead (.push (rawOfChars (frameOf (bytes32 v)))) false false [] 0 11) =
      (s.duringRead .get true false (bytes32 v) p left).verified v := by
  have bound := length_report_le v
  rw [rawOfChars_frameOf (bytes32_ne_nil v)] at bound ⊢
  generalize hL : ((bytes32 v).flatMap escapeByte).length = L at bound
  rw [List.length_cons, List.length_cons, hL] at bound
  obtain ⟨left, answers⟩ : ∃ left, 11 = left + 1 + L + 2 := ⟨8 - L, by omega⟩
  obtain ⟨j, hj, verified⟩ := handshake_verifies (chk := chk) (n := n) (s := s) (mk := true) (es := false)
    (p := 0 + 2 + L) (k := left) (v := v)
  refine ⟨j + (L + 2), by omega, 0 + 2 + L, left, ?_⟩
  rw [answers, Function.iterate_add_apply, Function.iterate_add_apply,
    iterate_hsMove_marker (flatMap_escapeByte_ne_nil (bytes32_ne_nil v)), ← hL,
    iterate_hsMove_message (bytes32_ne_nil v) rfl, hL]
  exact verified

/-- From `RX.INIT` to the end, the peer's frame arriving in one read. -/
theorem answer_moves {v : Word32} (running : s.host.hs = .running .init) (empty : s.env.rawRx = []) (hn : 10 ≤ n)
    (ha : s.env.answers = quiet :: arrival (rawOfChars (frameOf (bytes32 v))) :: List.replicate 11 quiet) :
    ∃ j ≤ 15, ∃ op p left, (hsMove chk n)^[j] s =
      (((s.cmdReply .ok).logOp op).duringRead .get true false (bytes32 v) p left).verified v := by
  have some_report : rawOfChars (frameOf (bytes32 v)) ≠ [] := by
    rw [rawOfChars_frameOf (bytes32_ne_nil v)]
    exact List.cons_ne_nil _ _
  have read := read_moves (chk := chk) running empty some_report ((length_report_le v).trans hn) ha
  obtain ⟨j, hj, p, left, verified⟩ := report_moves chk n v
    ((s.cmdReply .ok).logOp (.readBytes n (some (rawOfChars (frameOf (bytes32 v))))))
  exact ⟨j + 2, by omega, _, p, left, by rw [Function.iterate_add_apply, read, verified]⟩

end

/-- Settles O60: the operands, then the peer's answer, in at most 19 moves. -/
theorem handshakeVerifiesSum : Obligations.HandshakeVerifiesSum := by
  intro chk n x y v s hn empty ha
  have answers : s.env.answers = quiet :: (favourable 4 ++ quiet :: (favourable 4 ++
      (quiet :: arrival (rawOfChars (frameOf (bytes32 v))) :: List.replicate 11 quiet))) := by
    rw [ha, handshakeAnswers, List.append_assoc]
    rfl
  have sent := operands_moves (chk := chk) (n := n) (x := x) (y := y) answers
  obtain ⟨j, hj, op, p, left, verified⟩ :=
    answer_moves (chk := chk) sent.running (sent.rawRx.trans empty) hn sent.answers
  have run := (Function.iterate_add_apply _ j 4 _).trans verified
  refine ⟨_, rfl, ?_⟩
  rw [hsRun_eq_iterate, iterate_hsMove_of_ended run rfl (by omega)]
  refine ⟨?_, sent.b0, rfl, rfl, sent.pmode, sent.lineTx⟩
  exact congrArg (fun e => Hs.ended (compareSums v e)) sent.expectedSum

end Sys2Proof.Machine
end

section
/-! The deadline and the absence of stops (60_exceptions.md): what a deadline event does in each case, where it cuts a
`TX.SEND`, and that an instruction or a step always has a next state. -/

namespace Sys2Proof.Machine

/-! ## What the deadline event does (R169, R187) -/

section
variable {s : State} {pt : HsPoint}

/-- Before step 4 `rx_done` plays no part (log 6); in it, a handshake is spared exactly when it is done. -/
theorem deadlineCuts_of_running (armed : s.env.alarm = .armed) (running : s.host.hs = .running pt) :
    s.deadlineCuts = !(pt.inReceive && s.rxDone) := by
  rw [State.deadlineCuts, armed, running]

theorem deadlineCuts_of_not_running (h : ∀ pt, s.host.hs ≠ .running pt) : s.deadlineCuts = false := by
  unfold State.deadlineCuts
  split
  · next running => exact absurd running (h _)
  · rfl

/-- A deadline that spares what runs fires the alarm and does nothing else (R190). -/
theorem deliverDeadline_of_spares (armed : s.env.alarm = .armed) (spares : s.deadlineCuts = false) :
    deliverDeadline s = { s with env := { s.env with alarm := .fired } } := by
  rw [deliverDeadline_of_not_cuts spares, armed]

end

/-- Settles O54: the deadline cuts in the first case, and spares what runs in the other two. -/
theorem deadlineEndsUnfinishedHandshake : Obligations.DeadlineEndsUnfinishedHandshake := by
  refine fun s armed => ⟨fun pt running unfinished => ?_, fun pt running done receiving => ?_, fun idle => ?_⟩
  · have cuts : s.deadlineCuts = true := by
      rw [deadlineCuts_of_running armed running]
      rcases unfinished with h | h <;> simp [h]
    exact deliverDeadline_of_cuts cuts
  · have spares : s.deadlineCuts = false := by
      rw [deadlineCuts_of_running armed running, receiving, done]
      rfl
    exact deliverDeadline_of_spares armed spares
  · exact deliverDeadline_of_spares armed (deadlineCuts_of_not_running idle)

/-! ## The deadline inside a send (R187, E16) -/

section
variable {s : State} {sel : BufSel} {pos : TxStep} {m : PMode} {chars : List LineChar} {ops : List LineOp}
  {a : LineAnswer} {as : List LineAnswer}

theorem nextTurn_of_deadlineCuts (cuts : s.deadlineCuts = true) (ha : s.env.answers = a :: as)
    (he : a.event = some .deadline) : nextTurn s = .cutOff (deliverDeadline (s.took a as)) := by
  have answer : s.nextAnswer = a := by rw [State.nextAnswer, ha]
  have taken : s.takeAnswer = s.took a as := by rw [State.takeAnswer, ha]; rfl
  have still_cuts : (s.took a as).deadlineCuts = true := cuts
  rw [nextTurn, answer, he, taken]
  exact if_pos still_cuts

/-- A send on its way is cut exactly where the state it began in would be. -/
theorem duringSend_deadlineCuts : (s.duringSend sel pos m chars ops as).deadlineCuts = s.deadlineCuts := rfl

@[simp] theorem duringSend_setTxStep (pos' : TxStep) :
    (s.duringSend sel pos m chars ops as).setTxStep pos' = s.duringSend sel pos' m chars ops as := rfl

theorem duringSend_took (nothing : a.arrived = []) :
    (s.duringSend sel pos m chars ops (a :: as)).took a as = s.duringSend sel pos m chars ops as := by
  simp [State.took, State.duringSend, nothing]

/-- A step of a send is not performed when the deadline falls before it. -/
theorem sendStep_of_deadlineCuts (cuts : s.deadlineCuts = true) (he : a.event = some .deadline)
    (nothing : a.arrived = []) (pos' : TxStep) (k : LineAnswer → State → SendEnd) :
    sendStep pos' (s.duringSend sel pos m chars ops (a :: as)) k =
      .abandoned (deliverDeadline (s.duringSend sel pos' m chars ops as)) := by
  rw [sendStep, duringSend_setTxStep, nextTurn_of_deadlineCuts (duringSend_deadlineCuts.trans cuts) rfl he,
    duringSend_took nothing]

/-- A send that returns no response, as the meaning of its command (log 22). -/
theorem exec_txSend_of_abandoned {t : State} (h : sendFrame sel s = .abandoned t) : exec (.txSend sel) s = .next t := by
  rw [exec, execTxSend, h, SendEnd.state]

end

/-- Settles O23: steps 1 to 3, then the deadline in place of step 4. -/
theorem deadlineCutsSend : Obligations.DeadlineCutsSend := by
  intro sel d ds pt rest s hbuf running before_receive armed ha
  have cuts : s.deadlineCuts = true := by
    rw [deadlineCuts_of_running armed running, before_receive]
    rfl
  have run : sendFrame sel s = .abandoned (deliverDeadline (s.duringSend sel .step4 .mark [⟨true, d⟩]
      [.setParityMark true, .writeBytes [d] (some 1), .delay] rest)) := by
    rw [sendFrame_marked hbuf le_rfl ha, sendStep4, sendStep_of_deadlineCuts cuts rfl rfl]
    rfl
  refine ⟨_, exec_txSend_of_abandoned run, ?_⟩
  rw [deliverDeadline_of_cuts (duringSend_deadlineCuts.trans cuts)]
  exact ⟨rfl, rfl, rfl, rfl, rfl, rfl, rfl⟩

/-! ## Nothing stops the machine (R191, R193; log 1) -/

/-- Every instruction answers on one of the two ports, ends its send, or puts its character on the wire. -/
theorem exec_next (i : Instr) (s : State) : ∃ t, exec i s = .next t := by
  cases i with
  | mbAppend | mbAppendb | mbReset | mbLen | mbCap | mbSeti32 | mbGeti32 | mbCksum | mbSetctl | mbEq | mbHex | rxInit
  | rxDrop => exact ⟨_, rfl⟩
  | txSend sel => exact ⟨(sendFrame sel s).state, rfl⟩
  | rawEsc | rawData | rawMark | rawLitff | rawBadesc => exact ⟨_, rfl⟩
  | wireMark d => exact ⟨_, exec_wireMark d s⟩
  | wireSpace d => exact ⟨_, exec_wireSpace d s⟩

/-- A reserved opcode is answered, and a command that has not arrived in full waits (R75, log 12). -/
theorem takeCommand_next (s : State) : ∃ t, takeCommand s = .next t := by
  unfold takeCommand
  split
  · exact exec_next _ _
  · exact ⟨_, rfl⟩
  · exact ⟨s, rfl⟩

theorem takeRaw_next (s : State) : ∃ t, takeRaw s = .next t := by
  unfold takeRaw
  split
  · exact ⟨s, rfl⟩
  · exact exec_next _ _

theorem serve_next (m : Move) (s : State) : ∃ t, serve m s = .next t := by
  cases m with
  | cmd => exact takeCommand_next s
  | raw => exact takeRaw_next s
  | wire ch => exact exec_next (decodeWire ch) s
  | readLine => exact ⟨takeReadLine s, rfl⟩
  | hsRun draw => exact ⟨hsBegin draw s, rfl⟩
  | deadline => exact ⟨deliverDeadline s, rfl⟩
  | reset => exact ⟨resetBlock s, rfl⟩

/-- A send that goes on, a move of the handshake, a wait and a request all lead to a state. -/
theorem step_next (s : State) : ∃ t, step s = .next t := by
  by_cases idle : s.tx.txStep = .idle
  · by_cases running : ∃ pt, s.host.hs = .running pt
    · obtain ⟨pt, running⟩ := running
      exact ⟨_, step_of_running idle running⟩
    · have free : s.Free := ⟨idle, not_exists.1 running⟩
      cases asked : s.ports.moves with
      | nil => exact ⟨s, step_of_waiting free asked⟩
      | cons m ms =>
        rw [step_of_free free asked]
        exact serve_next m _
  · exact ⟨_, step_of_sending idle⟩

/-- Settles O52: an error is a response, for an instruction and for a step. -/
theorem nothingStopsTheMachine : Obligations.NothingStopsTheMachine := ⟨exec_next, step_next⟩

end Sys2Proof.Machine
end

section
/-! Reset (70_reset_and_hazards.md R211), and the absence of hangs (R224, D24): on a fair run something ends the read
loop, and from there the handshake ends. -/

namespace Sys2Proof.Machine

/-! ## The reset input (R211) -/

/-- Settles O51: the request is served by the reset of the block. -/
theorem resetInputRestoresBlock : Obligations.ResetInputRestoresBlock :=
  fun _ _ free asked => ⟨_, step_of_free free asked, rfl, rfl, rfl, rfl⟩

/-! ## Where a deadline would cut (R169, R187)

`State.deadlineCuts` is "the alarm is armed and the loop is not over", so a run that waits for the end of the loop is one
in which it stays true. -/

section
variable {s t : State}

theorem deadlineCuts_iff_not_loopOver : s.deadlineCuts = true ↔ s.env.alarm = .armed ∧ ¬ s.LoopOver := by
  by_cases hr : ∃ pt, s.host.hs = .running pt
  · obtain ⟨pt, running⟩ := hr
    cases armed : s.env.alarm with
    | armed => simp [deadlineCuts_of_running armed running, State.LoopOver, running, imp_iff_not_or]
    | off | fired => simp [State.deadlineCuts, armed]
  · have idle := not_exists.1 hr
    simp [deadlineCuts_of_not_running idle, State.LoopOver, idle]

theorem armed_of_deadlineCuts (cuts : s.deadlineCuts = true) : s.env.alarm = .armed :=
  (deadlineCuts_iff_not_loopOver.1 cuts).1

/-- What an interaction of the line leaves alone decides, with the alarm, whether a deadline cuts. -/
theorem LineGrows.deadlineCuts (grows : LineGrows s t) (alarm : t.env.alarm = s.env.alarm) :
    t.deadlineCuts = s.deadlineCuts := by
  simp only [State.deadlineCuts, State.rxDone, grows.mem, grows.rx, grows.host, alarm]

/-- The alarm has not fired, or it has and the handshake has ended with it. -/
def State.ArmedOrTimedOut (s : State) : Prop := s.env.alarm = .armed ∨ s.host.hs = .ended .timeoutError

theorem CutBy.armedOrTimedOut (armed : s.env.alarm = .armed) (h : CutBy s t) : t.ArmedOrTimedOut := by
  cases h with
  | reset _ _ _ _ _ alarm => exact .inl (alarm.trans armed)
  | deadline _ _ _ _ host => exact .inr (by rw [host])

/-- Where a deadline would cut, an interaction that goes on is one before which nothing falls. -/
theorem nextTurn_goesOn_alarm {a : LineAnswer} (cuts : s.deadlineCuts = true) (h : nextTurn s = .goesOn a t) :
    t.env.alarm = s.env.alarm := by
  have still : s.takeAnswer.deadlineCuts = true := by
    simpa only [State.deadlineCuts, State.rxDone, takeAnswer_mem, takeAnswer_rx, takeAnswer_host, takeAnswer_alarm]
      using cuts
  unfold nextTurn at h
  split at h
  · cases h
    exact takeAnswer_alarm s
  · cases h
  · rw [if_pos still] at h
    cases h

end

/-! ## A send of a handshake whose alarm is armed (R187) -/

/-- The end of a send during which the alarm has not fired, or has fired and abandoned it. -/
inductive SendInTime : SendEnd → Prop where
  | finished {r : Response} {t : State} (armed : t.env.alarm = .armed) : SendInTime (.finished r t)
  | abandoned {t : State} (h : t.ArmedOrTimedOut) : SendInTime (.abandoned t)

section
variable {s : State} (cuts : s.deadlineCuts = true)
include cuts

theorem endSend_inTime (r : Response) : SendInTime (endSend r s) := .finished (armed_of_deadlineCuts cuts)

theorem lineWriteBytes_deadlineCuts (bs : List Byte) (a : LineAnswer) :
    (lineWriteBytes bs a s).2.deadlineCuts = true :=
  ((lineWriteBytes_grows bs a s).deadlineCuts (emitAll_alarm _ s)).trans cuts

/-- One step of the send: what it does is done only when nothing falls before it. -/
theorem sendStep_inTime (pos : TxStep) {k : LineAnswer → State → SendEnd}
    (hk : ∀ a t, t.deadlineCuts = true → SendInTime (k a t)) : SendInTime (sendStep pos s k) := by
  have begun : (s.setTxStep pos).deadlineCuts = true := cuts
  unfold sendStep
  split
  · next cut => exact .abandoned ((nextTurn_cutOff cut).armedOrTimedOut (armed_of_deadlineCuts begun))
  · next a t on =>
    exact hk a t (((nextTurn_goesOn on).1.deadlineCuts (nextTurn_goesOn_alarm begun on)).trans begun)

theorem sendStep6_inTime : SendInTime (sendStep6 s) :=
  sendStep_inTime cuts _ fun _ t h => endSend_inTime (s := lineDelay t) h _

theorem sendStep5_inTime : SendInTime (sendStep5 s) := by
  unfold sendStep5
  split
  · refine sendStep_inTime cuts _ fun a t h => ?_
    have written := lineWriteBytes_deadlineCuts h (s.sending.drop 1) a
    dsimp only
    split
    · exact sendStep6_inTime written
    · exact endSend_inTime written _
  · exact sendStep6_inTime cuts

theorem sendStep4_inTime : SendInTime (sendStep4 s) := by
  refine sendStep_inTime cuts _ fun a t h => ?_
  have switched : (lineSetParitySpace a t).2.deadlineCuts = true := h
  dsimp only
  split
  · exact sendStep5_inTime switched
  · exact endSend_inTime switched _

theorem sendStep3_inTime : SendInTime (sendStep3 s) :=
  sendStep_inTime cuts _ fun _ t h => sendStep4_inTime (s := lineDelay t) h

theorem sendStep2_inTime : SendInTime (sendStep2 s) := by
  refine sendStep_inTime cuts _ fun a t h => ?_
  have written := lineWriteBytes_deadlineCuts h (s.sending.take 1) a
  dsimp only
  split
  · exact endSend_inTime written _
  · split
    · exact endSend_inTime written _
    · exact sendStep3_inTime written

theorem sendStep1_inTime : SendInTime (sendStep1 s) := by
  refine sendStep_inTime cuts _ fun a t h => ?_
  have switched : (lineSetParityMark a t).2.deadlineCuts = true := h
  dsimp only
  split
  · exact sendStep2_inTime switched
  · exact endSend_inTime switched _

theorem sendFrame_inTime (sel : BufSel) : SendInTime (sendFrame sel s) := by
  unfold sendFrame
  split
  · exact .finished (armed_of_deadlineCuts cuts)
  · exact sendStep1_inTime (s := { s with tx := { s.tx with txSel := sel } }) cuts

/-! ## The moves of a handshake whose loop is not over -/

theorem hsSend_armedOrTimedOut (onward : HsPoint) : (hsSend onward s).ArmedOrTimedOut := by
  have env := hsSend_env onward s
  have inTime := sendFrame_inTime cuts .b0
  generalize e : sendFrame .b0 s = ended at env inTime
  cases inTime with
  | finished armed => exact .inl ((congrArg Environment.alarm env).trans armed)
  | abandoned h =>
    rcases h with armed | timedOut
    · exact .inl ((congrArg Environment.alarm env).trans armed)
    · exact .inr (by rw [hsSend_of_abandoned_ended e timedOut, timedOut])

theorem hsTurn_armedOrTimedOut {k : State → State} (hk : ∀ t, (k t).env = t.env) : (hsTurn s k).ArmedOrTimedOut := by
  have armed := armed_of_deadlineCuts cuts
  unfold hsTurn
  split
  · next cut => exact (nextTurn_cutOff cut).armedOrTimedOut armed
  · next on => exact .inl (by rw [hk, nextTurn_goesOn_alarm cuts on, armed])

theorem hsRead_armedOrTimedOut (n : Nat) : (hsRead n s).ArmedOrTimedOut := by
  have armed := armed_of_deadlineCuts cuts
  unfold hsRead
  split
  · next cut => exact (nextTurn_cutOff cut).armedOrTimedOut armed
  · next a t on =>
    have read : (lineReadBytes n a t).2.env.alarm = .armed := by
      rw [← armed, ← nextTurn_goesOn_alarm cuts on]
      unfold lineReadBytes
      split <;> rfl
    split
    all_goals
      next e =>
        rw [e] at read
        exact .inl read

/-- No move of the host lets the alarm fire and the handshake go on. -/
theorem hsStep_armedOrTimedOut (chk : RxDoneCheck) (n : Nat) (pt : HsPoint) :
    (hsStep chk n pt s).ArmedOrTimedOut := by
  have armed := armed_of_deadlineCuts cuts
  cases pt with
  | setA => exact hsTurn_armedOrTimedOut cuts fun t => (setInt32_keeps .b0 t.host.a t).env
  | setB => exact hsTurn_armedOrTimedOut cuts fun t => (setInt32_keeps .b0 t.host.b t).env
  | sendA | sendB => exact hsSend_armedOrTimedOut cuts _
  | init => exact hsTurn_armedOrTimedOut cuts fun t => (initDecoder_keeps _ t).env
  | loop =>
    show (if s.rxDone then s.hsGoto .get else hsRead n s).ArmedOrTimedOut
    split
    · exact .inl armed
    · exact hsRead_armedOrTimedOut cuts n
  | push chunk =>
    cases chunk with
    | nil => exact .inl armed
    | cons x rest => exact hsTurn_armedOrTimedOut cuts (hsPush_env chk x rest)
  | get => exact hsTurn_armedOrTimedOut cuts hsGet_env
  | compare => exact .inl ((congrArg Environment.alarm (hsCompare_env s)).trans armed)
  | stalled => exact hsTurn_armedOrTimedOut cuts fun _ => rfl

end

/-! ## The run to the end of the loop (R224) -/

section
variable {s t : State}

/-- No send is in progress between two steps (R26). -/
theorem step_keeps_idle (idle : s.tx.txStep = .idle) (h : step s = .next t) : t.tx.txStep = .idle := by
  rcases step_confinedOrReset h with confined | reset
  · exact confined.idle idle
  · exact (t.good_iff.1 (good_of_block_reset reset)).2

/-- The handshake runs, its alarm is armed and nothing has ended its loop. -/
structure State.Awaiting (s : State) : Prop where
  idle : s.tx.txStep = .idle
  cuts : s.deadlineCuts = true

/-- While the loop is awaited, the next step ends it or leaves it awaited. -/
theorem State.Awaiting.step_cases (h : s.Awaiting) (moved : step s = .next t) : t.LoopOver ∨ t.Awaiting := by
  obtain ⟨_, notOver⟩ := deadlineCuts_iff_not_loopOver.1 h.cuts
  obtain ⟨pt, running⟩ : ∃ pt, s.host.hs = .running pt := by
    by_contra idle
    exact notOver (.inl (not_exists.1 idle))
  have move : t = hsStep Config.rxDoneCheck Config.rxChunkMax pt s := by
    rw [step_of_running h.idle running] at moved
    cases moved
    rfl
  by_cases loopOver : t.LoopOver
  · exact .inl loopOver
  · rcases hsStep_armedOrTimedOut h.cuts Config.rxDoneCheck Config.rxChunkMax pt with armed | timedOut
    · rw [← move] at armed
      exact .inr ⟨step_keeps_idle h.idle moved, deadlineCuts_iff_not_loopOver.2 ⟨armed, loopOver⟩⟩
    · rw [← move] at timedOut
      exact .inl (.inl fun _ running => nomatch timedOut.symm.trans running)

/-- A run from an awaited loop comes to its end, or still awaits it after any number of steps. -/
theorem State.Awaiting.run (n : Nat) (h : s.Awaiting) : (∃ k, (stepN k s).LoopOver) ∨ (stepN n s).Awaiting := by
  induction n generalizing s with
  | zero => exact .inr h
  | succ n ih =>
    obtain ⟨t, moved⟩ := step_next s
    rcases h.step_cases moved with loopOver | awaiting
    · exact .inl ⟨1, by rw [stepN_succ moved]; exact loopOver⟩
    · rw [stepN_succ moved]
      exact (ih awaiting).imp_left fun ⟨k, loopOver⟩ => ⟨k + 1, by rw [stepN_succ moved]; exact loopOver⟩

/-- A fair run cannot await the end of its loop for ever: the alarm would have fired while it is armed. -/
theorem fairRun_ends_loop (idle : s.tx.txStep = .idle) (armed : s.env.alarm = .armed) (fair : s.FairRun) :
    ∃ n, (stepN n s).LoopOver := by
  by_cases loopOver : s.LoopOver
  · exact ⟨0, loopOver⟩
  · obtain ⟨k, later⟩ := fair 0 armed
    rw [Nat.zero_add] at later
    have awaiting : s.Awaiting := ⟨idle, deadlineCuts_iff_not_loopOver.2 ⟨armed, loopOver⟩⟩
    rcases awaiting.run k with ended | still
    · exact ended
    · rcases later with reached | fired
      · exact ⟨k, reached⟩
      · exact nomatch fired.symm.trans (armed_of_deadlineCuts still.cuts)

end

/-! ## From a complete payload to the result (R166 to R168) -/

section
variable {s t : State} {pt : HsPoint}

/-- The handshake stands at `pt` of its step 4 or after it with the four bytes of the sum received, and no reset is
among the environment's answers. -/
structure State.Completed (s : State) (pt : HsPoint) : Prop where
  idle : s.tx.txStep = .idle
  running : s.host.hs = .running pt
  receiving : pt.inReceive = true
  done : s.rxDone = true
  explen : s.rx.explen = 4
  noReset : ∀ a ∈ s.env.answers, a.event ≠ some .reset

/-- The handshake has ended after at most `k` steps. -/
def State.EndsWithin (s : State) (k : Nat) : Prop := ∃ n r, n ≤ k ∧ (stepN n s).host.hs = .ended r

theorem State.EndsWithin.mono {j k : Nat} (h : s.EndsWithin j) (le : j ≤ k) : s.EndsWithin k := by
  obtain ⟨n, r, bound, ended⟩ := h
  exact ⟨n, r, bound.trans le, ended⟩

theorem endsWithin_of_ended {r : HsResult} (h : s.host.hs = .ended r) (k : Nat) : s.EndsWithin k :=
  ⟨0, r, Nat.zero_le k, h⟩

theorem endsWithin_of_step {k : Nat} (moved : step s = .next t) (h : t.EndsWithin k) : s.EndsWithin (k + 1) := by
  obtain ⟨n, r, bound, ended⟩ := h
  exact ⟨n + 1, r, Nat.succ_le_succ bound, by rw [stepN_succ moved]; exact ended⟩

theorem State.Completed.endsWithin_of_move {k : Nat} (h : s.Completed pt)
    (ends : (hsStep Config.rxDoneCheck Config.rxChunkMax pt s).EndsWithin k) : s.EndsWithin (k + 1) :=
  endsWithin_of_step (step_of_running h.idle h.running) ends

/-- The host goes on to a later point of the receive, the block being as it was. -/
theorem State.Completed.goto (h : s.Completed pt) {pt' : HsPoint} (receiving : pt'.inReceive = true) :
    (s.hsGoto pt').Completed pt' :=
  ⟨h.idle, rfl, receiving, h.done, h.explen, h.noReset⟩

theorem State.Completed.len_b1 (h : s.Completed pt) : s.mem.len .b1 = 4 := by
  have len := ((rxDone_iff s).1 h.done).2
  rw [h.explen] at len
  exact len

/-! The environment's turn: a deadline is without effect once `rx_done` is true (R169). -/

theorem deliverDeadline_answers (s : State) : (deliverDeadline s).env.answers = s.env.answers := by
  cases cuts : s.deadlineCuts with
  | true => rw [deliverDeadline_of_cuts cuts]
  | false =>
    rw [deliverDeadline_of_not_cuts cuts]
    split <;> rfl

theorem nextTurn_of_spares {a : LineAnswer} {as : List LineAnswer} (spares : s.deadlineCuts = false)
    (ha : s.env.answers = a :: as) (he : a.event ≠ some .reset) :
    ∃ t, nextTurn s = .goesOn a t ∧ t.env.answers = as := by
  have answer : s.nextAnswer = a := by rw [State.nextAnswer, ha]
  have taken : s.takeAnswer = s.took a as := by rw [State.takeAnswer, ha]; rfl
  have still_spares : (s.took a as).deadlineCuts = false := spares
  rw [nextTurn, answer, taken]
  cases e : a.event with
  | none => exact ⟨_, rfl, rfl⟩
  | some event =>
    cases event with
    | reset => exact absurd e he
    | deadline => exact ⟨deliverDeadline (s.took a as), by simp [still_spares], deliverDeadline_answers _⟩

theorem State.Completed.spares (h : s.Completed pt) : s.deadlineCuts = false := by
  rw [← Bool.not_eq_true, deadlineCuts_iff_not_loopOver]
  exact fun ⟨_, notOver⟩ => notOver (.inr ⟨pt, h.running, h.receiving, h.done⟩)

/-- The next answer is taken and nothing falls that matters. -/
theorem State.Completed.turn {n : Nat} (h : s.Completed pt) (enough : n < s.env.answers.length) :
    ∃ t, (∀ k, hsTurn s k = k t) ∧ t.Completed pt ∧ n ≤ t.env.answers.length := by
  cases ha : s.env.answers with
  | nil => simp [ha] at enough
  | cons a as =>
    have noReset := h.noReset
    rw [ha] at noReset enough
    obtain ⟨t, on, answers⟩ := nextTurn_of_spares h.spares ha (noReset a List.mem_cons_self)
    obtain ⟨grows, tx, _⟩ := nextTurn_goesOn on
    have done : t.rxDone = s.rxDone := by rw [State.rxDone, grows.mem, grows.rx, State.rxDone]
    refine ⟨t, fun k => by rw [hsTurn, on], ⟨?_, ?_, h.receiving, ?_, ?_, ?_⟩, ?_⟩
    · rw [tx, h.idle]
    · rw [grows.host, h.running]
    · rw [done, h.done]
    · rw [grows.rx, h.explen]
    · rw [answers]
      exact fun b hb => noReset b (List.mem_cons_of_mem a hb)
    · rw [answers]
      exact Nat.le_of_lt_succ enough

/-! The moves after the loop. -/

theorem State.Completed.compare_ends (h : s.Completed .compare) : s.EndsWithin 1 :=
  h.endsWithin_of_move (endsWithin_of_ended (congrArg (HostVars.hs ∘ State.host) (hsCompare_eq s)) 0)

theorem getInt32_of_length {sel : BufSel} (len : s.mem.len sel = 4) :
    ∃ v, getInt32 sel s = (.val (.int32 v), s) := by
  obtain ⟨x0, x1, x2, x3, bytes⟩ := List.length_eq_four.1 len
  exact ⟨le32 x0 x1 x2 x3, by rw [getInt32, bytes, int32Of]⟩

theorem State.Completed.get_ends (h : s.Completed .get) (enough : 0 < s.env.answers.length) : s.EndsWithin 2 := by
  obtain ⟨t, turn, completed, _⟩ := h.turn enough
  obtain ⟨v, value⟩ := getInt32_of_length completed.len_b1
  have compared : (hsGet t).Completed .compare := by
    rw [hsGet_of_value value]
    exact ⟨completed.idle, rfl, rfl, completed.done, completed.explen, completed.noReset⟩
  refine h.endsWithin_of_move ?_
  rw [hsStep, turn]
  exact compared.compare_ends

theorem State.Completed.loop_ends (h : s.Completed .loop) (enough : 0 < s.env.answers.length) : s.EndsWithin 3 := by
  refine h.endsWithin_of_move ?_
  rw [hsStep_loop_of_done _ _ h.done]
  exact (h.goto rfl).get_ends enough

/-! A push of a decoder whose payload is complete (R135 to R140): no byte of data is accepted. -/

/-- A push with `rx_done` true raises a ProtocolError, or it writes `rx_marked` and `rx_escaped` only. -/
inductive PushWhenDone (s : State) : Response × State → Prop where
  | accepted {t : State} (done : t.rxDone = true) (explen : t.rx.explen = s.rx.explen) : PushWhenDone s (.ok, t)
  | raised (c : ProtoCause) (t : State) : PushWhenDone s (.err (.protocol c), t)

theorem payload_whenDone (done : s.rxDone = true) (v : Byte) (e : Bool) :
    PushWhenDone s (payload v (s.setRx { s.rx with escaped := e })) := by
  rcases payload_frame v (s.setRx { s.rx with escaped := e }) with ⟨c, eq⟩ | ⟨_, room, _, _⟩
  · rw [eq]
    exact .raised c _
  · exact absurd ((rxDone_iff s).1 done).2 (Nat.ne_of_lt room)

theorem caseMark_whenDone (done : s.rxDone = true) : PushWhenDone s (caseMark s) := by
  unfold caseMark
  split
  · exact .raised .duplicateMarker _
  · exact .accepted done rfl

theorem rxPush_whenDone (done : s.rxDone = true) (b : Byte) : PushWhenDone s (rxPush b s) := by
  rw [rxPush, ifActive_of ((rxDone_iff s).1 done).1]
  repeat' split
  · exact caseMark_whenDone done
  · exact payload_whenDone done Config.esc false
  · exact .raised .badEscape _
  · exact .accepted done rfl
  · exact payload_whenDone done b s.rx.escaped

/-- A push ends the handshake with a ProtocolError, or the host goes on with the payload still complete. -/
theorem State.Completed.push_cases {chunk : List Byte} (h : s.Completed (.push chunk)) (chk : RxDoneCheck) (x : Byte)
    (rest : List Byte) : (∃ r, (hsPush chk x rest s).host.hs = .ended r) ∨
      (hsPush chk x rest s).Completed (afterPush chk rest true) := by
  have keeps := rxPush_keeps x s
  have ended := rxPush_whenDone h.done x
  generalize e : rxPush x s = w at keeps ended
  cases ended with
  | raised c t =>
    rw [hsPush_of_error e]
    exact .inl ⟨_, rfl⟩
  | @accepted t done explen =>
    have receiving : (afterPush chk rest true).inReceive = true := by
      unfold afterPush
      repeat' split
      all_goals rfl
    have idle : t.tx.txStep = .idle := by rw [keeps.tx, h.idle]
    have noReset : ∀ a ∈ t.env.answers, a.event ≠ some .reset := by rw [keeps.env]; exact h.noReset
    rw [hsPush_of_going e nofun, done]
    exact .inr ⟨idle, rfl, receiving, done, explen.trans h.explen, noReset⟩

/-- The rest of the chunk is pushed, one byte a step, unless the host looks at `rx_done` per byte or a byte ends the
handshake (R166). -/
theorem State.Completed.push_ends {chunk : List Byte} (h : s.Completed (.push chunk))
    (enough : chunk.length < s.env.answers.length) : s.EndsWithin (chunk.length + 4) := by
  induction chunk generalizing s with
  | nil => exact h.endsWithin_of_move (State.Completed.loop_ends (h.goto rfl) enough)
  | cons x rest ih =>
    obtain ⟨t, turn, completed, left⟩ := h.turn enough
    rw [List.length_cons, Nat.succ_add]
    refine h.endsWithin_of_move ?_
    rw [hsStep, turn]
    have env := hsPush_env Config.rxDoneCheck x rest t
    rcases completed.push_cases Config.rxDoneCheck x rest with ⟨r, ended⟩ | after
    · exact endsWithin_of_ended ended _
    · generalize hsPush Config.rxDoneCheck x rest t = u at env after
      rw [List.length_cons, ← env] at left
      have some_left : 0 < u.env.answers.length := Nat.lt_of_lt_of_le (Nat.succ_pos _) left
      unfold afterPush at after
      split at after
      · exact (after.get_ends some_left).mono (by omega)
      · split at after
        · exact (after.loop_ends some_left).mono (by omega)
        · exact ih after left

/-- From every point after `RX.INIT`, a complete payload brings the handshake to its end. -/
theorem State.Completed.ends (h : s.Completed pt) (enough : pt.toPush < s.env.answers.length) :
    s.EndsWithin (pt.toPush + 4) := by
  cases pt with
  | loop => exact (h.loop_ends enough).mono (by decide)
  | push chunk => exact h.push_ends enough
  | get => exact (h.get_ends enough).mono (by decide)
  | compare => exact h.compare_ends.mono (by decide)
  | setA | sendA | setB | sendB | init | stalled => exact nomatch h.receiving

end

/-- Settles O59: fairness ends the loop, and a complete payload leads to a result. -/
theorem fairHandshakeEnds : Obligations.FairHandshakeEnds :=
  ⟨fun _ => fairRun_ends_loop, fun _ _ idle running receiving done explen enough noReset =>
    State.Completed.ends ⟨idle, running, receiving, done, explen, noReset⟩ enough⟩

end Sys2Proof.Machine
end

section
/-! The decoders against the encoder (30_encoding.md sections 1, 2 and 4): each reads back what the encoder writes, and
what a decoder reads is well formed and encoded by the words it has taken. -/

namespace Sys2Proof

/-! ## Commands: from the instruction to its bytes and back (R71, R74) -/

theorem decodeOperands_bytes32 (v : Word32) (sel : BufSel) (ps : List Byte) :
    decodeOperands .seti32 sel (bytes32 v ++ ps) = .instr (.mbSeti32 sel v) ps :=
  congrArg (fun w => Decoded.instr (.mbSeti32 sel w) ps) (le32_bytes32 v)

theorem decodeOperands_bytes16 (len : BitVec 16) (sel : BufSel) (ps : List Byte) :
    decodeOperands .init sel (bytes16 len ++ ps) = .instr (.rxInit len) ps :=
  congrArg (fun w => Decoded.instr (.rxInit w) ps) (le16_bytes16 len)

/-- A command's bytes are read back as the command, whatever follows them on the port. -/
theorem decodeCmd_of_encode {i : Instr} {bytes : List Byte} (wf : i.wf = true) (h : encode i = .command bytes)
    (rest : List Byte) : decodeCmd (bytes ++ rest) = .instr i rest := by
  cases i with
  | mbAppend s bs =>
    cases h
    rw [List.cons_append, List.append_assoc, decodeCmd_opByte .append 0x10 rfl rfl rfl rfl,
      decodeOperands_append (of_decide_eq_true wf)]
  | mbAppendb s b => cases h; exact decodeCmd_opByte .appendb 0x12 rfl rfl rfl rfl s (b :: rest)
  | mbReset s => cases h; exact decodeCmd_opByte .reset 0x14 rfl rfl rfl rfl s rest
  | mbLen s => cases h; exact decodeCmd_opByte .len 0x16 rfl rfl rfl rfl s rest
  | mbCap s => cases h; exact decodeCmd_opByte .cap 0x18 rfl rfl rfl rfl s rest
  | mbSeti32 s v =>
    cases h
    rw [List.cons_append, decodeCmd_opByte .seti32 0x1A rfl rfl rfl rfl, decodeOperands_bytes32]
  | mbGeti32 s => cases h; exact decodeCmd_opByte .geti32 0x1C rfl rfl rfl rfl s rest
  | mbCksum s => cases h; exact decodeCmd_opByte .cksum 0x1E rfl rfl rfl rfl s rest
  | mbSetctl s sp => cases h; exact decodeCmd_opByte .setctl 0x20 rfl rfl rfl rfl s (sp :: rest)
  | mbEq => cases h; rfl
  | mbHex s => cases h; exact decodeCmd_opByte .hex 0x24 rfl rfl rfl rfl s rest
  | txSend s => cases h; exact decodeCmd_opByte .send 0x30 rfl rfl rfl rfl s rest
  | rxInit len => cases h; exact decodeOperands_bytes16 len (selOf 0x40) rest
  | rxDrop => cases h; rfl
  | rawEsc | rawData _ | rawMark | rawLitff | rawBadesc _ | wireMark _ | wireSpace _ => exact nomatch h

/-! ## Commands: from the bytes to the instruction and back (R72 to R74) -/

/-- The opcode byte of an operation on a buffer (R72, R73); three operations have no select bit. -/
def CmdOp.byte : CmdOp → BufSel → Byte
  | .append => opByte 0x10
  | .appendb => opByte 0x12
  | .reset => opByte 0x14
  | .len => opByte 0x16
  | .cap => opByte 0x18
  | .seti32 => opByte 0x1A
  | .geti32 => opByte 0x1C
  | .cksum => opByte 0x1E
  | .setctl => opByte 0x20
  | .eq => fun _ => 0x22
  | .hex => opByte 0x24
  | .send => opByte 0x30
  | .init => fun _ => 0x40
  | .drop => fun _ => 0x42

/-- An opcode byte is its upper seven bits and its select bit (R73). -/
theorem opByte_selOf (op : Byte) : opByte (op &&& 0xFE) (selOf op) = op := by
  ext i hi
  cases bit : op.getLsbD 0 with
  | false => interval_cases i <;> simp_all [selOf, opByte]
  | true => interval_cases i <;> simp_all [selOf, opByte]

theorem opByte_of_selects {o : CmdOp} {p op : Byte} (h : (CmdRow.mk o p 0xFE).selects op = true) :
    opByte p (selOf op) = op := by
  have masked : op &&& 0xFE = p := eq_of_beq h
  rw [← masked, opByte_selOf]

theorem eq_of_selects_exact {o : CmdOp} {p op : Byte} (h : (CmdRow.mk o p 0xFF).selects op = true) : p = op :=
  (BitVec.eq_of_toNat_eq ((selects_of_exact o p op).1 h)).symm

/-- An opcode byte is the one of the operation it selects, on the buffer it selects. -/
theorem byte_of_opcodeOf {op : Byte} {o : CmdOp} (h : opcodeOf op = some o) : o.byte (selOf op) = op := by
  have rows : ∀ r ∈ cmdRows, r.selects op = true → r.op.byte (selOf op) = op := by
    simp only [cmdRows, List.forall_mem_cons]
    exact ⟨opByte_of_selects, opByte_of_selects, opByte_of_selects, opByte_of_selects, opByte_of_selects,
      opByte_of_selects, opByte_of_selects, opByte_of_selects, opByte_of_selects, eq_of_selects_exact,
      opByte_of_selects, opByte_of_selects, eq_of_selects_exact, eq_of_selects_exact, nofun⟩
  obtain ⟨r, found, rfl⟩ := Option.map_eq_some_iff.1 h
  exact rows r (List.mem_of_find?_eq_some found) (List.find?_some (p := fun r : CmdRow => r.selects op) found)

/-- The count of `MB.APPEND` is the number of bytes taken after it, so it is written again as it was read. -/
theorem encode_append_taken {lo hi : Byte} {ps : List Byte} (arrived : (le16 lo hi).toNat ≤ ps.length) (s : BufSel) :
    (Instr.mbAppend s (ps.take (le16 lo hi).toNat)).wf = true ∧
      encode (.mbAppend s (ps.take (le16 lo hi).toNat)) =
        .command (opByte 0x10 s :: lo :: hi :: ps.take (le16 lo hi).toNat) := by
  have taken : (ps.take (le16 lo hi).toNat).length = (le16 lo hi).toNat := List.length_take_of_le arrived
  constructor
  · rw [Instr.wf, taken]
    exact decide_eq_true (le16 lo hi).isLt
  · rw [encode, taken, BitVec.ofNat_toNat, BitVec.setWidth_eq, bytes16_le16]
    rfl

/-- What is read after an opcode byte is a well-formed instruction, whose encoding is the opcode byte and the operand
bytes taken. -/
theorem encode_of_decodeOperands {o : CmdOp} {s : BufSel} {ps rest : List Byte} {i : Instr}
    (h : decodeOperands o s ps = .instr i rest) :
    i.wf = true ∧ ∃ args, encode i = .command (o.byte s :: args) ∧ ps = args ++ rest := by
  cases o with
  | append =>
    match ps, h with
    | [], h | [_], h => exact nomatch h
    | lo :: hi :: ps, h =>
      rw [decodeOperands] at h
      split at h
      next => exact nomatch h
      next arrived =>
        cases h
        obtain ⟨wf, encoded⟩ := encode_append_taken (Nat.le_of_not_lt arrived) s
        exact ⟨wf, _, encoded, congrArg (lo :: hi :: ·) (List.take_append_drop _ ps).symm⟩
  | appendb | setctl =>
    match ps, h with
    | [], h => exact nomatch h
    | b :: _, h => cases h; exact ⟨rfl, [b], rfl, rfl⟩
  | seti32 =>
    match ps, h with
    | [], h | [_], h | [_, _], h | [_, _, _], h => exact nomatch h
    | x0 :: x1 :: x2 :: x3 :: _, h =>
      cases h
      exact ⟨rfl, [x0, x1, x2, x3], by rw [encode, bytes32_le32]; rfl, rfl⟩
  | init =>
    match ps, h with
    | [], h | [_], h => exact nomatch h
    | lo :: hi :: _, h =>
      cases h
      exact ⟨rfl, [lo, hi], by rw [encode, bytes16_le16]; rfl, rfl⟩
  | reset | len | cap | geti32 | cksum | eq | hex | send | drop => cases h; exact ⟨rfl, [], rfl, rfl⟩

theorem encode_of_decodeCmd {bytes rest : List Byte} {i : Instr} (h : decodeCmd bytes = .instr i rest) :
    i.wf = true ∧ ∃ cmd, encode i = .command cmd ∧ bytes = cmd ++ rest := by
  cases bytes with
  | nil => exact nomatch h
  | cons op ps =>
    rw [decodeCmd] at h
    cases selected : opcodeOf op with
    | none => rw [selected] at h; exact nomatch h
    | some o =>
      rw [selected] at h
      obtain ⟨wf, args, encoded, rfl⟩ := encode_of_decodeOperands h
      rw [byte_of_opcodeOf selected] at encoded
      exact ⟨wf, op :: args, encoded, rfl⟩

/-! ## The 9-bit words (R63, R67) -/

theorem decodeRawWord_word9 (escaped : Bool) (b : Byte) : decodeRawWord (word9 escaped b) = decodeRaw escaped b := by
  obtain ⟨high, low⟩ := word9_fields escaped b
  rw [decodeRawWord, high, low]

theorem decodeWire_word9 (p : Bool) (d : Byte) :
    decodeWire (word9 p d) = if p then .wireMark d else .wireSpace d := by
  obtain ⟨high, low⟩ := word9_fields p d
  rw [decodeWire, high, low]

theorem decodeRawWord_of_encode {i : Instr} {w : BitVec 9} (wf : i.wf = true) (h : encode i = .raw w) :
    decodeRawWord w = i := by
  cases i with
  | rawEsc => cases h; rw [decodeRawWord_word9, decodeRaw_unescaped_esc]
  | rawData b => cases h; rw [decodeRawWord_word9, decodeRaw_unescaped_data (bne_iff_ne.1 wf)]
  | rawMark => cases h; rw [decodeRawWord_word9, decodeRaw_escaped_mark]
  | rawLitff => cases h; rw [decodeRawWord_word9, decodeRaw_escaped_esc]
  | rawBadesc b =>
    cases h
    obtain ⟨notEsc, notMark⟩ := Bool.and_eq_true_iff.1 wf
    rw [decodeRawWord_word9, decodeRaw_escaped_other (bne_iff_ne.1 notMark) (bne_iff_ne.1 notEsc)]
  | _ => exact nomatch h

theorem decodeWire_of_encode {i : Instr} {ch : BitVec 9} (h : encode i = .wire ch) : decodeWire ch = i := by
  cases i with
  | wireMark d => cases h; exact decodeWire_word9 true d
  | wireSpace d => cases h; exact decodeWire_word9 false d
  | _ => exact nomatch h

/-- Each pair of `rx_escaped` and a byte is in one of the five cases of `RX.PUSH`, whose word holds the pair. -/
theorem encode_decodeRaw (escaped : Bool) (b : Byte) : encode (decodeRaw escaped b) = .raw (word9 escaped b) ∧
    (decodeRaw escaped b).wf = true ∧ Machine.isPush (decodeRaw escaped b) = true := by
  cases escaped with
  | false =>
    by_cases he : b = Config.esc
    · rw [he, decodeRaw_unescaped_esc]
      exact ⟨rfl, rfl, rfl⟩
    · rw [decodeRaw_unescaped_data he]
      exact ⟨rfl, bne_iff_ne.2 he, rfl⟩
  | true =>
    by_cases hm : b = Config.markCode
    · rw [hm, decodeRaw_escaped_mark]
      exact ⟨rfl, rfl, rfl⟩
    by_cases he : b = Config.esc
    · rw [he, decodeRaw_escaped_esc]
      exact ⟨rfl, rfl, rfl⟩
    · rw [decodeRaw_escaped_other hm he]
      exact ⟨rfl, Bool.and_eq_true_iff.2 ⟨bne_iff_ne.2 he, bne_iff_ne.2 hm⟩, rfl⟩

theorem encode_decodeWire (ch : BitVec 9) : encode (decodeWire ch) = .wire ch ∧ (decodeWire ch).wf = true := by
  rw [← word9_of_fields ch, decodeWire_word9]
  cases ch.getLsbD 8 <;> exact ⟨rfl, rfl⟩

/-! ## The statements -/

/-- Settles O41: the words of an instruction are in one of the three alphabets, whose decoder reads them back. -/
theorem decodeOfEncode : Obligations.DecodeOfEncode := by
  intro i wf
  refine ⟨?_, fun bytes rest h => decodeCmd_of_encode wf h rest⟩
  cases h : encode i with
  | command bytes => rw [decode, ← List.append_nil bytes, decodeCmd_of_encode wf h]
  | raw w => rw [decode, decodeRawWord_of_encode wf h]
  | wire ch => rw [decode, decodeWire_of_encode h]

/-- Settles O42: the opcode byte is the operation's own, and the operand bytes are those of the instruction read. -/
theorem encodeOfDecodedCommand : Obligations.EncodeOfDecodedCommand :=
  fun _ _ _ => encode_of_decodeCmd

/-- Settles O43: a word is made of its two fields, which the instruction read holds. -/
theorem nineBitWordsRoundTrip : Obligations.NineBitWordsRoundTrip := by
  intro w
  obtain ⟨raw, wf, push⟩ := encode_decodeRaw (w.getLsbD 8) (w.extractLsb' 0 8)
  rw [word9_of_fields] at raw
  exact ⟨raw, wf, push, encode_decodeWire w⟩

/-- Settles O45: the words are the encodings of the six instructions, so the decoders read those. -/
theorem sampleWordsDecode : Obligations.SampleWordsDecode :=
  ⟨decodeCmd_of_encode (i := .mbAppend .b0 [0xAA, 0xBB]) rfl rfl [0x14],
    decodeCmd_of_encode (i := .mbSeti32 .b1 0x12345678) rfl rfl [],
    decodeCmd_of_encode (i := .txSend .b1) rfl rfl [],
    decodeCmd_of_encode (i := .rxInit 257) rfl rfl [],
    decodeRawWord_of_encode (i := .rawBadesc 0x7F) rfl rfl,
    decodeWire_of_encode (i := .wireMark 0x0C) rfl⟩

end Sys2Proof
end
